-- ==== Sys2Proof/Word.lean ====
section
/-! DEFINITION. The two widths of CYPH-CORE's data (spec 00 R9): the byte and the 32-bit word. -/

namespace Sys2Proof

/-- A byte, an integer 0 to 255 (00 R9). -/
abbrev Byte := BitVec 8

/-- A word, an integer 0 to 2^32 - 1 (00 R9). -/
abbrev Word := BitVec 32

end Sys2Proof
end

