-- ==== Sys2Proof/Syntax.lean ====
section
/-! DEFINITION. The commands of CYPH-CORE (30 R91): one constructor per row of the opcode table. -/

namespace Sys2Proof

/-- A command. Only ARK has an explicit operand, the round number in `ARG` (30 R90, 30 R95). -/
inductive Instr where
  | kexp
  | rkey
  | ark (round : Nat)
  | subb
  | shrow
  | mixc
  | isubb
  | ishrow
  | imixc
  | encb
  | decb
  | pad
  | unpad
  | encm
  | decm
  | egcd
  | minv
  | ptst
  | pgen
  | mexp
  | kgen
  | renc
  | rdec
deriving DecidableEq, Repr

end Sys2Proof
end

