-- ==== Sys2Proof/WellFormed.lean ====
section
/-! DEFINITION. Which commands have an encoding (30 R90, 30 R94). -/

namespace Sys2Proof

/-- A command can be written as a command word: the round of ARK is an unsigned 8-bit number (30 R90), any of 0 to 255
(30 R94); the other commands have no operand. -/
def Instr.wf : Instr → Bool
  | .ark round => decide (round < 256)
  | .kexp | .rkey | .subb | .shrow | .mixc | .isubb | .ishrow | .imixc | .encb | .decb | .pad | .unpad | .encm
  | .decm | .egcd | .minv | .ptst | .pgen | .mexp | .kgen | .renc | .rdec => true

end Sys2Proof
end

