-- ==== Sys2Proof/Decode.lean ====
section
/-! DEFINITION. The command word (30 R90 to R94): decoding, total on every 32-bit word and rejecting by name, and after it
the encoder, written from the same table. -/

namespace Sys2Proof

/-- Why a command word is illegal (30 R93). -/
inductive Reject where
  /-- `RSV`, bits 31:16, is not 0. -/
  | reservedBits
  /-- `ARG`, bits 15:8, is not 0 with an `OP` other than ARK's. -/
  | argNotZero
  /-- `OP`, bits 7:0, is not in the table. -/
  | reservedOp
deriving DecidableEq, Repr

/-- The `OP` field, bits 7:0 (30 R90). -/
def opField (c : Word) : BitVec 8 := c.extractLsb' 0 8

/-- The `ARG` field, bits 15:8 (30 R90). -/
def argField (c : Word) : BitVec 8 := c.extractLsb' 8 8

/-- The `RSV` field, bits 31:16 (30 R90). -/
def rsvField (c : Word) : BitVec 16 := c.extractLsb' 16 16

/-- `OP` of ARK, the one command with an operand (30 R91). -/
def arkOp : BitVec 8 := 0x10

/-- The rows of the opcode map without an operand (30 R91). -/
def plainRows : List (BitVec 8 × Instr) :=
  [(0x01, .kexp), (0x02, .rkey),
   (0x11, .subb), (0x12, .shrow), (0x13, .mixc), (0x15, .isubb), (0x16, .ishrow), (0x17, .imixc),
   (0x18, .encb), (0x19, .decb)] ++
  [(0x20, .pad), (0x21, .unpad), (0x22, .encm), (0x23, .decm)] ++
  [(0x30, .egcd), (0x31, .minv), (0x32, .ptst), (0x33, .pgen)] ++
  [(0x40, .mexp), (0x41, .kgen), (0x42, .renc), (0x43, .rdec)]

/-- Decoding (30 R92, R93). -/
def decode (c : Word) : Except Reject Instr :=
  if rsvField c ≠ 0 then .error .reservedBits
  else if opField c = arkOp then .ok (.ark (argField c).toNat)
  else if argField c ≠ 0 then .error .argNotZero
  else match plainRows.lookup (opField c) with
    | some i => .ok i
    | none => .error .reservedOp

/-- `OP` of a command (30 R91). -/
def Instr.op : Instr → BitVec 8
  | .kexp => 0x01
  | .rkey => 0x02
  | .ark _ => 0x10
  | .subb => 0x11
  | .shrow => 0x12
  | .mixc => 0x13
  | .isubb => 0x15
  | .ishrow => 0x16
  | .imixc => 0x17
  | .encb => 0x18
  | .decb => 0x19
  | .pad => 0x20
  | .unpad => 0x21
  | .encm => 0x22
  | .decm => 0x23
  | .egcd => 0x30
  | .minv => 0x31
  | .ptst => 0x32
  | .pgen => 0x33
  | .mexp => 0x40
  | .kgen => 0x41
  | .renc => 0x42
  | .rdec => 0x43

/-- `ARG` of a command: the round of ARK, else 0 (30 R90). -/
def Instr.arg : Instr → BitVec 8
  | .ark round => BitVec.ofNat 8 round
  | .kexp | .rkey | .subb | .shrow | .mixc | .isubb | .ishrow | .imixc | .encb | .decb | .pad | .unpad | .encm
  | .decm | .egcd | .minv | .ptst | .pgen | .mexp | .kgen | .renc | .rdec => 0

/-- The command word of a well-formed command (30 R90): `RSV = 0`, then `ARG`, then `OP`. -/
def encode (i : Instr) : Word := (0 : BitVec 16) ++ (i.arg ++ i.op)

/-- The `mask` column of the opcode table (30 R92). -/
def Instr.mask : Instr → Word
  | .ark _ => 0xFFFF00FF
  | .kexp | .rkey | .subb | .shrow | .mixc | .isubb | .ishrow | .imixc | .encb | .decb | .pad | .unpad | .encm
  | .decm | .egcd | .minv | .ptst | .pgen | .mexp | .kgen | .renc | .rdec => 0xFFFFFFFF

/-- The `match` column of the opcode table (30 R92): the `OP` value with zeros above it. -/
def Instr.pattern (i : Instr) : Word := i.op.setWidth 32

/-- The command word that stands in the low `nbits` bits of `w`, every bit above them 0. -/
def tableWord (nbits w : Nat) : Word := BitVec.ofNat 32 (w % 2 ^ nbits)

/-- What the decoder reads from the instruction whose bits are `w` (the host's question about the opcode table). A command
is one 32-bit word, so numbers that need more bits are no command (log 23). -/
def decodeTableWord (nbits w : Nat) : Option Instr :=
  if 2 ^ 32 ≤ w % 2 ^ nbits then none
  else match decode (tableWord nbits w) with
    | .ok i => some i
    | .error _ => none

end Sys2Proof
end

