-- ==== Sys2Proof/Machine/Bytes.lean ====
section
/-! DEFINITION. Byte order: bytes and words, byte strings and naturals (00 R8, R10; 20 R63). -/

namespace Sys2Proof.Machine

/-- `be_word(b0, b1, b2, b3)` (00 R10). -/
def beWord (b0 b1 b2 b3 : Byte) : Word := b0 ++ b1 ++ b2 ++ b3

/-- Byte `t` of a word, byte 0 the most significant (00 R8): bits `[31-8t : 24-8t]`. -/
def wordByte (v : Word) (t : Nat) : Byte := v.extractLsb' (24 - 8 * t) 8

/-- Word `j` of a byte buffer as the bus shows it: byte `4j + t` in lane `t` (20 R63). -/
def bufWord {n : Nat} (b : Vector Byte n) (j : Nat) : Word :=
  beWord (b[4 * j]?.getD 0) (b[4 * j + 1]?.getD 0) (b[4 * j + 2]?.getD 0) (b[4 * j + 3]?.getD 0)

/-- A byte buffer after the bus writes word `j` (20 R63). -/
def setBufWord {n : Nat} (b : Vector Byte n) (j : Nat) (v : Word) : Vector Byte n :=
  Vector.ofFn fun i => if i.val / 4 = j then wordByte v (i.val % 4) else b[i]

/-- A fixed buffer from the front of a byte string, zeros past its end. -/
def bufOfList (n : Nat) (bs : List Byte) : Vector Byte n := Vector.ofFn fun i => bs.getD i.val 0

/-- `bitlen(n)`: the number of bits of `n` without leading zeros, `bitlen(0) = 0` (00 R10). -/
def bitLen (n : Nat) : Nat := if n = 0 then 0 else Nat.log2 n + 1

/-- How many bytes hold `n` bits: `ceil(n / 8)`. -/
def bytesFor (n : Nat) : Nat := (n + 7) / 8

/-- `be_int(b)` (00 R10), continued from the value of the bytes before. -/
def beIntFrom (acc : Nat) : List Byte → Nat
  | [] => acc
  | b :: bs => beIntFrom (256 * acc + b.toNat) bs

/-- `be_int(b)`, the natural a byte string stands for, first byte most significant (00 R10). -/
def beInt (bs : List Byte) : Nat := beIntFrom 0 bs

/-- The low `k` bytes of `n`, most significant first. -/
def beBytesN : Nat → Nat → List Byte
  | 0, _ => []
  | k + 1, n => BitVec.ofNat 8 (n / 256 ^ k) :: beBytesN k n

/-- `be_bytes(n)`, the shortest byte string of `n`, empty for 0 (00 R10). -/
def beBytes (n : Nat) : List Byte := beBytesN (bytesFor (bitLen n)) n

end Sys2Proof.Machine
end

