-- ==== Sys2Proof/Machine/Gf.lean ====
section
/-! DEFINITION. Galois-field primitives, substitution tables, round constants and MixColumns matrices (spec 40). -/

namespace Sys2Proof.Machine

/-- `XTime(a)`, multiplication by `x` in GF(2^8) (40 R111). -/
def xtime (a : Byte) : Byte := if a.getLsbD 7 then (a <<< 1) ^^^ 0x1B else a <<< 1

/-- The loop of `GFMul` (40 R112) with `n` bits of `b` still to come: bit `k = 8 - n` is next. -/
def gfMulLoop (b : Byte) : Nat → Byte → Byte → Byte
  | 0, p, _ => p
  | n + 1, p, a => gfMulLoop b n (if b.getLsbD (7 - n) then p ^^^ a else p) (xtime a)

/-- `GFMul(a, b)`, the product of two bytes in GF(2^8) (40 R112). -/
def gfMul (a b : Byte) : Byte := gfMulLoop b 8 0 a

/-- Entry `0xRC` of a table written as the spec prints it: row `R` is one 16-byte number, column 0 its first byte. -/
def tableEntry (rows : List (BitVec 128)) (a : Byte) : Byte :=
  (rows.getD (a.toNat / 16) 0).extractLsb' (8 * (15 - a.toNat % 16)) 8

/-- The rows of `SBOX` (40 R113). -/
def sboxRows : List (BitVec 128) :=
  [0x637c777bf26b6fc53001672bfed7ab76,
   0xca82c97dfa5947f0add4a2af9ca472c0,
   0xb7fd9326363ff7cc34a5e5f171d83115,
   0x04c723c31896059a071280e2eb27b275] ++
  [0x09832c1a1b6e5aa0523bd6b329e32f84,
   0x53d100ed20fcb15b6acbbe394a4c58cf,
   0xd0efaafb434d338545f9027f503c9fa8,
   0x51a3408f929d38f5bcb6da2110fff3d2] ++
  [0xcd0c13ec5f974417c4a77e3d645d1973,
   0x60814fdc222a908846eeb814de5e0bdb,
   0xe0323a0a4906245cc2d3ac629195e479,
   0xe7c8376d8dd54ea96c56f4ea657aae08] ++
  [0xba78252e1ca6b4c6e8dd741f4bbd8b8a,
   0x703eb5664803f60e613557b986c11d9e,
   0xe1f8981169d98e949b1e87e9ce5528df,
   0x8ca1890dbfe6426841992d0fb054bb16]

/-- The rows of `ISBOX` (40 R114). -/
def isboxRows : List (BitVec 128) :=
  [0x52096ad53036a538bf40a39e81f3d7fb,
   0x7ce339829b2fff87348e4344c4dee9cb,
   0x547b9432a6c2233dee4c950b42fac34e,
   0x082ea16628d924b2765ba2496d8bd125] ++
  [0x72f8f66486689816d4a45ccc5d65b692,
   0x6c704850fdedb9da5e154657a78d9d84,
   0x90d8ab008cbcd30af7e45805b8b34506,
   0xd02c1e8fca3f0f02c1afbd0301138a6b] ++
  [0x3a9111414f67dcea97f2cfcef0b4e673,
   0x96ac7422e7ad3585e2f937e81c75df6e,
   0x47f11a711d29c5896fb7620eaa18be1b,
   0xfc563e4bc6d279209adbc0fe78cd5af4] ++
  [0x1fdda8338807c731b11210592780ec5f,
   0x60517fa919b54a0d2de57a9f93c99cef,
   0xa0e03b4dae2af5b0c8ebbb3c83539961,
   0x172b047eba77d626e169146355210c7d]

/-- `SBOX[a]` (40 R113). -/
def sbox (a : Byte) : Byte := tableEntry sboxRows a

/-- `ISBOX[a]` (40 R114). -/
def isbox (a : Byte) : Byte := tableEntry isboxRows a

/-- `RotWord(w)`: rotation left by 8 bits (40 R116). -/
def rotWord (w : Word) : Word := (w <<< 8) ||| (w >>> 24)

/-- `SubWord(w)`: `SBOX` on each of the four bytes (40 R117). -/
def subWord (w : Word) : Word :=
  beWord (sbox (wordByte w 0)) (sbox (wordByte w 1)) (sbox (wordByte w 2)) (sbox (wordByte w 3))

/-- `RCON[j] = x^(j-1)` (40 R118), for `j` from 1 to 10. The spec gives index 0 and indexes above 10 no value and no rule
reads them (log 24). -/
def rcon : Nat → Byte
  | 0 => 0
  | 1 => 0x01
  | j + 2 => xtime (rcon (j + 1))

/-- The first row of the MixColumns matrix (40 R119). -/
def mixRow : List Byte := [0x02, 0x03, 0x01, 0x01]

/-- The first row of the inverse MixColumns matrix (40 R119). -/
def invMixRow : List Byte := [0x0E, 0x0B, 0x0D, 0x09]

/-- Entry `[r][j]` of the circulant matrix of a first row: `m[(j - r) mod 4]` (40 R119). -/
def circulant (m : List Byte) (r j : Nat) : Byte := m.getD ((j + 4 - r) % 4) 0

end Sys2Proof.Machine
end

