-- ==== Sys2Proof/Config.lean ====
section
/-! DEFINITION. What may differ between two builds of CYPH-CORE (00 R7), and the free answers of the random source
(44 R220). -/

namespace Sys2Proof

/-- The two parameters a model takes as arguments (00 R7), with the spec's defaults. -/
structure Config where
  /-- `BN_BITS`, the width of each big-number register. -/
  bnBits : Nat := 4096
  /-- `DMEM_BYTES`, the capacity of the data buffer. -/
  dmemBytes : Nat := 4096
deriving DecidableEq, Repr

/-- The bounds 00 R7 puts on the parameters. -/
abbrev Config.Valid (c : Config) : Prop :=
  c.bnBits % 32 = 0 ∧ 64 ≤ c.bnBits ∧ c.bnBits ≤ 32768 ∧
  c.dmemBytes % 16 = 0 ∧ 32 ≤ c.dmemBytes ∧ c.bnBits / 8 ≤ c.dmemBytes ∧ c.dmemBytes ≤ 32768

/-- The random source's answers past the scripted ones (44 R220: "a model treats each as a free input"): a byte, or
`none` for a failing source. A free value: it has no body, so nothing can be proved of it (log 2). -/
opaque Config.freeRandom : Nat → Option Byte

end Sys2Proof
end

