-- ==== Sys2Proof/Machine/State.lean ====
section
/-! DEFINITION. The state of CYPH-CORE (10 R20) as plain data, with the outside world it meets (host accesses, random
answers) as lists the step reads, the reasons a step can stop, and the state after reset (10 R41). -/

namespace Sys2Proof.Machine

/-- The error codes of `STATUS.ERR` (60 R310). Other values are never produced (93 U15). -/
inductive ErrCode where
  | noError
  | invalidKeySize
  | invalidCiphertextLength
  | invalidPadding
  | messageTooLarge
  | invalidCiphertextEncoding
  | noInverseExists
  | keyGenerationFailed
  | primeGenerationFailed
  | unsupportedValueType
  | illegalCommand
  | capacityExceeded
  | invalidOperand
  | keyScheduleInvalid
  | randomSourceFailed
  | aborted
deriving DecidableEq, Repr

/-- The fields of `STATUS` (10 R22). -/
structure Status where
  busy : Bool
  done : Bool
  kvalid : Bool
  prime : Bool
  xneg : Bool
  yneg : Bool
  bav : Bool
  nr : BitVec 4
  err : ErrCode
deriving DecidableEq, Repr

/-- `SRCH`, the progress of a prime search (10 R37 (c), 44 R230; log 6). -/
inductive Search where
  /-- KGEN "searching p"; for PGEN "not yet found". The value at reset and at the start of every command. -/
  | searchingP
  /-- KGEN "searching q, with p". -/
  | searchingQ (p : Nat)
  /-- PGEN: the accepted prime is recorded and the completion step is enabled. -/
  | found (v : Nat)
  /-- KGEN: both primes are recorded and the completion step is enabled. -/
  | foundPair (p q : Nat)
  /-- A draw failed: the completion step with `PrimeGenerationFailed` is enabled. -/
  | drawFailed
deriving DecidableEq, Repr

/-- The names of the six big-number registers `BA`, `BB`, `BM`, `BR`, `BX`, `BY` (10 R33). -/
inductive BigReg where
  | ba | bb | bm | br | bx | bY
deriving DecidableEq, Repr

/-- The registers of the host window (20 R61), the arrays with their index. -/
inductive Reg where
  | ctrl
  | status
  | cmd
  | kbits
  | keylen
  | dlen
  | ntbits
  | ntrounds
  | key (j : Nat)
  | blk (c : Nat)
  | w (i : Nat)
  | big (b : BigReg) (limb : Nat)
  | dmem (k : Nat)
deriving DecidableEq, Repr

/-- What takes the next step (00 R13; log 3). An access carries its byte offset and its width in bits (20 R60, R62). -/
inductive Event where
  | hostRead (off width : Nat)
  | hostWrite (off width : Nat) (v : Word)
  | engine
  | hardReset
deriving DecidableEq, Repr

/-- The port's answer to an access that is performed or refused for busy (20 R60, R71). -/
inductive Reply where
  | word (v : Word)
  | ok
deriving DecidableEq, Repr

/-- Why the port answers `BusError` (20 R68 (a), (b), (c)). -/
inductive BusCause where
  | misaligned
  | unmapped
  | readOnly
deriving DecidableEq, Repr

/-- The random source (44 R220): the answers fixed in advance (`none` is a failing source), then the free ones, of which
`used` were taken. The model's own field (log 2). -/
structure Rng where
  script : List (Option Byte)
  used : Nat
deriving DecidableEq, Repr

/-- `DMEM` (10 R35) as the list of its bytes that are not 0, addresses strictly rising (log 13). -/
abbrev Memory := List Host.Cell

/-- The machine. `cfg`, `rng`, `events`, `replies` are the model's own fields (logs 1 to 4); the others are the
architectural state of 10 R20. `CTRL`, `CMD` and working storage hold nothing between steps (log 11). -/
structure State where
  /-- The parameters of this build (00 R7); no step writes them. -/
  cfg : Config
  /-- `STATUS` (10 R22). -/
  status : Status
  /-- `OPLATCH`, the command word being executed (10 R20, R37), kept after its end (log 16). -/
  oplatch : Word
  /-- `KBITS` (10 R24). -/
  kbits : BitVec 16
  /-- `KEYLEN` (10 R25). -/
  keylen : BitVec 8
  /-- `KEY[0..32)` (10 R29). -/
  key : Vector Byte 32
  /-- `S[0..16)`, the spec's State, bus name `BLK` (10 R30). -/
  blk : Vector Byte 16
  /-- `W[0..60)`, the key schedule (10 R31). -/
  w : Vector Word 60
  /-- `DLEN` (10 R26). -/
  dlen : Word
  /-- `DMEM[0..DMEM_BYTES)` (10 R35). -/
  dmem : Memory
  /-- `NTBITS` (10 R27). -/
  ntbits : Word
  /-- `NTROUNDS` (10 R28). -/
  ntrounds : BitVec 8
  /-- `BA`, a natural below `2^BN_BITS` (10 R33); so are the next five (log 14). -/
  ba : Nat
  /-- `BB` (10 R33). -/
  bb : Nat
  /-- `BM` (10 R33). -/
  bm : Nat
  /-- `BR` (10 R33). -/
  br : Nat
  /-- `BX` (10 R33). -/
  bx : Nat
  /-- `BY` (10 R33). -/
  bY : Nat
  /-- `SRCH` (10 R37). -/
  srch : Search
  /-- The random source's answers still to come (44 R220). -/
  rng : Rng
  /-- What takes the next steps, first one first (00 R13). -/
  events : List Event
  /-- What the port has answered, newest first (20 R60). -/
  replies : List Reply
deriving DecidableEq, Repr

/-- Why a step stops with a fault: never. No constructor, because "The block never stops the host" (60 R328): every
failure of a command is a next state with its code in `ERR` (60 R311; log 18). Safe. -/
inductive Fault where
deriving DecidableEq, Repr

/-- Why a step has no meaning. -/
inductive Refusal where
  /-- An arm of `exec` whose instruction has no meaning yet. Raised by none of the present arms. Safe. -/
  | notModelled (mnemonic : String)
  /-- The host's access is a `BusError`. Raised by `step` on a host access of 20 R68; "A model treats `BusError` as a
  refusal" (20 R68; log 5). Safe. -/
  | busError (cause : BusCause)
deriving DecidableEq, Repr

/-- `STATUS` after reset (10 R41). -/
def Status.reset : Status :=
  { busy := false, done := false, kvalid := false, prime := false, xneg := false, yneg := false, bav := false,
    nr := 0, err := .noError }

/-- The machine after reset with the parameters `c` (10 R41, 70 R351), the outside world silent. -/
def State.resetWith (c : Config) : State :=
  { cfg := c
    status := Status.reset
    oplatch := 0
    kbits := 0
    keylen := 0
    key := Vector.replicate 32 0
    blk := Vector.replicate 16 0
    w := Vector.replicate 60 0
    dlen := 0
    dmem := []
    ntbits := 0
    ntrounds := 10
    ba := 0
    bb := 0
    bm := 0
    br := 0
    bx := 0
    bY := 0
    srch := .searchingP
    rng := { script := [], used := 0 }
    events := []
    replies := [] }

/-- The machine right after reset (10 R41), with the default parameters (00 R7). -/
def State.reset : State := State.resetWith {}

end Sys2Proof.Machine
end

