-- ==== Sys2Proof/Machine/Flags.lean ====
section
/-! DEFINITION. `STATUS`: the numbers of the error codes (60 R310), the register as one word (10 R22), and the updates a
command makes to its flags. -/

namespace Sys2Proof.Machine

/-- The number of an error code (60 R310; log 22). -/
def ErrCode.code : ErrCode → BitVec 8
  | .noError => 0x00
  | .invalidKeySize => 0x01
  | .invalidCiphertextLength => 0x02
  | .invalidPadding => 0x03
  | .messageTooLarge => 0x04
  | .invalidCiphertextEncoding => 0x05
  | .noInverseExists => 0x06
  | .keyGenerationFailed => 0x07
  | .primeGenerationFailed => 0x08
  | .unsupportedValueType => 0x09
  | .illegalCommand => 0x80
  | .capacityExceeded => 0x81
  | .invalidOperand => 0x82
  | .keyScheduleInvalid => 0x83
  | .randomSourceFailed => 0x84
  | .aborted => 0x85

/-- The error codes (60 R310). -/
def ErrCode.all : List ErrCode :=
  [.noError, .invalidKeySize, .invalidCiphertextLength, .invalidPadding, .messageTooLarge, .invalidCiphertextEncoding] ++
  [.noInverseExists, .keyGenerationFailed, .primeGenerationFailed, .unsupportedValueType, .illegalCommand] ++
  [.capacityExceeded, .invalidOperand, .keyScheduleInvalid, .randomSourceFailed, .aborted]

/-- The error code with a number, as a host reads it from `STATUS` (60 R310). -/
def ErrCode.ofCode (n : BitVec 8) : Option ErrCode := ErrCode.all.find? (fun e => e.code == n)

/-- One bit of a status word. -/
def flagBit (b : Bool) : BitVec 1 := BitVec.ofBool b

/-- `STATUS` as the host reads it (10 R22), from bit 31 down: reserved, `ERR`, reserved, `NR`, reserved, `BAV`, `YNEG`,
`XNEG`, `PRIME`, `KVALID`, `DONE`, `BUSY`. -/
def Status.toWord (t : Status) : Word :=
  (0 : BitVec 8) ++ t.err.code ++ (0 : BitVec 4) ++ t.nr ++ (0 : BitVec 1) ++ flagBit t.bav ++ flagBit t.yneg ++
    flagBit t.xneg ++ flagBit t.prime ++ flagBit t.kvalid ++ flagBit t.done ++ flagBit t.busy

/-- `STATUS` at the start step (10 R23). -/
def Status.started (t : Status) : Status := { t with busy := true, done := false, err := .noError }

/-- `STATUS` at the completion step or at an abort (60 R310, R311, R317). -/
def Status.ended (e : ErrCode) (t : Status) : Status := { t with busy := false, done := true, err := e }

/-- `KVALID <- 1`, `NR <- nr` (41 R134). -/
def Status.setSchedule (nr : Nat) (t : Status) : Status := { t with kvalid := true, nr := BitVec.ofNat 4 nr }

/-- `PRIME <- v` (44 R227). -/
def Status.setPrime (v : Bool) (t : Status) : Status := { t with prime := v }

/-- `XNEG`, `YNEG`: 1 where the coefficient is negative (44 R222; log 9). -/
def Status.setSigns (x y : Int) (t : Status) : Status := { t with xneg := decide (x < 0), yneg := decide (y < 0) }

end Sys2Proof.Machine
end

