-- ==== Sys2Proof/Machine/Memory.lean ====
section
/-! DEFINITION. The data buffer `DMEM` (10 R35, R36) as a sparse memory of bytes, keyed by byte index. -/

namespace Sys2Proof.Machine

/-- What an index that is not listed reads as: `DMEM` is all zero at reset (10 R41; log 13). -/
def Memory.unlisted : Byte := 0

/-- The canonical form: indexes strictly rising, no entry equal to what an unlisted index reads as. -/
abbrev Memory.wf (m : Memory) : Prop :=
  m.Pairwise (fun x y => x.1 < y.1) ∧ ∀ c ∈ m, c.2 ≠ Memory.unlisted

/-- Every listed index lies below `n`. -/
abbrev Memory.below (m : Memory) (n : Nat) : Prop := ∀ c ∈ m, c.1 < n

/-- `DMEM[a]`. -/
def Memory.read : Memory → Nat → Byte
  | [], _ => Memory.unlisted
  | c :: m, a => if a = c.1 then c.2 else Memory.read m a

/-- The list with an entry for `a`, or with none where the value is what an unlisted index reads as. -/
def Memory.entry (a : Nat) (v : Byte) (m : Memory) : Memory := if v = Memory.unlisted then m else (a, v) :: m

/-- `DMEM[a] <- v`. -/
def Memory.write : Memory → Nat → Byte → Memory
  | [], a, v => Memory.entry a v []
  | c :: m, a, v =>
    if a < c.1 then Memory.entry a v (c :: m)
    else if a = c.1 then Memory.entry a v m
    else c :: Memory.write m a v

/-- `DMEM[a .. a+n)`. -/
def Memory.readBytes (m : Memory) : Nat → Nat → List Byte
  | _, 0 => []
  | a, n + 1 => Memory.read m a :: Memory.readBytes m (a + 1) n

/-- `DMEM[a + i] <- bs[i]` for every `i` below `len(bs)`. -/
def Memory.writeBytes (m : Memory) : Nat → List Byte → Memory
  | _, [] => m
  | a, b :: bs => Memory.writeBytes (Memory.write m a b) (a + 1) bs

end Sys2Proof.Machine
end

