-- ==== Sys2Proof/Machine/Operands.lean ====
section
/-! DEFINITION. Operands: the bytes and naturals a command reads (30 R95), and the registers of the host window with their
addresses and values (20 R61). -/

namespace Sys2Proof.Machine

/-- `DLEN` as a natural (10 R26). -/
def State.msgLen (s : State) : Nat := s.dlen.toNat

/-- The message `DMEM[0..DLEN)` (10 R36). -/
def State.message (s : State) : List Byte := s.dmem.readBytes 0 s.msgLen

/-- `DLEN <= DMEM_BYTES` (10 R26). -/
def State.msgFits (s : State) : Bool := decide (s.msgLen ≤ s.cfg.dmemBytes)

/-- `KEY[0..32)` as a byte string (10 R29). -/
def State.keyBytes (s : State) : List Byte := s.key.toList

/-- `W[0..60)` as a list (10 R31). -/
def State.schedule (s : State) : List Word := s.w.toList

/-- `NR` as a natural (10 R22). -/
def State.rounds (s : State) : Nat := s.status.nr.toNat

/-- The natural in a big-number register (10 R33). -/
def State.getBig (s : State) : BigReg → Nat
  | .ba => s.ba
  | .bb => s.bb
  | .bm => s.bm
  | .br => s.br
  | .bx => s.bx
  | .bY => s.bY

/-- The state with another natural in a big-number register. -/
def State.setBig (s : State) (b : BigReg) (v : Nat) : State :=
  match b with
  | .ba => { s with ba := v }
  | .bb => { s with bb := v }
  | .bm => { s with bm := v }
  | .br => { s with br := v }
  | .bx => { s with bx := v }
  | .bY => { s with bY := v }

/-- Limb `j` of a natural: bits `[32j+31 : 32j]` (10 R33, 20 R64). -/
def limb (n j : Nat) : Word := BitVec.ofNat 32 (n / 2 ^ (32 * j))

/-- The natural with another limb `j`; the other limbs stay (70 R358). -/
def setLimb (n j : Nat) (v : Word) : Nat :=
  n / 2 ^ (32 * (j + 1)) * 2 ^ (32 * (j + 1)) + v.toNat * 2 ^ (32 * j) + n % 2 ^ (32 * j)

/-- Offset of a big-number window (20 R61). -/
def BigReg.base : BigReg → Nat
  | .ba => 0x1000
  | .bb => 0x2000
  | .bm => 0x3000
  | .br => 0x4000
  | .bx => 0x5000
  | .bY => 0x6000

/-- Offset of a register in the host window (20 R61). -/
def Reg.offset : Reg → Nat
  | .ctrl => 0x0000
  | .status => 0x0004
  | .cmd => 0x0008
  | .kbits => 0x000C
  | .keylen => 0x0010
  | .dlen => 0x0014
  | .ntbits => 0x0018
  | .ntrounds => 0x001C
  | .key j => 0x0020 + 4 * j
  | .blk c => 0x0040 + 4 * c
  | .w i => 0x0100 + 4 * i
  | .big b j => b.base + 4 * j
  | .dmem k => 0x8000 + 4 * k

/-- Which registers exist under the parameters (20 R61). -/
def Reg.mapped (c : Config) : Reg → Bool
  | .ctrl | .status | .cmd | .kbits | .keylen | .dlen | .ntbits | .ntrounds => true
  | .key j => decide (j < 8)
  | .blk j => decide (j < 4)
  | .w i => decide (i < 60)
  | .big _ j => decide (j < c.bnBits / 32)
  | .dmem k => decide (k < c.dmemBytes / 4)

/-- The register a window would hold at an offset, before the check that it exists (20 R61). -/
def regWindow (off : Nat) : Option Reg :=
  if off < 0x0020 then [Reg.ctrl, .status, .cmd, .kbits, .keylen, .dlen, .ntbits, .ntrounds][off / 4]?
  else if off < 0x0040 then some (.key ((off - 0x0020) / 4))
  else if off < 0x0100 then some (.blk ((off - 0x0040) / 4))
  else if off < 0x1000 then some (.w ((off - 0x0100) / 4))
  else if off < 0x2000 then some (.big .ba ((off - 0x1000) / 4))
  else if off < 0x3000 then some (.big .bb ((off - 0x2000) / 4))
  else if off < 0x4000 then some (.big .bm ((off - 0x3000) / 4))
  else if off < 0x5000 then some (.big .br ((off - 0x4000) / 4))
  else if off < 0x6000 then some (.big .bx ((off - 0x5000) / 4))
  else if off < 0x7000 then some (.big .bY ((off - 0x6000) / 4))
  else if off < 0x8000 then none
  else some (.dmem ((off - 0x8000) / 4))

/-- The register at an aligned offset, `none` where the offset is unmapped (20 R61). -/
def regAt (c : Config) (off : Nat) : Option Reg :=
  match regWindow off with
  | some r => if r.mapped c then some r else none
  | none => none

/-- Word `k` of `DMEM` as the bus shows it (10 R35, 20 R63). -/
def Memory.word (m : Memory) (k : Nat) : Word :=
  beWord (m.read (4 * k)) (m.read (4 * k + 1)) (m.read (4 * k + 2)) (m.read (4 * k + 3))

/-- `DMEM` after the bus writes word `k` (10 R35, 20 R63). -/
def Memory.setWord (m : Memory) (k : Nat) (v : Word) : Memory :=
  m.writeBytes (4 * k) [wordByte v 0, wordByte v 1, wordByte v 2, wordByte v 3]

/-- The word a register reads as on an idle block (10 R21 to R35). -/
def State.readReg (s : State) : Reg → Word
  | .ctrl => 0
  | .status => s.status.toWord
  | .cmd => 0
  | .kbits => s.kbits.setWidth 32
  | .keylen => s.keylen.setWidth 32
  | .dlen => s.dlen
  | .ntbits => s.ntbits
  | .ntrounds => s.ntrounds.setWidth 32
  | .key j => bufWord s.key j
  | .blk c => bufWord s.blk c
  | .w i => s.w[i]?.getD 0
  | .big b j => limb (s.getBig b) j
  | .dmem k => s.dmem.word k

/-- The state after an idle block stores a word in a register that only stores: reserved bits dropped (20 R67, R70).
`CTRL`, `STATUS`, `CMD` act instead (Port.lean), `W` is read-only; none of the four is changed here. -/
def State.storeReg (s : State) (r : Reg) (v : Word) : State :=
  match r with
  | .ctrl | .status | .cmd | .w _ => s
  | .kbits => { s with kbits := v.setWidth 16 }
  | .keylen => { s with keylen := v.setWidth 8 }
  | .dlen => { s with dlen := v }
  | .ntbits => { s with ntbits := v }
  | .ntrounds => { s with ntrounds := v.setWidth 8 }
  | .key j => { s with key := setBufWord s.key j v }
  | .blk c => { s with blk := setBufWord s.blk c v }
  | .big b j => s.setBig b (setLimb (s.getBig b) j v)
  | .dmem k => { s with dmem := s.dmem.setWord k v }

end Sys2Proof.Machine
end

