-- ==== Sys2Proof/Machine/Random.lean ====
section
/-! DEFINITION. Draws from the random source (44 R220). -/

namespace Sys2Proof.Machine

/-- The source's next answer and the source after it: the scripted answers first, then the free ones (log 2). "a byte is
never used twice". -/
def Rng.next (g : Rng) : Option Byte × Rng :=
  match g.script with
  | a :: rest => (a, { g with script := rest })
  | [] => (Config.freeRandom g.used, { g with used := g.used + 1 })

/-- `RngDraw(k)`: `k` bytes in the order drawn, or `none` for `RngFail`. What was taken stays taken, after a failure too
(60 R311). -/
def Rng.draw : Nat → Rng → Option (List Byte) × Rng
  | 0, g => (some [], g)
  | k + 1, g =>
    match g.next with
    | (none, g') => (none, g')
    | (some b, g') =>
      match Rng.draw k g' with
      | (none, g'') => (none, g'')
      | (some bs, g'') => (some (b :: bs), g'')

end Sys2Proof.Machine
end

