-- ==== Sys2Proof/Machine/Ops.lean ====
section
/-! DEFINITION. The operations every command shares: the start step, the completion step with and without an error, abort
and reset (10 R23, 30 R96, 60 R311, 60 R317, 70 R350). -/

namespace Sys2Proof.Machine

/-- The answer of a meaning. -/
abbrev Result := Host.Outcome State Fault Refusal

/-- The start step: `OPLATCH <- ` the written word, `BUSY <- 1`, `DONE <- 0`, `ERR <- 0` (10 R23), from `SRCH = searching p`
(10 R37). -/
def State.start (s : State) (c : Word) : State :=
  { s with oplatch := c, status := s.status.started, srch := .searchingP }

/-- `BUSY <- 0`, `DONE <- 1`, `ERR <- code(e)`, with the search emptied (60 R311, log 7). -/
def State.endWith (s : State) (e : ErrCode) : State :=
  { s with status := s.status.ended e, srch := .searchingP }

/-- The completion step of a command that ends without error; `s` already holds the command's writes (00 R12, 30 R96). -/
def complete (s : State) : Result := .next (s.endWith .noError)

/-- `raise e`: the completion step of a command that ends with an error. `s` is the state at the start step, so that none of
the command's writes is applied; only the draws it consumed are gone from it (60 R311). -/
def raise (e : ErrCode) (s : State) : Result := .next (s.endWith e)

/-- A search step that leaves the command running (44 R230). -/
def continueSearch (s : State) (p : Search) (g : Rng) : Result := .next { s with srch := p, rng := g }

/-- The state with the random source after a command's draws. -/
def State.afterDraws (s : State) (g : Rng) : State := { s with rng := g }

/-- `CTRL.ABORT` while a command runs: it ends at once with `Aborted`, nothing committed, the search emptied (60 R317). -/
def State.abort (s : State) : State := s.endWith .aborted

/-- A reset: every piece of state at its reset value (10 R41, 70 R350). What is outside the block stays: the parameters, the
host, and the random source, which "is not reset by the block" (log 21). -/
def State.doReset (s : State) : State :=
  { State.resetWith s.cfg with rng := s.rng, events := s.events, replies := s.replies }

/-- The sticky flag of a refused access (20 R71). -/
def State.setBav (s : State) : State := { s with status := { s.status with bav := true } }

/-- The command word being executed: the command the engine fetches (10 R37, 20 R76). -/
def State.fetch (s : State) : Word := s.oplatch

end Sys2Proof.Machine
end

