-- ==== Sys2Proof/Machine/KeySchedule.lean ====
section
/-! DEFINITION. Unit U1, key expansion: the functions of spec 41 and the commands KEXP and RKEY. -/

namespace Sys2Proof.Machine

/-- `KBITS` is in {128, 192, 256} (00 R7). -/
def legalKeyBits (kbits : Nat) : Bool := kbits == 128 || kbits == 192 || kbits == 256

/-- `CheckKeySize(kbits, keylen)`: `(Nk, Nr)` or `InvalidKeySize` (41 R130). -/
def checkKeySize (kbits keylen : Nat) : Except ErrCode (Nat × Nat) :=
  if keylen * 8 ≠ kbits then .error .invalidKeySize
  else if !legalKeyBits kbits then .error .invalidKeySize
  else .ok (kbits / 32, kbits / 32 + 6)

/-- The first `Nk` words of the schedule: the key bytes, four to a word (41 R132). -/
def seedWords (key : List Byte) : Nat → List Word
  | 0 => []
  | i + 1 =>
    seedWords key i ++
      [beWord (key.getD (4 * i) 0) (key.getD (4 * i + 1) 0) (key.getD (4 * i + 2) 0) (key.getD (4 * i + 3) 0)]

/-- The working word `temp` of word index `i`, from the word before it (41 R133). -/
def scheduleTemp (nk i : Nat) (prev : Word) : Word :=
  if i % nk = 0 then subWord (rotWord prev) ^^^ ((rcon (i / nk)).setWidth 32 <<< 24)
  else if 6 < nk ∧ i % nk = 4 then subWord prev
  else prev

/-- Word `i` of the schedule, where `ws` holds the words before it (41 R133). -/
def scheduleWord (nk : Nat) (ws : List Word) (i : Nat) : Word :=
  ws.getD (i - nk) 0 ^^^ scheduleTemp nk i (ws.getD (i - 1) 0)

/-- The loop of `ExpandKey` (41 R133): `n` more words after those of `ws`. -/
def expandLoop (nk : Nat) : Nat → List Word → List Word
  | 0, ws => ws
  | n + 1, ws => expandLoop nk n (ws ++ [scheduleWord nk ws ws.length])

/-- `ExpandKey(key, Nk, Nr)`, `4*(Nr+1)` words (41 R133). -/
def expandKey (key : List Byte) (nk nr : Nat) : List Word :=
  expandLoop nk (4 * (nr + 1) - nk) (seedWords key nk)

/-- `W` with a schedule and zeros in the unused tail (41 R134). -/
def scheduleReg (ws : List Word) : Vector Word 60 := Vector.ofFn fun i => ws.getD i.val 0

/-- KEXP, expand key (41 R134). -/
def execKexp (s : State) : Result :=
  match checkKeySize s.kbits.toNat s.keylen.toNat with
  | .error e => raise e s
  | .ok (nk, nr) =>
    complete { s with
      w := scheduleReg (expandKey (s.keyBytes.take (4 * nk)) nk nr)
      status := s.status.setSchedule nr }

/-- RKEY, random key (41 R136). -/
def execRkey (s : State) : Result :=
  if !legalKeyBits s.kbits.toNat then raise .invalidKeySize s
  else
    match s.rng.draw (s.kbits.toNat / 8) with
    | (none, g) => raise .randomSourceFailed (s.afterDraws g)
    | (some bytes, g) =>
      complete { s.afterDraws g with
        key := bufOfList 32 bytes
        keylen := BitVec.ofNat 8 (s.kbits.toNat / 8) }

end Sys2Proof.Machine
end

