-- ==== Sys2Proof/Machine/Rounds.lean ====
section
/-! DEFINITION. Unit U2, the round pipeline: round steps and single-block transforms (spec 42), the commands ARK, SUBB,
SHROW, MIXC, ISUBB, ISHROW, IMIXC, ENCB, DECB. The byte at column `c`, row `r` of the State is at index `4c + r` (20 R65). -/

namespace Sys2Proof.Machine

/-- The spec's State: sixteen bytes (10 R30). -/
abbrev Block := Vector Byte 16

/-- `s[4c + r]`, the byte at column `c`, row `r` (20 R65). -/
def cell (s : Block) (c r : Nat) : Byte := s[4 * c + r]?.getD 0

/-- The block whose byte at column `c`, row `r` is `f c r`. -/
def blockOf (f : Nat → Nat → Byte) : Block := Vector.ofFn fun i => f (i.val / 4) (i.val % 4)

/-- Byte `r` of word `4*rnd + c` of a schedule (20 R66), 0 past its end (log 12). -/
def roundKeyByte (w : List Word) (rnd c r : Nat) : Byte := wordByte (w.getD (4 * rnd + c) 0) r

/-- `AddRoundKey(s, w, rnd)` (42 R150). -/
def addRoundKey (w : List Word) (rnd : Nat) (s : Block) : Block :=
  blockOf fun c r => cell s c r ^^^ roundKeyByte w rnd c r

/-- `SubBytes(s)` (42 R152). -/
def subBytes (s : Block) : Block := blockOf fun c r => sbox (cell s c r)

/-- `ShiftRows(s)`: row `r` cyclically left by `r` (42 R153). -/
def shiftRows (s : Block) : Block := blockOf fun c r => cell s ((c + r) % 4) r

/-- Each column times a circulant matrix: `t[4c+r] = XOR over j of GFMul(s[4c+j], M[r][j])` (42 R154, R157). -/
def matColumns (m : List Byte) (s : Block) : Block :=
  blockOf fun c r =>
    gfMul (cell s c 0) (circulant m r 0) ^^^ gfMul (cell s c 1) (circulant m r 1) ^^^
      gfMul (cell s c 2) (circulant m r 2) ^^^ gfMul (cell s c 3) (circulant m r 3)

/-- `MixColumns(s)` (42 R154). -/
def mixColumns (s : Block) : Block := matColumns mixRow s

/-- `InvSubBytes(s)` (42 R155). -/
def invSubBytes (s : Block) : Block := blockOf fun c r => isbox (cell s c r)

/-- `InvShiftRows(s)`: row `r` cyclically right by `r` (42 R156). -/
def invShiftRows (s : Block) : Block := blockOf fun c r => cell s ((c + 4 - r) % 4) r

/-- `InvMixColumns(s)` (42 R157). -/
def invMixColumns (s : Block) : Block := matColumns invMixRow s

/-- One of the rounds `1 .. Nr-1` of encryption (42 R158). -/
def encRound (w : List Word) (s : Block) (rnd : Nat) : Block :=
  addRoundKey w rnd (mixColumns (shiftRows (subBytes s)))

/-- `EncryptBlock(in, w, Nr)` (42 R158). -/
def encryptBlock (w : List Word) (nr : Nat) (s : Block) : Block :=
  addRoundKey w nr (shiftRows (subBytes ((List.range' 1 (nr - 1)).foldl (encRound w) (addRoundKey w 0 s))))

/-- One of the rounds `Nr-1 .. 1` of decryption (42 R160). -/
def decRound (w : List Word) (s : Block) (rnd : Nat) : Block :=
  invMixColumns (addRoundKey w rnd (invSubBytes (invShiftRows s)))

/-- `DecryptBlock(in, w, Nr)` (42 R160). -/
def decryptBlock (w : List Word) (nr : Nat) (s : Block) : Block :=
  addRoundKey w 0 (invSubBytes (invShiftRows ((List.range' 1 (nr - 1)).reverse.foldl (decRound w) (addRoundKey w nr s))))

/-- The completion step of a command that writes `S` alone. -/
def completeBlock (s : State) (b : Block) : Result := complete { s with blk := b }

/-- ARK, AddRoundKey with round `rnd` (42 R151). -/
def execArk (rnd : Nat) (s : State) : Result :=
  if !s.status.kvalid then raise .keyScheduleInvalid s
  else if s.rounds < rnd then raise .invalidOperand s
  else completeBlock s (addRoundKey s.schedule rnd s.blk)

/-- SUBB, SubBytes (42 R152). -/
def execSubb (s : State) : Result := completeBlock s (subBytes s.blk)

/-- SHROW, ShiftRows (42 R153). -/
def execShrow (s : State) : Result := completeBlock s (shiftRows s.blk)

/-- MIXC, MixColumns (42 R154). -/
def execMixc (s : State) : Result := completeBlock s (mixColumns s.blk)

/-- ISUBB, inverse SubBytes (42 R155). -/
def execIsubb (s : State) : Result := completeBlock s (invSubBytes s.blk)

/-- ISHROW, inverse ShiftRows (42 R156). -/
def execIshrow (s : State) : Result := completeBlock s (invShiftRows s.blk)

/-- IMIXC, inverse MixColumns (42 R157). -/
def execImixc (s : State) : Result := completeBlock s (invMixColumns s.blk)

/-- ENCB, encrypt block (42 R159). -/
def execEncb (s : State) : Result :=
  if !s.status.kvalid then raise .keyScheduleInvalid s
  else completeBlock s (encryptBlock s.schedule s.rounds s.blk)

/-- DECB, decrypt block (42 R161). -/
def execDecb (s : State) : Result :=
  if !s.status.kvalid then raise .keyScheduleInvalid s
  else completeBlock s (decryptBlock s.schedule s.rounds s.blk)

end Sys2Proof.Machine
end

