-- ==== Sys2Proof/Machine/Message.lean ====
section
/-! DEFINITION. Unit U3, the message sequencer: padding and message-level transforms (spec 43), the commands PAD, UNPAD,
ENCM, DECM. -/

namespace Sys2Proof.Machine

/-- How many bytes padding adds to a string of length `len`, 1 to 16 (43 R190). -/
def padCount (len : Nat) : Nat := 16 - len % 16

/-- The pad of a string of length `len` (43 R190). -/
def padBytes (len : Nat) : List Byte := List.replicate (padCount len) (BitVec.ofNat 8 (padCount len))

/-- `ApplyPadding(b)` (43 R190). -/
def applyPadding (b : List Byte) : List Byte := b ++ padBytes b.length

/-- `RemovePadding(b)` (43 R192). -/
def removePadding (b : List Byte) : Except ErrCode (List Byte) :=
  match b.getLast? with
  | none => .error .invalidPadding
  | some last =>
    let n := last.toNat
    if n = 0 ∨ 16 < n ∨ b.length < n then .error .invalidPadding
    else if (b.drop (b.length - n)).all (fun x => x == last) then .ok (b.take (b.length - n))
    else .error .invalidPadding

/-- A block transform on `n` successive 16-byte blocks of a string (20 R77). -/
def mapBlocks (f : Block → Block) : Nat → List Byte → List Byte
  | 0, _ => []
  | n + 1, b => (f (bufOfList 16 (b.take 16))).toList ++ mapBlocks f n (b.drop 16)

/-- `EncryptMessage(m, key, kbits, keylen)` (43 R194). -/
def encryptMessage (m key : List Byte) (kbits keylen : Nat) : Except ErrCode (List Byte) :=
  match checkKeySize kbits keylen with
  | .error e => .error e
  | .ok (nk, nr) =>
    let p := applyPadding m
    let w := expandKey (key.take (4 * nk)) nk nr
    .ok (mapBlocks (encryptBlock w nr) (p.length / 16) p)

/-- `DecryptMessage(c, key, kbits, keylen)`: the padded plaintext and the message (43 R196). -/
def decryptMessage (c key : List Byte) (kbits keylen : Nat) : Except ErrCode (List Byte × List Byte) :=
  if c.length % 16 ≠ 0 then .error .invalidCiphertextLength
  else
    match checkKeySize kbits keylen with
    | .error e => .error e
    | .ok (nk, nr) =>
      let w := expandKey (key.take (4 * nk)) nk nr
      let p := mapBlocks (decryptBlock w nr) (c.length / 16) c
      match removePadding p with
      | .error e => .error e
      | .ok m => .ok (p, m)

/-- The state whose message is of length `len`. -/
def State.withLen (s : State) (len : Nat) : State := { s with dlen := BitVec.ofNat 32 len }

/-- PAD (43 R191). -/
def execPad (s : State) : Result :=
  if !s.msgFits then raise .capacityExceeded s
  else if s.cfg.dmemBytes < s.msgLen + padCount s.msgLen then raise .capacityExceeded s
  else
    complete ({ s with dmem := s.dmem.writeBytes s.msgLen (padBytes s.msgLen) }.withLen
      (s.msgLen + padCount s.msgLen))

/-- UNPAD (43 R193). -/
def execUnpad (s : State) : Result :=
  if !s.msgFits then raise .capacityExceeded s
  else
    match removePadding s.message with
    | .error e => raise e s
    | .ok p => complete (s.withLen p.length)

/-- ENCM, encrypt message (43 R195). -/
def execEncm (s : State) : Result :=
  if !s.msgFits then raise .capacityExceeded s
  else if s.cfg.dmemBytes < s.msgLen + padCount s.msgLen then raise .capacityExceeded s
  else
    match encryptMessage s.message s.keyBytes s.kbits.toNat s.keylen.toNat with
    | .error e => raise e s
    | .ok c => complete ({ s with dmem := s.dmem.writeBytes 0 c }.withLen c.length)

/-- DECM, decrypt message (43 R197). -/
def execDecm (s : State) : Result :=
  if !s.msgFits then raise .capacityExceeded s
  else
    match decryptMessage s.message s.keyBytes s.kbits.toNat s.keylen.toNat with
    | .error e => raise e s
    | .ok (p, m) => complete ({ s with dmem := s.dmem.writeBytes 0 p }.withLen m.length)

end Sys2Proof.Machine
end

