-- ==== Sys2Proof/Machine/NumberTheory.lean ====
section
/-! DEFINITION. Unit U4, number theory (spec 44): extended Euclid, modular inverse, modular exponentiation (45 R260, which
the primality test needs), the primality test, prime search; the commands EGCD, MINV, PTST, PGEN. -/

namespace Sys2Proof.Machine

/-- The loop of `ExtEuclid` (44 R221). The remainder `r1` strictly decreases, so `r1 + 1` rounds of fuel are enough. -/
def euclidLoop : Nat → Nat → Nat → Int → Int → Int → Int → Nat × Int × Int
  | 0, r0, _, s0, _, t0, _ => (r0, s0, t0)
  | fuel + 1, r0, r1, s0, s1, t0, t1 =>
    if r1 = 0 then (r0, s0, t0)
    else euclidLoop fuel r1 (r0 - r0 / r1 * r1) s1 (s0 - (r0 / r1 : Nat) * s1) t1 (t0 - (r0 / r1 : Nat) * t1)

/-- `ExtEuclid(a, b) = (g, x, y)` (44 R221). -/
def extEuclid (a b : Nat) : Nat × Int × Int := euclidLoop (b + 1) a b 1 0 0 1

/-- `ModInverse(a, n)`, in `[0, n)` (44 R223). -/
def modInverse (a n : Nat) : Except ErrCode Nat :=
  match extEuclid a n with
  | (g, x, _) => if g = 1 then .ok (x % (n : Int)).toNat else .error .noInverseExists

/-- The loop of `ModExp` (45 R260) over the exponent bits below `i`, most significant first. -/
def modExpLoop (b e m : Nat) : Nat → Nat → Nat
  | 0, r => r
  | i + 1, r => modExpLoop b e m i (if e.testBit i then r * r % m * b % m else r * r % m)

/-- `ModExp(b, e, m)` (45 R260). -/
def modExp (b e m : Nat) : Nat := modExpLoop b e m (bitLen e) (1 % m)

/-- `(s, d)` with `m = 2^s * d`, halving at most `fuel` times: `d` is odd where `m` is not 0 and `fuel` its bit length
(44 R225). -/
def twoPart : Nat → Nat → Nat × Nat
  | 0, m => (0, m)
  | fuel + 1, m => if m % 2 = 0 then ((twoPart fuel (m / 2)).1 + 1, (twoPart fuel (m / 2)).2) else (0, m)

/-- The inner loop of a Miller-Rabin round: does one of `k` squarings of `x` give `n - 1` (44 R225). -/
def squaringsHit (n : Nat) : Nat → Nat → Bool
  | 0, _ => false
  | k + 1, x => if x * x % n = n - 1 then true else squaringsHit n k (x * x % n)

/-- One round of the test with base `a`: `false` says composite (44 R225). -/
def millerRabinRound (n s d a : Nat) : Bool :=
  modExp a d n == 1 || modExp a d n == n - 1 || squaringsHit n (s - 1) (modExp a d n)

/-- The base of a round from the bytes drawn, `2 <= a <= n - 2` (44 R225). -/
def drawnBase (n : Nat) (bytes : List Byte) : Nat := 2 + beInt bytes % (n - 3)

/-- The rounds of the test, one draw each (44 R225); `none` is `RngFail`. -/
def millerRabin (n s d k : Nat) : Nat → Rng → Option Bool × Rng
  | 0, g => (some true, g)
  | r + 1, g =>
    match g.draw k with
    | (none, g') => (none, g')
    | (some bytes, g') =>
      if millerRabinRound n s d (drawnBase n bytes) then millerRabin n s d k r g' else (some false, g')

/-- `ProbablyPrime(n, rounds)` (44 R225; log 20); `none` is `RngFail`. -/
def probablyPrime (n rounds : Nat) (g : Rng) : Option Bool × Rng :=
  if n < 2 then (some false, g)
  else if n = 2 ∨ n = 3 then (some true, g)
  else if n % 2 = 0 then (some false, g)
  else millerRabin n (twoPart (bitLen n) (n - 1)).1 (twoPart (bitLen n) (n - 1)).2 (bytesFor (bitLen n)) rounds g

/-- The candidate from the bytes drawn: the low `bits` bits with the top bit forced (44 R228). -/
def candidateOf (bits : Nat) (bytes : List Byte) : Nat := beInt bytes % 2 ^ bits ||| 2 ^ (bits - 1)

/-- `DrawCandidate(bits)` (44 R228). -/
def drawCandidate (bits : Nat) (g : Rng) : Option Nat × Rng :=
  match g.draw (bytesFor bits) with
  | (none, g') => (none, g')
  | (some bytes, g') => (some (candidateOf bits bytes), g')

/-- What one search step finds (44 R229, R230). -/
inductive Candidate where
  | rejected
  | accepted (v : Nat)
  | failed
deriving DecidableEq, Repr

/-- One iteration of the prime search: draw a candidate and test it (44 R229, R230). -/
def searchOnce (bits rounds : Nat) (g : Rng) : Candidate × Rng :=
  match drawCandidate bits g with
  | (none, g') => (.failed, g')
  | (some v, g') =>
    match probablyPrime v rounds g' with
    | (none, g'') => (.failed, g'')
    | (some true, g'') => (.accepted v, g'')
    | (some false, g'') => (.rejected, g'')

/-- A search step (44 R230): the progress becomes `hit v` for an accepted `v`, stays for a rejected one, and enables the
failing completion for a failed draw. -/
def searchStep (hit : Nat → Search) (s : State) : Result :=
  match searchOnce s.ntbits.toNat s.ntrounds.toNat s.rng with
  | (.rejected, g) => continueSearch s s.srch g
  | (.accepted v, g) => continueSearch s (hit v) g
  | (.failed, g) => continueSearch s .drawFailed g

/-- EGCD (44 R222). -/
def execEgcd (s : State) : Result :=
  match extEuclid s.ba s.bb with
  | (g, x, y) => complete { s with br := g, bx := x.natAbs, bY := y.natAbs, status := s.status.setSigns x y }

/-- MINV (44 R224). -/
def execMinv (s : State) : Result :=
  if s.bm = 0 then raise .invalidOperand s
  else
    match modInverse s.ba s.bm with
    | .error e => raise e s
    | .ok v => complete { s with br := v }

/-- PTST (44 R227). -/
def execPtst (s : State) : Result :=
  match probablyPrime s.ba s.ntrounds.toNat s.rng with
  | (none, g) => raise .randomSourceFailed (s.afterDraws g)
  | (some v, g) => complete { s.afterDraws g with status := s.status.setPrime v }

/-- PGEN, one engine step of it: a check that fails ends it, a recorded prime or a failed draw ends it, else it searches on
(44 R229, R230; logs 8, 25). -/
def execPgen (s : State) : Result :=
  if s.ntbits = 0 then raise .invalidOperand s
  else if s.cfg.bnBits < s.ntbits.toNat then raise .capacityExceeded s
  else
    match s.srch with
    | .found v => complete { s with br := v }
    | .drawFailed => raise .primeGenerationFailed s
    | .searchingP => searchStep .found s
    | .searchingQ _ => searchStep .found s
    | .foundPair _ _ => searchStep .found s

end Sys2Proof.Machine
end

