-- ==== Sys2Proof/Machine/Rsa.lean ====
section
/-! DEFINITION. Unit U5, modular exponentiation and RSA (spec 45): the commands MEXP, KGEN, RENC, RDEC. -/

namespace Sys2Proof.Machine

/-- The fixed public exponent (00 R7). -/
def pubExp : Nat := 65537

/-- The completion step of KGEN, the primes known (45 R262, R263). -/
def finishKeyGen (p q : Nat) (s : State) : Result :=
  match modInverse pubExp ((p - 1) * (q - 1)) with
  | .error _ => raise .keyGenerationFailed s
  | .ok d => complete { s with bm := p * q, bb := pubExp, br := d }

/-- MEXP (45 R261). -/
def execMexp (s : State) : Result :=
  if s.bm = 0 then raise .invalidOperand s
  else complete { s with br := modExp s.ba s.bb s.bm }

/-- KGEN, one engine step of it: first the search for `p`, then the search for `q`, then the key (45 R262, R263; 44 R230;
logs 8, 25). -/
def execKgen (s : State) : Result :=
  if s.ntbits = 0 then raise .invalidOperand s
  else if s.cfg.bnBits < 2 * s.ntbits.toNat then raise .capacityExceeded s
  else
    match s.srch with
    | .foundPair p q => finishKeyGen p q s
    | .drawFailed => raise .primeGenerationFailed s
    | .searchingP => searchStep .searchingQ s
    | .searchingQ p => searchStep (.foundPair p) s
    | .found _ => searchStep .searchingQ s

/-- RENC, RSA scalar encrypt (45 R265). -/
def execRenc (s : State) : Result :=
  if !s.msgFits then raise .capacityExceeded s
  else if s.bm ≤ beInt s.message then raise .messageTooLarge s
  else complete { s with br := modExp (beInt s.message) s.bb s.bm }

/-- RDEC, RSA scalar decrypt (45 R266). -/
def execRdec (s : State) : Result :=
  if s.bm = 0 then raise .invalidOperand s
  else
    let r := modExp s.ba s.bb s.bm
    complete ({ s with br := r, dmem := s.dmem.writeBytes 0 (beBytes r) }.withLen (beBytes r).length)

end Sys2Proof.Machine
end

