-- ==== Sys2Proof/Machine/Port.lean ====
section
/-! DEFINITION. The host port (20 R60 to R71): `HostRead` and `HostWrite`. -/

namespace Sys2Proof.Machine

/-- The outcome of an access (20 R60): the port's answer and the state after it, or `BusError` with no state change
(20 R68). -/
inductive PortResult where
  | answered (r : Reply) (s : State)
  | busError (cause : BusCause)
deriving DecidableEq, Repr

/-- An access is one aligned 32-bit word (20 R62; log 17). -/
def alignedWord (off width : Nat) : Bool := width == 32 && off % 4 == 0

/-- `HostRead(off)` (20 R60): `STATUS` always, every other register 0 with `BAV` set while busy (20 R71; log 15), else its value
with no side effect (20 R69). -/
def hostRead (off width : Nat) (s : State) : PortResult :=
  if !alignedWord off width then .busError .misaligned
  else
    match regAt s.cfg off with
    | none => .busError .unmapped
    | some r =>
      if s.status.busy && r != .status then .answered (.word 0) s.setBav
      else .answered (.word (s.readReg r)) s

/-- A write to `CTRL` (10 R21): bit 0 resets, else bit 1 aborts a running command, other bits are ignored. -/
def writeCtrl (v : Word) (s : State) : State :=
  if v.getLsbD 0 then s.doReset
  else if v.getLsbD 1 && s.status.busy then s.abort
  else s

/-- A write to `STATUS` (10 R22): bit 6 set clears `BAV`; nothing else changes. -/
def writeStatus (v : Word) (s : State) : State :=
  if v.getLsbD 6 then { s with status := { s.status with bav := false } } else s

/-- A write to a register that is not read-only, under the busy rule (20 R70, R71). -/
def writeReg (r : Reg) (v : Word) (s : State) : State :=
  if r = .ctrl then writeCtrl v s
  else if r = .status then writeStatus v s
  else if s.status.busy then s.setBav
  else if r = .cmd then s.start v
  else s.storeReg r v

/-- `W0..W59`, the read-only registers (20 R68 (c)). -/
def Reg.readOnly : Reg → Bool
  | .w _ => true
  | .ctrl | .status | .cmd | .kbits | .keylen | .dlen | .ntbits | .ntrounds | .key _ | .blk _ | .big _ _
  | .dmem _ => false

/-- `HostWrite(off, v)` (20 R60). -/
def hostWrite (off width : Nat) (v : Word) (s : State) : PortResult :=
  if !alignedWord off width then .busError .misaligned
  else
    match regAt s.cfg off with
    | none => .busError .unmapped
    | some r => if r.readOnly then .busError .readOnly else .answered .ok (writeReg r v s)

/-- The step of a host access: the answer is recorded (log 4); a `BusError` is a refusal (20 R68, log 5). -/
def portStep : PortResult → Result
  | .answered r s => .next { s with replies := r :: s.replies }
  | .busError cause => .refused (.busError cause)

end Sys2Proof.Machine
end

