-- ==== Sys2Proof/Machine/Engine.lean ====
section
/-! DEFINITION. The engine's turn (00 R13, 30 R96) and what one step does with the next event. -/

namespace Sys2Proof.Machine

/-- One engine step of the command in `OPLATCH` (30 R96); an illegal word ends with `IllegalCommand` (30 R93). -/
def runCommand (s : State) : Result :=
  match decode s.fetch with
  | .ok i => exec i s
  | .error _ => raise .illegalCommand s

/-- The engine's turn: a step of the running command; an idle engine does nothing. -/
def engineTurn (s : State) : Result := if s.status.busy then runCommand s else .next s

/-- The next event's step (00 R13). Where no event is left the host is silent and the turn is the engine's (log 3). -/
def takeStep (s : State) : Result :=
  match s.events with
  | [] => engineTurn s
  | .engine :: es => engineTurn { s with events := es }
  | .hostRead off width :: es => portStep (hostRead off width { s with events := es })
  | .hostWrite off width v :: es => portStep (hostWrite off width v { s with events := es })
  | .hardReset :: es => .next ({ s with events := es } : State).doReset

/-- A command word started, with the next turn the engine's: what `HostWrite(CMD, c)` on an idle block leaves (10 R23), and
an engine turn before whatever else is to come (log 10). -/
def State.withCommand (s : State) (c : Word) : State := { s.start c with events := .engine :: s.events }

end Sys2Proof.Machine
end

