-- ==== Sys2Proof/Machine/Step.lean ====
section
/-! DEFINITION. The step of the machine, and the placing of one command where the next step fetches it. -/

namespace Sys2Proof.Machine

/-- One step of whichever agent is next (00 R13). -/
def step (s : State) : Host.Outcome State Fault Refusal := takeStep s

/-- The state in which the very next step runs the command word `w` of `nbits` bits (log 10). -/
def State.withFetchWord (s : State) (nbits w : Nat) : State := s.withCommand (tableWord nbits w)

end Sys2Proof.Machine
end

