-- ==== Sys2Proof/Machine/HostText.lean ====
section
/-! DEFINITION. The codec of the host (46 R291 to R293, R295): text and bytes, hex strings, decimal texts of numbers. Outside the
hardware (00 R4); what the source leaves open of it is an argument of the model (logs 19, 27, 28, 32, 33). -/

namespace Sys2Proof.Machine

/-- A text of the host. -/
abbrev Text := List Char

/-! ### Hex strings -/

/-- A hex digit of a number below 16, in lower or upper case. -/
def hexDigit (upper : Bool) (n : Nat) : Char :=
  (if upper then "0123456789ABCDEF" else "0123456789abcdef").toList.getD n '0'

/-- The hex digits of `n`, `k` of them, most significant first. -/
def hexDigits (upper : Bool) : Nat → Nat → Text
  | 0, _ => []
  | k + 1, n => hexDigit upper (n / 16 ^ k % 16) :: hexDigits upper k n

/-- The value of a hex digit, either case (46 R293). -/
def hexValue (c : Char) : Option Nat :=
  if '0' ≤ c ∧ c ≤ '9' then some (c.toNat - '0'.toNat)
  else if 'a' ≤ c ∧ c ≤ 'f' then some (c.toNat - 'a'.toNat + 10)
  else if 'A' ≤ c ∧ c ≤ 'F' then some (c.toNat - 'A'.toNat + 10)
  else none

/-- The value of a digit string continued from the digits before; `none` at a character that is no digit. -/
def hexFrom (acc : Nat) : Text → Option Nat
  | [] => some acc
  | c :: cs =>
    match hexValue c with
    | some v => hexFrom (16 * acc + v) cs
    | none => none

/-- The default of hex parsing: the empty string and other characters are malformed (46 R293). -/
def plainHex (t : Text) : Option Nat := if t = [] then none else hexFrom 0 t

/-- `HEX_FORMAT` (46 R292, R293), with the spec's default in each field. The four fields are the details R292 and R293 name as
open; that they are all that may differ is the model's choice (log 32). -/
structure HexFormat where
  /-- The case of the digits. -/
  upperCase : Bool := false
  /-- What stands before the digits. -/
  lead : Text := []
  /-- How many zeros stand before the digits of an integer, which has none of its own if it is 0. -/
  zeros : Nat → Nat := fun n => if n = 0 then 1 else 0
  /-- The integer a string stands for, `none` where it is malformed. -/
  parse : Text → Option Nat := plainHex

/-- Hex rendering (46 R292). -/
def HexFormat.render (h : HexFormat) (n : Nat) : Text :=
  h.lead ++ List.replicate (h.zeros n) '0' ++ hexDigits h.upperCase ((bitLen n + 3) / 4) n

/-! ### Decimal texts -/

/-- The exponent field of a floating-point number. That a number is a 64-bit pattern of IEEE 754 binary64 is the model's choice:
the spec gives no format (log 28). -/
def floatExp (x : BitVec 64) : Nat := (x.extractLsb' 52 11).toNat

/-- The fraction field. -/
def floatFrac (x : BitVec 64) : Nat := (x.extractLsb' 0 52).toNat

/-- The integer `m` of the magnitude `m * 2^scale`. -/
def floatMantissa (x : BitVec 64) : Nat := if floatExp x = 0 then floatFrac x else 2 ^ 52 + floatFrac x

/-- The power of 2 of the magnitude. -/
def floatScale (x : BitVec 64) : Int := (max (floatExp x) 1 : Nat) - 1075

/-- No number or an infinity. -/
def floatSpecial (x : BitVec 64) : Bool := floatExp x == 2047

/-- The magnitude of `n * 10^k` in the common unit of `decimalUnits` and `floatUnits`. -/
def decimalUnits (x : BitVec 64) (n : Nat) (k : Int) : Nat := n * 10 ^ k.toNat * 2 ^ (2 - floatScale x).toNat

/-- `q` quarters of the last binary place of `x` in the same unit. -/
def floatUnits (x : BitVec 64) (q : Nat) (k : Int) : Nat := q * 10 ^ (-k).toNat * 2 ^ (floatScale x - 2).toNat

/-- `n * 10^k` reads back as the magnitude of `x`: it lies between the midpoints to the neighbours, the midpoints included where
the mantissa is even (rounding to nearest, ties to even). -/
def readsBack (x : BitVec 64) (n : Nat) (k : Int) : Bool :=
  let m := floatMantissa x
  let low := if floatFrac x = 0 ∧ 1 < floatExp x then 4 * m - 1 else 4 * m - 2
  if m % 2 = 0 then
    decide (floatUnits x low k ≤ decimalUnits x n k ∧ decimalUnits x n k ≤ floatUnits x (4 * m + 2) k)
  else
    decide (floatUnits x low k < decimalUnits x n k ∧ decimalUnits x n k < floatUnits x (4 * m + 2) k)

/-- A multiple of `10^k` that reads back as the magnitude of `x`, if there is one: the nearer of the two around it, at a tie the
even one; the other where only that one reads back. The choice between them is the model's (log 28). -/
def decimalAt (x : BitVec 64) (k : Int) : Option Nat :=
  let unit := decimalUnits x 1 k
  let below := floatUnits x (4 * floatMantissa x) k / unit
  let rest := floatUnits x (4 * floatMantissa x) k % unit
  let up := decide (unit < 2 * rest) || (decide (unit = 2 * rest) && decide (below % 2 = 1))
  let nearer := if up then below + 1 else below
  let other := if up then below else below + 1
  if readsBack x nearer k then some nearer
  else if readsBack x other k then some other
  else none

/-- The first power of 10, from `10^k` down, a multiple of which reads back. -/
def decimalFrom (x : BitVec 64) : Nat → Int → Nat × Int
  | 0, _ => (0, 0)
  | fuel + 1, k =>
    match decimalAt x k with
    | some n => (n, k)
    | none => decimalFrom x fuel (k - 1)

/-- The shortest decimal `n * 10^k` that reads back as the magnitude of a finite number (46 R295): the greatest power of 10 has
the fewest digits. The largest finite magnitude is below `10^309`, and multiples of `10^-350` are finer than any spacing. -/
def shortestDecimal (x : BitVec 64) : Nat × Int :=
  if floatMantissa x = 0 then (0, 0) else decimalFrom x 660 309

/-- What 46 R295 leaves open of decimal texts: the sign, the exponent form, `NaN` and the infinities; and whether a whole
floating-point number has a tail such as `.0`. That these are all that may differ is the model's choice (log 33). -/
structure NumberFormat where
  /-- What stands before the magnitude of a negative integer. -/
  minus : Text
  /-- What stands before the magnitude of a floating-point number. -/
  floatSign : BitVec 64 → Text
  /-- Whether the magnitude `n * 10^k` is written with an exponent. -/
  usesExponent : Nat → Int → Bool
  /-- The text of an exponent. -/
  exponentText : Int → Text
  /-- What stands after a whole magnitude written without exponent. -/
  wholeTail : Text
  /-- The texts of `NaN` and the infinities. -/
  special : BitVec 64 → Text

/-- `decimal(i)` (46 R295): the decimal digits, none of them a leading zero, after the sign of a negative integer. -/
def NumberFormat.decimal (f : NumberFormat) (i : Int) : Text :=
  (if i < 0 then f.minus else []) ++ Nat.toDigits 10 i.natAbs

/-- Digits with the point after the first `n` of them, a zero before a point that would stand first. -/
def pointAfter (ds : Text) (n : Nat) : Text :=
  (if n = 0 then ['0'] else ds.take n) ++ (if ds.drop n = [] then [] else '.' :: ds.drop n)

/-- The text of the magnitude `n * 10^k`, with or without exponent (46 R295). -/
def NumberFormat.magnitude (f : NumberFormat) (n : Nat) (k : Int) : Text :=
  let ds := Nat.toDigits 10 n
  if f.usesExponent n k then pointAfter ds 1 ++ f.exponentText (k + (ds.length - 1 : Nat))
  else if 0 ≤ k then ds ++ List.replicate k.toNat '0' ++ f.wholeTail
  else pointAfter (List.replicate ((-k).toNat - ds.length) '0' ++ ds) (ds.length - (-k).toNat)

/-- `shortest_decimal(f)` (46 R295). -/
def NumberFormat.shortest (f : NumberFormat) (x : BitVec 64) : Text :=
  if floatSpecial x then f.special x
  else f.floatSign x ++ f.magnitude (shortestDecimal x).1 (shortestDecimal x).2

/-! ### The open parameters of a host -/

/-- What a host fixes. `TEXT_ENCODING` is the pair `toBytes`, `ofBytes` with the law that they are one encoding (46 R291). What
`ofBytes` gives for bytes that are no text of the encoding is not in the source: that it always gives a text and never an error
is the model's choice, and so is that every text has an encoding (log 27). -/
structure HostParams where
  toBytes : Text → List Byte
  ofBytes : List Byte → Text
  /-- "the same one in both directions" (46 R291). -/
  oneEncoding : ∀ t, ofBytes (toBytes t) = t
  hex : HexFormat := {}
  numbers : NumberFormat

/-- What is left of a text after RSA encryption and decryption: leading zero bytes are lost (45 R267, 46 R297). -/
def HostParams.survivingText (p : HostParams) (t : Text) : Text := p.ofBytes ((p.toBytes t).dropWhile (fun b => b == 0))

end Sys2Proof.Machine
end

