-- ==== Sys2Proof/Machine/HostSoftware.lean ====
section
/-! DEFINITION. The software around the block (46 R294 to R298), outside the hardware (00 R4) and recorded so that nothing the
spec says is lost: RSA on texts and the structural transform. `step` does not use it (log 19). -/

namespace Sys2Proof.Machine

/-- `RsaEncryptText(message, e, n)` (46 R298 (e), 45 R265), what `driveRsaEncrypt` gives for `e` and `n` below `2^BN_BITS`. Above
that the spec is silent (46 R298 (e) takes `n < 2^BN_BITS`): that this function uses them whole, where the driver cuts them, is the
model's choice (log 36). -/
def rsaEncryptText (p : HostParams) (e n : Nat) (t : Text) : Except ErrCode Text :=
  if n ≤ beInt (p.toBytes t) then .error .messageTooLarge
  else .ok (p.hex.render (modExp (beInt (p.toBytes t)) e n))

/-- `RsaDecryptText(hex, d, n)` (46 R298 (f), R293, 45 R266) with a block of `bnBits` bits, what `driveRsaDecrypt` gives for
`d` and `n` below `2^bnBits`. Above that the spec is silent: that this function uses them whole, where the driver cuts them, is the
model's choice (log 36). The decrypted bytes always become a text (log 27). -/
def rsaDecryptText (p : HostParams) (bnBits d n : Nat) (t : Text) : Except ErrCode Text :=
  match p.hex.parse t with
  | none => .error .invalidCiphertextEncoding
  | some c =>
    if 2 ^ bnBits ≤ c then .error .capacityExceeded
    else if n = 0 then .error .invalidOperand
    else .ok (p.ofBytes (beBytes (modExp c d n)))

/-- A Structural Value (46 R294); `other` stands for any other variant. The spec gives a floating-point number no format: that it
is a 64-bit pattern is the model's choice (log 28). A mapping is a list of pairs, in which a key could stand twice and the order
matters for equality: that form is the model's choice too (log 29). -/
inductive SValue where
  | str (t : Text)
  | int (i : Int)
  | float (f : BitVec 64)
  | seq (vs : List SValue)
  | map (kvs : List (Text × SValue))
  | other

/-- A result after another, or the error of the first that fails. The spec does not say which error ends the call where several
leaves fail: the first in list order is the model's choice (log 30). -/
def consResult {α β : Type} (f : α → List β → List β) (a : Except ErrCode α) (rest : Except ErrCode (List β)) :
    Except ErrCode (List β) :=
  match a, rest with
  | .error e, _ => .error e
  | .ok _, .error e => .error e
  | .ok v, .ok vs => .ok (f v vs)

mutual

/-- `EncryptStructure(value, e, n)` (46 R295). -/
def encryptStructure (p : HostParams) (e n : Nat) : SValue → Except ErrCode SValue
  | .str t => (rsaEncryptText p e n t).map .str
  | .int i => (rsaEncryptText p e n (p.numbers.decimal i)).map .str
  | .float f => (rsaEncryptText p e n (p.numbers.shortest f)).map .str
  | .seq vs => (encryptSeq p e n vs).map .seq
  | .map kvs => (encryptMap p e n kvs).map .map
  | .other => .error .unsupportedValueType

/-- The elements of a sequence, in order (46 R295), up to the first that fails (log 30). -/
def encryptSeq (p : HostParams) (e n : Nat) : List SValue → Except ErrCode (List SValue)
  | [] => .ok []
  | v :: vs => consResult List.cons (encryptStructure p e n v) (encryptSeq p e n vs)

/-- The values of a mapping, its keys unchanged (46 R295), up to the first that fails (log 30). -/
def encryptMap (p : HostParams) (e n : Nat) :
    List (Text × SValue) → Except ErrCode (List (Text × SValue))
  | [] => .ok []
  | (k, v) :: kvs => consResult (fun w ws => (k, w) :: ws) (encryptStructure p e n v) (encryptMap p e n kvs)

end

mutual

/-- `DecryptStructure(value, d, n)` (46 R296) with a block of `bnBits` bits: a numeric leaf is an error. -/
def decryptStructure (p : HostParams) (bnBits d n : Nat) : SValue → Except ErrCode SValue
  | .str t => (rsaDecryptText p bnBits d n t).map .str
  | .int _ => .error .unsupportedValueType
  | .float _ => .error .unsupportedValueType
  | .seq vs => (decryptSeq p bnBits d n vs).map .seq
  | .map kvs => (decryptMap p bnBits d n kvs).map .map
  | .other => .error .unsupportedValueType

/-- The elements of a sequence, in order (46 R296), up to the first that fails (log 30). -/
def decryptSeq (p : HostParams) (bnBits d n : Nat) : List SValue → Except ErrCode (List SValue)
  | [] => .ok []
  | v :: vs => consResult List.cons (decryptStructure p bnBits d n v) (decryptSeq p bnBits d n vs)

/-- The values of a mapping, its keys unchanged (46 R296), up to the first that fails (log 30). -/
def decryptMap (p : HostParams) (bnBits d n : Nat) : List (Text × SValue) → Except ErrCode (List (Text × SValue))
  | [] => .ok []
  | (k, v) :: kvs => consResult (fun w ws => (k, w) :: ws) (decryptStructure p bnBits d n v) (decryptMap p bnBits d n kvs)

end

mutual

/-- The value with each scalar leaf replaced by the text that comes back for it, a number by that of its decimal text: what an
encryption followed by a decryption leaves (46 R297), with the leading-zero loss of 45 R267. -/
def SValue.asTexts (p : HostParams) : SValue → SValue
  | .str t => .str (p.survivingText t)
  | .int i => .str (p.survivingText (p.numbers.decimal i))
  | .float f => .str (p.survivingText (p.numbers.shortest f))
  | .seq vs => .seq (seqAsTexts p vs)
  | .map kvs => .map (mapAsTexts p kvs)
  | .other => .other

/-- The elements of a sequence, in order, the length kept (46 R297). -/
def seqAsTexts (p : HostParams) : List SValue → List SValue
  | [] => []
  | v :: vs => v.asTexts p :: seqAsTexts p vs

/-- The values of a mapping, its keys kept (46 R297). -/
def mapAsTexts (p : HostParams) : List (Text × SValue) → List (Text × SValue)
  | [] => []
  | (k, v) :: kvs => (k, v.asTexts p) :: mapAsTexts p kvs

end

end Sys2Proof.Machine
end

