-- ==== Sys2Proof/Machine/Script.lean ====
section
/-! DEFINITION. The host script language (30 R98, R99) as port operations: lists of the events `step` reads. -/

namespace Sys2Proof.Machine

/-- A line of a host script (30 R98), with `wait` (30 R99; log 26): `wait polls turns` polls `STATUS` `polls` times in vain, lets the
engine have `turns` turns, and polls once more. How many of each a run has is not specified (70 R360). -/
inductive ScriptLine where
  | wr (r : Reg) (v : Word)
  | rd (r : Reg)
  | cmd (i : Instr)
  | rng (bytes : List Byte)
  | wait (polls turns : Nat)
deriving DecidableEq, Repr

/-- A poll of `STATUS`. -/
def pollStatus : Event := .hostRead Reg.status.offset 32

/-- The port operations of a line, with the engine's turns of a `wait` (30 R98, R99). -/
def ScriptLine.events : ScriptLine → List Event
  | .wr r v => [.hostWrite r.offset 32 v]
  | .rd r => [.hostRead r.offset 32]
  | .cmd i => [.hostWrite Reg.cmd.offset 32 (encode i)]
  | .rng _ => []
  | .wait polls turns => List.replicate polls pollStatus ++ List.replicate turns .engine ++ [pollStatus]

/-- What a line says of the random source (30 R98 `rng`), wherever in the script it stands (log 35). -/
def ScriptLine.draws : ScriptLine → List (Option Byte)
  | .rng bytes => bytes.map some
  | .wr _ _ | .rd _ | .cmd _ | .wait _ _ => []

/-- The state in which the host is to issue a script after what it is issuing already. The bytes of all `rng` lines are queued at
once, before the script's first access and behind the answers still there. 30 R98 says that a line's bytes answer "the following
draws", and not what becomes of answers left over or of a draw above the line: that order is the model's choice (log 35). -/
def State.withScript (s : State) (lines : List ScriptLine) : State :=
  { s with
    events := s.events ++ lines.flatMap ScriptLine.events
    rng := { s.rng with script := s.rng.script ++ lines.flatMap ScriptLine.draws } }

/-- Word `j` of a byte string, zero bytes past its end (30 R99 `ldkey`, `ldmsg`). -/
def stringWord (bs : List Byte) (j : Nat) : Word :=
  beWord (bs.getD (4 * j) 0) (bs.getD (4 * j + 1) 0) (bs.getD (4 * j + 2) 0) (bs.getD (4 * j + 3) 0)

/-- How many words hold `n` bytes: `ceil(n/4)`. -/
def wordsFor (n : Nat) : Nat := (n + 3) / 4

/-- `ldkey` (30 R99), for a string of at most 32 bytes; of a longer key the driver writes the first 32 bytes and
`KEYLEN = min(len, 255)` (46 R298 (a)); 46 R298 (g) is silent on such a key, and the same there is the model's choice (log 36). -/
def ldkey (key : List Byte) : List ScriptLine :=
  (List.range (wordsFor (min key.length 32))).map (fun j => .wr (.key j) (stringWord key j)) ++
    [.wr .keylen (BitVec.ofNat 32 (min key.length 255))]

/-- `ldblk` (30 R99). -/
def ldblk (b : List Byte) : List ScriptLine := (List.range 4).map fun c => .wr (.blk c) (stringWord b c)

/-- `rdblk` (30 R99). -/
def rdblk : List ScriptLine := (List.range 4).map fun c => .rd (.blk c)

/-- `ldmsg` (30 R99). -/
def ldmsg (m : List Byte) : List ScriptLine :=
  (List.range (wordsFor m.length)).map (fun k => .wr (.dmem k) (stringWord m k)) ++
    [.wr .dlen (BitVec.ofNat 32 m.length)]

/-- `rdmsg` (30 R99), where the read of `DLEN` gives `n`. -/
def rdmsg (n : Nat) : List ScriptLine := .rd .dlen :: (List.range (wordsFor n)).map fun k => .rd (.dmem k)

/-- `ldbn` (30 R99): every limb there is, so that high limbs are cleared and what is above them is cut. For the operands of 46 R298
the spec does not speak of such a natural: to load it cut is the model's choice (log 36). -/
def ldbn (c : Config) (b : BigReg) (n : Nat) : List ScriptLine :=
  (List.range (c.bnBits / 32)).map fun j => .wr (.big b j) (limb n j)

/-- `rdbn` (30 R99). -/
def rdbn (c : Config) (b : BigReg) : List ScriptLine := (List.range (c.bnBits / 32)).map fun j => .rd (.big b j)

/-- A natural as the word written to a control register: its low 32 bits. The spec says nothing of an operand of `2^32` or more;
the cut is the model's choice (log 36). -/
def wordOf (n : Nat) : Word := BitVec.ofNat 32 n

end Sys2Proof.Machine
end

