-- ==== Sys2Proof/Safety.lean ====
section
/-! DEFINITION. What counts as a safe state, and the terms the claims use: how a command ends, and what it leaves
unchanged. -/

namespace Sys2Proof.Machine

/-- The block is idle again and `ERR` holds `e` (60 R310, R311). -/
abbrev Ended (e : ErrCode) (t : State) : Prop :=
  t.status.busy = false ∧ t.status.done = true ∧ t.status.err = e

/-- The pieces of the architectural state a command may write (30 R95), and the random source. -/
inductive Part where
  | oplatch | kbits | keylen | key | blk | w | dlen | dmem | ntbits | ntrounds
  | ba | bb | bm | br | bx | bY
  | kvalid | nr | prime | xneg | yneg | bav
  | rng
deriving DecidableEq, Repr

/-- A piece of state is the same in both states; the data buffer byte by byte. -/
def Part.same (s t : State) : Part → Prop
  | .oplatch => t.oplatch = s.oplatch
  | .kbits => t.kbits = s.kbits
  | .keylen => t.keylen = s.keylen
  | .key => t.key = s.key
  | .blk => t.blk = s.blk
  | .w => t.w = s.w
  | .dlen => t.dlen = s.dlen
  | .dmem => ∀ a, t.dmem.read a = s.dmem.read a
  | .ntbits => t.ntbits = s.ntbits
  | .ntrounds => t.ntrounds = s.ntrounds
  | .ba => t.ba = s.ba
  | .bb => t.bb = s.bb
  | .bm => t.bm = s.bm
  | .br => t.br = s.br
  | .bx => t.bx = s.bx
  | .bY => t.bY = s.bY
  | .kvalid => t.status.kvalid = s.status.kvalid
  | .nr => t.status.nr = s.status.nr
  | .prime => t.status.prime = s.status.prime
  | .xneg => t.status.xneg = s.status.xneg
  | .yneg => t.status.yneg = s.status.yneg
  | .bav => t.status.bav = s.status.bav
  | .rng => t.rng = s.rng

/-- Everything but the listed pieces (and `BUSY`, `DONE`, `ERR`, `SRCH`, which the life of a command changes) is the same in
both states: the frame of a command. -/
def OnlyWrites (written : List Part) (s t : State) : Prop :=
  t.cfg = s.cfg ∧ t.events = s.events ∧ t.replies = s.replies ∧ ∀ p, p ∉ written → p.same s t

/-- `i` ends without error from `s` in a state with the property `P`, and writes only the listed pieces. -/
def CompletesWith (i : Instr) (s : State) (written : List Part) (P : State → Prop) : Prop :=
  ∃ t, exec i s = .next t ∧ Ended .noError t ∧ P t ∧ OnlyWrites written s t

/-- `i` ends with error `e` from `s`, and none of its writes is applied (60 R311). -/
def EndsInError (i : Instr) (s : State) (e : ErrCode) : Prop :=
  ∃ t, exec i s = .next t ∧ Ended e t ∧ OnlyWrites [] s t

/-- `i` ends with error `e` from `s` after draws: the random source alone has moved on (60 R311). -/
def EndsInErrorAfterDraws (i : Instr) (s : State) (e : ErrCode) : Prop :=
  ∃ t, exec i s = .next t ∧ Ended e t ∧ OnlyWrites [.rng] s t

/-- What a search step from `s` leaves in `t` (44 R229, R230), by the draw of a candidate at the random source of `s` and by the
test of that candidate at the source after the draw: a failed draw of either enables the failing completion, an accepted
candidate is recorded as `hit` says, a rejected one leaves the search as it was; the draws are consumed and nothing else moves. -/
def SearchOutcome (hit : Nat → Search) (s t : State) : Prop :=
  t.status = s.status ∧ OnlyWrites [.rng] s t ∧
  (∀ g, drawCandidate s.ntbits.toNat s.rng = (none, g) → t.srch = .drawFailed ∧ t.rng = g) ∧
  (∀ v g, drawCandidate s.ntbits.toNat s.rng = (some v, g) →
    bitLen v = s.ntbits.toNat ∧
    (∀ g', probablyPrime v s.ntrounds.toNat g = (none, g') → t.srch = .drawFailed ∧ t.rng = g') ∧
    (∀ g', probablyPrime v s.ntrounds.toNat g = (some true, g') → t.srch = hit v ∧ t.rng = g') ∧
    (∀ g', probablyPrime v s.ntrounds.toNat g = (some false, g') → t.srch = s.srch ∧ t.rng = g'))

/-- The next step is the engine's (00 R13; log 3). -/
abbrev EngineIsNext (s : State) : Prop := s.events = [] ∨ s.events.head? = some .engine

/-- The state with its next event taken off. -/
def State.takeTurn (s : State) : State := { s with events := s.events.tail }

/-- The state with the next access taken off and the port's answer to it recorded, nothing else changed. -/
def State.answered (s : State) (r : Reply) : State := { s with events := s.events.tail, replies := r :: s.replies }

/-- The next event is a host read. -/
abbrev HostReads (s : State) (off width : Nat) : Prop := s.events.head? = some (.hostRead off width)

/-- The next event is a host write. -/
abbrev HostWrites (s : State) (off width : Nat) (v : Word) : Prop := s.events.head? = some (.hostWrite off width v)

/-- The offsets of the address map (20 R61), aligned or not. -/
def MappedOffset (c : Config) (off : Nat) : Prop :=
  off < 0x0050 ∨ (0x0100 ≤ off ∧ off < 0x01F0) ∨
  (∃ k, 1 ≤ k ∧ k ≤ 6 ∧ 0x1000 * k ≤ off ∧ off < 0x1000 * k + c.bnBits / 8) ∨
  (0x8000 ≤ off ∧ off < 0x8000 + c.dmemBytes)

/-- The offsets of `W0..W59` (20 R61). -/
abbrev ScheduleOffset (off : Nat) : Prop := 0x0100 ≤ off ∧ off < 0x01F0

/-- The next event is a reset: the platform's, or a write to `CTRL` with bit 0 set (70 R350). -/
def ResetIsNext (s : State) : Prop :=
  s.events.head? = some .hardReset ∨ ∃ v, HostWrites s 0x0000 32 v ∧ v.getLsbD 0 = true

/-- Every piece of state has the value of 10 R41. -/
def ResetValues (t : State) : Prop :=
  t.status.busy = false ∧ t.status.done = false ∧ t.status.kvalid = false ∧ t.status.prime = false ∧
  t.status.xneg = false ∧ t.status.yneg = false ∧ t.status.bav = false ∧ t.status.nr = 0 ∧
  t.status.err.code = 0 ∧ t.oplatch = 0 ∧ t.kbits = 0 ∧ t.keylen = 0 ∧
  (∀ i (h : i < 32), t.key[i] = 0) ∧ (∀ i (h : i < 16), t.blk[i] = 0) ∧ (∀ i (h : i < 60), t.w[i] = 0) ∧
  t.dlen = 0 ∧ (∀ a, t.dmem.read a = 0) ∧ t.ntbits = 0 ∧ t.ntrounds = 10 ∧
  t.ba = 0 ∧ t.bb = 0 ∧ t.bm = 0 ∧ t.br = 0 ∧ t.bx = 0 ∧ t.bY = 0 ∧ t.srch = .searchingP

/-- Commands one after another, each from the state the one before left. -/
def runCommands : List Instr → State → Result
  | [], s => .next s
  | i :: is, s =>
    match exec i s with
    | .next t => runCommands is t
    | .fault f => .fault f
    | .refused r => .refused r

/-- The step commands of a block encryption with `nr` rounds (42 R159). -/
def encSteps (nr : Nat) : List Instr :=
  .ark 0 :: (List.range' 1 (nr - 1)).flatMap (fun rnd => [.subb, .shrow, .mixc, .ark rnd]) ++ [.subb, .shrow, .ark nr]

/-- The step commands of a block decryption with `nr` rounds (42 R161). -/
def decSteps (nr : Nat) : List Instr :=
  .ark nr :: (List.range' 1 (nr - 1)).reverse.flatMap (fun rnd => [.ishrow, .isubb, .ark rnd, .imixc]) ++
    [.ishrow, .isubb, .ark 0]

/-- The parts each command writes on success, and the random source where it draws (30 R95). -/
def writesOf : Instr → List Part
  | .kexp => [.w, .kvalid, .nr]
  | .rkey => [.key, .keylen, .rng]
  | .ark _ | .subb | .shrow | .mixc | .isubb | .ishrow | .imixc | .encb | .decb => [.blk]
  | .pad | .encm | .decm => [.dmem, .dlen]
  | .unpad => [.dlen]
  | .egcd => [.br, .bx, .bY, .xneg, .yneg]
  | .minv | .mexp | .renc => [.br]
  | .ptst => [.prime, .rng]
  | .pgen => [.br, .rng]
  | .kgen => [.bm, .bb, .br, .rng]
  | .rdec => [.br, .dmem, .dlen]

/-- The parts each command reads, and the random source where it draws (30 R95). -/
def readsOf : Instr → List Part
  | .kexp => [.kbits, .keylen, .key]
  | .rkey => [.kbits, .rng]
  | .ark _ | .encb | .decb => [.kvalid, .nr, .w, .blk]
  | .subb | .shrow | .mixc | .isubb | .ishrow | .imixc => [.blk]
  | .pad | .unpad => [.dlen, .dmem]
  | .encm | .decm => [.kbits, .keylen, .key, .dlen, .dmem]
  | .egcd => [.ba, .bb]
  | .minv => [.ba, .bm]
  | .ptst => [.ba, .ntrounds, .rng]
  | .pgen | .kgen => [.ntbits, .ntrounds, .rng]
  | .mexp => [.ba, .bb, .bm]
  | .renc => [.dlen, .dmem, .bb, .bm]
  | .rdec => [.ba, .bb, .bm]

/-- `KEYLEN*8 == KBITS` with `KBITS` in {128, 192, 256} (41 R130). -/
abbrev KeySizeOk (s : State) : Prop :=
  s.keylen.toNat * 8 = s.kbits.toNat ∧ (s.kbits.toNat = 128 ∨ s.kbits.toNat = 192 ∨ s.kbits.toNat = 256)

/-- `Nk` of the declared key size (41 R131). -/
def State.nk (s : State) : Nat := s.kbits.toNat / 32

/-- `ExpandKey` of the key in `KEY` (41 R133, R134). -/
def State.expanded (s : State) : List Word := expandKey (s.keyBytes.take (4 * s.nk)) s.nk (s.nk + 6)

/-- The length of the padded message: `DLEN + 16 - (DLEN mod 16)` (43 R195). -/
def State.paddedLen (s : State) : Nat := s.msgLen + 16 - s.msgLen % 16

/-- The pad of `DMEM[0..DLEN)` is valid and `n` bytes long (43 R192). -/
def ValidPad (s : State) (n : Nat) : Prop :=
  1 ≤ n ∧ n ≤ 16 ∧ n ≤ s.msgLen ∧ ∀ a, s.msgLen - n ≤ a → a < s.msgLen → (s.dmem.read a).toNat = n

/-- `W`, `KVALID` and `NR` agree (10 R32): either no schedule and zeros, or the zero-filled schedule of some key of a legal
size. -/
def ScheduleInv (s : State) : Prop :=
  if s.status.kvalid then
    ∃ (nk : Nat) (key : List Byte), (nk = 4 ∨ nk = 6 ∨ nk = 8) ∧ key.length = 4 * nk ∧
      s.rounds = nk + 6 ∧ s.w = scheduleReg (expandKey key nk (nk + 6))
  else s.status.nr = 0 ∧ s.w = Vector.replicate 60 0

/-- Every big-number register holds a natural below `2^BN_BITS` (10 R33). -/
def BigInv (s : State) : Prop := ∀ b, s.getBig b < 2 ^ s.cfg.bnBits

/-- `DMEM` is in canonical form and holds nothing at `DMEM_BYTES` and above (10 R35). -/
abbrev MemInv (s : State) : Prop := Memory.wf s.dmem ∧ Memory.below s.dmem s.cfg.dmemBytes

/-- A natural a prime search may have accepted: at least 2, of at most `bits` bits (44 R229). -/
abbrev PrimeRange (bits v : Nat) : Prop := 2 ≤ v ∧ v < 2 ^ bits

/-- The primes `SRCH` records are in range (10 R37, 44 R230). -/
def SearchInv (s : State) : Prop :=
  match s.srch with
  | .searchingP | .drawFailed => True
  | .searchingQ p => PrimeRange s.ntbits.toNat p
  | .found v => PrimeRange s.ntbits.toNat v
  | .foundPair p q => PrimeRange s.ntbits.toNat p ∧ PrimeRange s.ntbits.toNat q

/-- The life of a command (10 R22, R23, R37): while it runs `DONE = 0` and `ERR = 0`; while none runs nothing is searched. -/
def LifeInv (s : State) : Prop :=
  if s.status.busy then s.status.done = false ∧ s.status.err = .noError else s.srch = .searchingP

/-- The invariant of the machine: a safe state. -/
structure Inv (s : State) : Prop where
  config : s.cfg.Valid
  schedule : ScheduleInv s
  big : BigInv s
  mem : MemInv s
  search : SearchInv s
  life : LifeInv s

end Sys2Proof.Machine
end

