-- ==== Sys2Proof/Certificates/Slice0/Obligations.lean ====
section
/-! DEFINITION. The statements for the provers. -/

open Sys2Proof Sys2Proof.Machine

/-! ## Encoding -/

/-- 30 R92: a word selects ARK exactly when `c & 0xFFFF00FF == 0x10`, with the round in bits 15:8; it selects another command
exactly when it equals that command's `OP`; at most one command matches. -/
def Obligations.CommandWordSelectsByMaskAndMatch : Prop :=
  (∀ (c : Word) (r : Nat), decode c = .ok (.ark r) ↔
    c &&& 0xFFFF00FF = 0x00000010 ∧ r = (c.extractLsb' 8 8).toNat) ∧
  (∀ (c : Word) (i : Instr), (∀ r, i ≠ .ark r) →
    (decode c = .ok i ↔ c &&& 0xFFFFFFFF = i.op.setWidth 32)) ∧
  (∀ (c : Word) (i j : Instr), c &&& i.mask = i.pattern → c &&& j.mask = j.pattern → i.op = j.op)

/-- 30 R90, R92: every well-formed command comes back from its word, and a word that decodes is the word of a well-formed
command. -/
def Obligations.DecodeAndEncodeAgree : Prop :=
  (∀ i : Instr, i.wf = true → decode (encode i) = .ok i) ∧
  (∀ (c : Word) (i : Instr), decode c = .ok i → i.wf = true ∧ encode i = c)

/-- 30 R91: words of the opcode map written out from the spec's encoding, one of every family at least. -/
def Obligations.WordsOfTheOpcodeMapDecode : Prop :=
  decode 0x00000001 = .ok .kexp ∧ decode 0x00000002 = .ok .rkey ∧ decode 0x00000B10 = .ok (.ark 11) ∧
  decode 0x00000012 = .ok .shrow ∧ decode 0x00000017 = .ok .imixc ∧ decode 0x00000018 = .ok .encb ∧
  decode 0x00000021 = .ok .unpad ∧ decode 0x00000023 = .ok .decm ∧ decode 0x00000030 = .ok .egcd ∧
  decode 0x00000033 = .ok .pgen ∧ decode 0x00000041 = .ok .kgen ∧ decode 0x00000043 = .ok .rdec

/-- 30 R93: which words are illegal, and what becomes of one: it is started like any other, and its completion step ends it
with `IllegalCommand` (0x80); no state but `STATUS` changes. -/
def Obligations.IllegalWordsEndWithIllegalCommand : Prop :=
  (∀ c : Word, (∃ r, decode c = .error r) ↔
    (c.extractLsb' 16 16 ≠ 0 ∨ (c.extractLsb' 8 8 ≠ 0 ∧ c.extractLsb' 0 8 ≠ 0x10) ∨
      (c.extractLsb' 0 8).toNat ∉
        [0x01, 0x02, 0x10, 0x11, 0x12, 0x13, 0x15, 0x16, 0x17, 0x18, 0x19, 0x20, 0x21, 0x22, 0x23,
         0x30, 0x31, 0x32, 0x33, 0x40, 0x41, 0x42, 0x43])) ∧
  (∀ (s : State) (c : Word), HostWrites s 0x0008 32 c → s.status.busy = false → (∃ r, decode c = .error r) →
    ∃ t, step s = .next t ∧ t.oplatch = c ∧ t.status.busy = true) ∧
  (∀ s : State, EngineIsNext s → s.status.busy = true → (∃ r, decode s.oplatch = .error r) →
    ∃ t, step s = .next t ∧ Ended .illegalCommand t ∧ t.status.err.code = 0x80 ∧ OnlyWrites [] s.takeTurn t)

/-! ## The step -/

/-- 00 R13, 30 R96: when the engine moves on a busy block whose `OPLATCH` decodes to `i`, the step is `exec i` at that state
with its turn taken off; an idle engine changes nothing; and `withFetchWord` places a command so that the next step runs
it. The order of the agents is the model's list of events (log 3). -/
def Obligations.StepRunsTheDecodedCommand : Prop :=
  (∀ (s : State) (i : Instr), EngineIsNext s → s.status.busy = true → decode s.oplatch = .ok i →
    step s = exec i s.takeTurn) ∧
  (∀ s : State, EngineIsNext s → s.status.busy = false → step s = .next s.takeTurn) ∧
  (∀ (s : State) (c : Word) (i : Instr), decode c = .ok i →
    step (s.withFetchWord 32 c.toNat) = exec i (s.start c))

/-- 10 R41, 70 R350: after a hardware reset or a soft reset (whether or not bit 1 of `CTRL` is written too, and whether or
not a command runs) every piece of state has its reset value, and the first reads of `STATUS` and `NTROUNDS` give 0 and
0x0000000A. The parameters, the host and the random source are outside the block and stay. -/
def Obligations.ResetPutsEveryPieceAtItsResetValue : Prop :=
  ResetValues State.reset ∧ State.reset.readReg .status = 0x00000000 ∧ State.reset.readReg .ntrounds = 0x0000000A ∧
  (∀ s : State, s.events.head? = some .hardReset →
    ∃ t, step s = .next t ∧ ResetValues t ∧ t.readReg .status = 0x00000000 ∧ t.readReg .ntrounds = 0x0000000A ∧
      t.cfg = s.cfg ∧ t.rng = s.rng ∧ t.events = s.events.tail ∧ t.replies = s.replies) ∧
  (∀ (s : State) (v : Word), HostWrites s 0x0000 32 v → v.getLsbD 0 = true →
    ∃ t, step s = .next t ∧ ResetValues t ∧ t.readReg .status = 0x00000000 ∧ t.readReg .ntrounds = 0x0000000A ∧
      t.cfg = s.cfg ∧ t.rng = s.rng ∧ t.events = s.events.tail ∧ t.replies = .ok :: s.replies)

/-- The invariant of the model holds right after reset. Two of its parts are the model's choices: that an idle block searches
nothing (log 7) and the canonical form of the data buffer (log 13). -/
def Obligations.InvariantHoldsAtReset : Prop := Inv State.reset

/-- Every step from a state with the invariant answers a state with it: legal parameters (00 R7), a schedule that `KVALID` and `NR`
describe (10 R32), big numbers below `2^BN_BITS` (10 R33), a data buffer inside its capacity (10 R35), recorded primes in range
(44 R229, R230), `DONE = 0` and `ERR = 0` while a command runs (10 R23). Two parts are the model's choices and no rule of the
spec: that the search is empty while no command runs (log 7; 10 R37 gives `SRCH` no meaning then), and the canonical form of the
data buffer (log 13). -/
def Obligations.EveryStepKeepsTheInvariant : Prop :=
  ∀ s t : State, Inv s → step s = .next t → Inv t

/-- No step faults, and a step is refused only for a `BusError` of the host (60 R328, 20 R68). -/
def Obligations.OnlyBusErrorsStopTheMachine : Prop :=
  ∀ s : State, (∃ t, step s = .next t) ∨ (∃ cause, step s = .refused (.busError cause))

/-! ## The port -/

/-- 10 R23: a write to `CMD` on an idle block is the start step; on a busy block it only sets `BAV`; `CMD` reads as 0
always. -/
def Obligations.CmdWriteIsTheStartStep : Prop :=
  (∀ (s : State) (v : Word), HostWrites s 0x0008 32 v → s.status.busy = false →
    ∃ t, step s = .next t ∧ t.oplatch = v ∧ t.status.busy = true ∧ t.status.done = false ∧
      t.status.err = .noError ∧ t.srch = .searchingP ∧ OnlyWrites [.oplatch] (s.answered .ok) t) ∧
  (∀ (s : State) (v : Word), HostWrites s 0x0008 32 v → s.status.busy = true →
    ∃ t, step s = .next t ∧ t.status.bav = true ∧ t.status.busy = true ∧ t.status.done = s.status.done ∧
      t.status.err = s.status.err ∧ t.srch = s.srch ∧ OnlyWrites [.bav] (s.answered .ok) t) ∧
  (∀ s : State, HostReads s 0x0008 32 →
    ∃ t, step s = .next t ∧ t.replies = .word 0x00000000 :: s.replies ∧
      (s.status.busy = false → t = s.answered (.word 0x00000000)))

/-- 60 R317: `CTRL.ABORT` with bit 0 clear ends a running command at once with `Aborted` and commits nothing; on an idle
block it does nothing. Neither bit set changes nothing. -/
def Obligations.AbortEndsTheRunningCommand : Prop :=
  (∀ (s : State) (v : Word), HostWrites s 0x0000 32 v → v.getLsbD 0 = false → v.getLsbD 1 = true →
    s.status.busy = true →
    ∃ t, step s = .next t ∧ Ended .aborted t ∧ t.status.err.code = 0x85 ∧ t.srch = .searchingP ∧
      OnlyWrites [] (s.answered .ok) t) ∧
  (∀ (s : State) (v : Word), HostWrites s 0x0000 32 v → v.getLsbD 0 = false →
    (v.getLsbD 1 = false ∨ s.status.busy = false) → step s = .next (s.answered .ok))

/-- 10 R22: a write to `STATUS`, busy or not, clears `BAV` if bit 6 of the word is 1 and changes nothing else; a read gives
the whole register and changes nothing. -/
def Obligations.StatusAccessAlwaysWorks : Prop :=
  (∀ (s : State) (v : Word), HostWrites s 0x0004 32 v →
    step s = .next { s.answered .ok with
      status := { s.status with bav := s.status.bav && !v.getLsbD 6 } }) ∧
  (∀ s : State, HostReads s 0x0004 32 → step s = .next (s.answered (.word s.status.toWord)))

/-- 10 R22: the fields of `STATUS` in the word the host reads; the reserved bits read 0. -/
def Obligations.StatusWordHoldsItsFields : Prop :=
  ∀ t : Status,
    t.toWord.getLsbD 0 = t.busy ∧ t.toWord.getLsbD 1 = t.done ∧ t.toWord.getLsbD 2 = t.kvalid ∧
    t.toWord.getLsbD 3 = t.prime ∧ t.toWord.getLsbD 4 = t.xneg ∧ t.toWord.getLsbD 5 = t.yneg ∧
    t.toWord.getLsbD 6 = t.bav ∧ t.toWord.getLsbD 7 = false ∧ t.toWord.extractLsb' 8 4 = t.nr ∧
    t.toWord.extractLsb' 12 4 = 0 ∧ t.toWord.extractLsb' 16 8 = t.err.code ∧ t.toWord.extractLsb' 24 8 = 0

/-- 60 R310: the numbers of the error codes. -/
def Obligations.ErrorCodesHaveTheirNumbers : Prop :=
  ErrCode.noError.code = 0x00 ∧ ErrCode.invalidKeySize.code = 0x01 ∧ ErrCode.invalidCiphertextLength.code = 0x02 ∧
  ErrCode.invalidPadding.code = 0x03 ∧ ErrCode.messageTooLarge.code = 0x04 ∧
  ErrCode.invalidCiphertextEncoding.code = 0x05 ∧ ErrCode.noInverseExists.code = 0x06 ∧
  ErrCode.keyGenerationFailed.code = 0x07 ∧ ErrCode.primeGenerationFailed.code = 0x08 ∧
  ErrCode.unsupportedValueType.code = 0x09 ∧ ErrCode.illegalCommand.code = 0x80 ∧
  ErrCode.capacityExceeded.code = 0x81 ∧ ErrCode.invalidOperand.code = 0x82 ∧
  ErrCode.keyScheduleInvalid.code = 0x83 ∧ ErrCode.randomSourceFailed.code = 0x84 ∧ ErrCode.aborted.code = 0x85

/-- 20 R61: the offset of every register as a number, and how many of each array there are; each register the parameters give the
block is at its offset, and every aligned offset that holds a register is that register's. -/
def Obligations.AddressMapIsOneToOne : Prop :=
  (Reg.ctrl.offset = 0x0000 ∧ Reg.status.offset = 0x0004 ∧ Reg.cmd.offset = 0x0008 ∧ Reg.kbits.offset = 0x000C ∧
    Reg.keylen.offset = 0x0010 ∧ Reg.dlen.offset = 0x0014 ∧ Reg.ntbits.offset = 0x0018 ∧
    Reg.ntrounds.offset = 0x001C ∧ (∀ j, (Reg.key j).offset = 0x0020 + 4 * j) ∧
    (∀ k, (Reg.blk k).offset = 0x0040 + 4 * k) ∧ (∀ i, (Reg.w i).offset = 0x0100 + 4 * i) ∧
    (∀ j, (Reg.big .ba j).offset = 0x1000 + 4 * j) ∧ (∀ j, (Reg.big .bb j).offset = 0x2000 + 4 * j) ∧
    (∀ j, (Reg.big .bm j).offset = 0x3000 + 4 * j) ∧ (∀ j, (Reg.big .br j).offset = 0x4000 + 4 * j) ∧
    (∀ j, (Reg.big .bx j).offset = 0x5000 + 4 * j) ∧ (∀ j, (Reg.big .bY j).offset = 0x6000 + 4 * j) ∧
    (∀ k, (Reg.dmem k).offset = 0x8000 + 4 * k)) ∧
  ∀ c : Config, c.Valid →
    (∀ r ∈ [Reg.ctrl, .status, .cmd, .kbits, .keylen, .dlen, .ntbits, .ntrounds], r.mapped c = true) ∧
    (∀ j, (Reg.key j).mapped c = true ↔ j ≤ 7) ∧ (∀ k, (Reg.blk k).mapped c = true ↔ k ≤ 3) ∧
    (∀ i, (Reg.w i).mapped c = true ↔ i ≤ 59) ∧
    (∀ b j, (Reg.big b j).mapped c = true ↔ j + 1 ≤ c.bnBits / 32) ∧
    (∀ k, (Reg.dmem k).mapped c = true ↔ k + 1 ≤ c.dmemBytes / 4) ∧
    (∀ r : Reg, r.mapped c = true → regAt c r.offset = some r ∧ r.offset % 4 = 0 ∧ MappedOffset c r.offset) ∧
    (∀ off : Nat, off % 4 = 0 → MappedOffset c off → ∃ r, regAt c off = some r ∧ r.offset = off ∧ r.mapped c = true) ∧
    (∀ off : Nat, ¬ MappedOffset c off → regAt c off = none)

/-- 20 R62, R68: exactly the misaligned, narrow, wide and unmapped accesses and the writes to `W0..W59` are `BusError`, busy
or not; the model refuses them. -/
def Obligations.BusErrorExactlyWhereTheMapSays : Prop :=
  (∀ (s : State) (off width : Nat), s.cfg.Valid → HostReads s off width →
    ((∃ cause, step s = .refused (.busError cause)) ↔
      (off % 4 ≠ 0 ∨ width ≠ 32 ∨ ¬ MappedOffset s.cfg off))) ∧
  (∀ (s : State) (off width : Nat) (v : Word), s.cfg.Valid → HostWrites s off width v →
    ((∃ cause, step s = .refused (.busError cause)) ↔
      (off % 4 ≠ 0 ∨ width ≠ 32 ∨ ¬ MappedOffset s.cfg off ∨ ScheduleOffset off)))

/-- 20 R71 (c), (d): while busy every mapped, aligned read but that of `STATUS` gives 0 and sets `BAV`, every such write but
those of `CTRL` and `STATUS` is dropped and sets `BAV`, and nothing else changes. -/
def Obligations.BusyBlockDropsAccesses : Prop :=
  (∀ (s : State) (off : Nat), s.cfg.Valid → HostReads s off 32 → s.status.busy = true →
    off % 4 = 0 → MappedOffset s.cfg off → off ≠ 0x0004 →
    step s = .next { s.answered (.word 0x00000000) with status := { s.status with bav := true } }) ∧
  (∀ (s : State) (off : Nat) (v : Word), s.cfg.Valid → HostWrites s off 32 v → s.status.busy = true →
    off % 4 = 0 → MappedOffset s.cfg off → ¬ ScheduleOffset off → off ≠ 0x0000 → off ≠ 0x0004 →
    step s = .next { s.answered .ok with status := { s.status with bav := true } })

/-- 20 R69: on an idle block a read of any register answers its word and changes nothing: read twice, it answers the same word
twice. Which word that is: 0 for `CTRL` and `CMD` (10 R21, R23), `STATUS` as `StatusWordHoldsItsFields` lays it out, the value of
a control register (10 R24 to R28), the words of `W` (10 R31, 41 R137), the bytes of `KEY`, `S` and `DMEM` with the lower index in
the more significant lane (10 R29, R30, R35, 20 R63), and the limbs of a big number, limb 0 the least significant (10 R33, 20 R64). -/
def Obligations.ReadsHaveNoSideEffects : Prop :=
  (∀ (s : State) (r : Reg) (es : List Event), s.cfg.Valid → s.status.busy = false → r.mapped s.cfg = true →
    s.events = .hostRead r.offset 32 :: .hostRead r.offset 32 :: es →
    step s = .next (s.answered (.word (s.readReg r))) ∧
    step (s.answered (.word (s.readReg r))) =
      .next ((s.answered (.word (s.readReg r))).answered (.word (s.readReg r)))) ∧
  ∀ s : State,
    s.readReg .ctrl = 0x00000000 ∧ s.readReg .status = s.status.toWord ∧ s.readReg .cmd = 0x00000000 ∧
    (s.readReg .kbits).toNat = s.kbits.toNat ∧ (s.readReg .keylen).toNat = s.keylen.toNat ∧
    s.readReg .dlen = s.dlen ∧ s.readReg .ntbits = s.ntbits ∧ (s.readReg .ntrounds).toNat = s.ntrounds.toNat ∧
    (∀ j t (h : 4 * j + t < 32), t < 4 → (s.readReg (.key j)).extractLsb' (24 - 8 * t) 8 = s.key[4 * j + t]) ∧
    (∀ c t (h : 4 * c + t < 16), t < 4 → (s.readReg (.blk c)).extractLsb' (24 - 8 * t) 8 = s.blk[4 * c + t]) ∧
    (∀ k t, t < 4 → (s.readReg (.dmem k)).extractLsb' (24 - 8 * t) 8 = s.dmem.read (4 * k + t)) ∧
    (∀ i (h : i < 60), s.readReg (.w i) = s.w[i]) ∧
    (∀ b n, (b, n) ∈ [(BigReg.ba, s.ba), (.bb, s.bb), (.bm, s.bm), (.br, s.br), (.bx, s.bx), (.bY, s.bY)] →
      ∀ j i, i < 32 → (s.readReg (.big b j)).getLsbD i = n.testBit (32 * j + i))

/-- 10 R24 to R30, R33, R35, 20 R67: on an idle block the word written to a read-write register is read back, without the
reserved bits of `KBITS` (31:16), `KEYLEN` and `NTROUNDS` (31:8). -/
def Obligations.WrittenRegisterReadsBack : Prop :=
  ∀ (s t : State) (r : Reg) (v : Word), s.cfg.Valid → MemInv s → s.status.busy = false → r.mapped s.cfg = true →
    HostWrites s r.offset 32 v → step s = .next t →
    (r = .kbits → t.readReg r = v &&& 0x0000FFFF) ∧
    (r = .keylen ∨ r = .ntrounds → t.readReg r = v &&& 0x000000FF) ∧
    (r = .dlen ∨ r = .ntbits ∨ (∃ j, r = .key j) ∨ (∃ c, r = .blk c) ∨ (∃ b j, r = .big b j) ∨ (∃ k, r = .dmem k) →
      t.readReg r = v)

/-- 20 R70: on an idle block a write to a register other than `CTRL`, `STATUS`, `CMD` stores its value and does nothing else:
it is answered, and every other register, the latched command, the search and the random source are as before. -/
def Obligations.WriteLeavesOtherRegistersAlone : Prop :=
  ∀ (s : State) (r : Reg) (v : Word), s.cfg.Valid → s.status.busy = false → r.mapped s.cfg = true →
    HostWrites s r.offset 32 v → r ≠ .ctrl → r ≠ .status → r ≠ .cmd → (∀ i, r ≠ .w i) →
    ∃ t, step s = .next t ∧ (∀ r', r' ≠ r → r'.mapped s.cfg = true → t.readReg r' = s.readReg r') ∧
      t.status = s.status ∧ t.w = s.w ∧ t.oplatch = s.oplatch ∧ t.srch = s.srch ∧ t.rng = s.rng ∧ t.cfg = s.cfg ∧
      t.events = s.events.tail ∧ t.replies = .ok :: s.replies

/-! ## The whole machine -/

/-- 41 R135: `W`, `KVALID` and `NR` are written only by the completion step of a successful KEXP and by reset. -/
def Obligations.OnlyKexpAndResetWriteTheSchedule : Prop :=
  ∀ s t : State, step s = .next t →
    (t.w = s.w ∧ t.status.kvalid = s.status.kvalid ∧ t.status.nr = s.status.nr) ∨
    ResetIsNext s ∨
    (EngineIsNext s ∧ s.status.busy = true ∧ decode s.oplatch = .ok .kexp ∧ KeySizeOk s ∧ Ended .noError t)

/-- 20 R71, R73: while a command runs, whatever step comes, the command word and the operand state are as they were at the
start: only `BAV` and the random source can move until the command ends. -/
def Obligations.OperandsHoldStillWhileBusy : Prop :=
  ∀ s t : State, s.status.busy = true → step s = .next t → t.status.busy = true →
    t.cfg = s.cfg ∧ t.status.done = s.status.done ∧ t.status.err = s.status.err ∧
    ∀ p : Part, p ≠ .bav → p ≠ .rng → p.same s t

/-- 60 R311: a command that ends with an error sets `BUSY`, `DONE`, `ERR` and applies none of its writes; draws it consumed
stay consumed. -/
def Obligations.FailedCommandCommitsNothing : Prop :=
  ∀ (i : Instr) (s t : State), exec i s = .next t → s.status.err = .noError → t.status.err ≠ .noError →
    Ended t.status.err t ∧ (Part.rng ∉ writesOf i → OnlyWrites [] s t) ∧ OnlyWrites [.rng] s t

/-- 30 R95: no command writes anything but what the table lists for it. -/
def Obligations.CommandsWriteOnlyWhatTheTableLists : Prop :=
  ∀ (i : Instr) (s t : State), exec i s = .next t → OnlyWrites (writesOf i) s t

/-- 30 R95, 00 R16: a command reads nothing but what the table lists for it. Two running commands of one kind, with the same
parameters, the same listed operands, the same answers of the random source where it draws and the same search progress,
end (or go on) alike and write the same values. RDEC writes only the first bytes of `DMEM` and does not read it, so its
written bytes are compared. -/
def Obligations.CommandsReadOnlyWhatTheTableLists : Prop :=
  ∀ (i : Instr) (s s' : State), s.status.busy = true → s'.status.busy = true → s.status.err = s'.status.err →
    s.cfg = s'.cfg → s.cfg.Valid → MemInv s → MemInv s' → BigInv s → s.srch = s'.srch →
    (∀ p ∈ readsOf i, p.same s s') →
    ∃ t t', exec i s = .next t ∧ exec i s' = .next t' ∧
      t.status.busy = t'.status.busy ∧ t.status.err = t'.status.err ∧ t.srch = t'.srch ∧
      (Part.rng ∈ readsOf i → t.rng = t'.rng) ∧
      (Ended .noError t → ∀ p ∈ writesOf i, ¬ (p = .dmem ∧ i = .rdec) → p.same t t') ∧
      (Ended .noError t → i = .rdec → t.message = t'.message)

/-- 70 R361, 60 R328: every command answers a next state in every state, and every command but PGEN and KGEN ends in that one
step, whatever the operands and the random source. -/
def Obligations.EveryCommandAnswersAndAllButSearchesEnd : Prop :=
  ∀ (i : Instr) (s : State), ∃ t, exec i s = .next t ∧
    (i ≠ .pgen → i ≠ .kgen → t.status.busy = false ∧ t.status.done = true)

/-! ## U1, key expansion -/

/-- 41 R130, R134: KEXP writes the schedule with zeros in its unused tail, `KVALID` and `NR`, or ends with
`InvalidKeySize`. -/
def Obligations.KexpExpandsTheKey : Prop :=
  (∀ s : State, KeySizeOk s →
    CompletesWith .kexp s [.w, .kvalid, .nr] fun t =>
      t.status.kvalid = true ∧ t.status.nr.toNat = s.nk + 6 ∧ s.expanded.length = 4 * (s.nk + 6 + 1) ∧
      (∀ i (h : i < 60), i < 4 * (s.nk + 6 + 1) → s.expanded[i]? = some t.w[i]) ∧
      (∀ i (h : i < 60), 4 * (s.nk + 6 + 1) ≤ i → t.w[i] = 0)) ∧
  (∀ s : State, ¬ KeySizeOk s → EndsInError .kexp s .invalidKeySize)

/-- 41 R132, R133: the seed words and the recurrence of the key schedule, over `RotWord`, `SubWord` and `RCON` as 40 R116, R117 and
R118 give them. -/
def Obligations.KeyScheduleFollowsTheRecurrence : Prop :=
  (∀ v : Word, rotWord v = v.rotateLeft 8) ∧
  (∀ (v : Word) (t : Nat), t < 4 →
    (subWord v).extractLsb' (24 - 8 * t) 8 = sbox (v.extractLsb' (24 - 8 * t) 8)) ∧
  (List.range' 1 10).map rcon = [0x01, 0x02, 0x04, 0x08, 0x10, 0x20, 0x40, 0x80, 0x1B, 0x36] ∧
  ∀ (nk : Nat) (key : List Byte), nk = 4 ∨ nk = 6 ∨ nk = 8 → key.length = 4 * nk →
    ∀ w, w = expandKey key nk (nk + 6) →
      w.length = 4 * (nk + 6 + 1) ∧
      (∀ i, i < nk → w.getD i 0 =
        beWord (key.getD (4 * i) 0) (key.getD (4 * i + 1) 0) (key.getD (4 * i + 2) 0) (key.getD (4 * i + 3) 0)) ∧
      (∀ i, nk ≤ i → i < 4 * (nk + 6 + 1) → w.getD i 0 = w.getD (i - nk) 0 ^^^
        (if i % nk = 0 then subWord (rotWord (w.getD (i - 1) 0)) ^^^ ((rcon (i / nk)).setWidth 32 <<< 24)
         else if nk > 6 ∧ i % nk = 4 then subWord (w.getD (i - 1) 0)
         else w.getD (i - 1) 0))

/-- 41 R136: RKEY fills `KEY` with `KBITS/8` drawn bytes and zeros and sets `KEYLEN`; an illegal `KBITS` draws nothing and is
`InvalidKeySize`; a failed draw is `RandomSourceFailed`. -/
def Obligations.RkeyDrawsAKey : Prop :=
  (∀ s : State, legalKeyBits s.kbits.toNat = false → EndsInError .rkey s .invalidKeySize) ∧
  (∀ (s : State) (g : Rng), legalKeyBits s.kbits.toNat = true → s.rng.draw (s.kbits.toNat / 8) = (none, g) →
    ∃ t, exec .rkey s = .next t ∧ Ended .randomSourceFailed t ∧ t.rng = g ∧ OnlyWrites [.rng] s t) ∧
  (∀ (s : State) (r : List Byte) (g : Rng), legalKeyBits s.kbits.toNat = true →
    s.rng.draw (s.kbits.toNat / 8) = (some r, g) →
    CompletesWith .rkey s [.key, .keylen, .rng] fun t =>
      (∀ i (h : i < 32), i < s.kbits.toNat / 8 → r[i]? = some t.key[i]) ∧
      (∀ i (h : i < 32), s.kbits.toNat / 8 ≤ i → t.key[i] = 0) ∧
      t.keylen.toNat = s.kbits.toNat / 8 ∧ t.rng = g)

/-- 44 R220: an answered draw has exactly `k` bytes; scripted bytes come in the order drawn, each once; a failing answer among
the next `k` fails the draw. With no script left the answers are the free ones at the counter, and the counter passes every answer
taken, the failing one too, so that none is used twice. A draw of `k + m` bytes is a draw of `k` and then of `m`. How an answer is
cut into bytes is the model's choice (log 2). -/
def Obligations.DrawsConsumeBytesInOrder : Prop :=
  (∀ (k : Nat) (g g' : Rng) (r : List Byte), g.draw k = (some r, g') → r.length = k) ∧
  (∀ (bs : List Byte) (rest : List (Option Byte)) (u : Nat),
    Rng.draw bs.length { script := bs.map some ++ rest, used := u } = (some bs, { script := rest, used := u })) ∧
  (∀ (bs : List Byte) (rest : List (Option Byte)) (u k : Nat), bs.length < k →
    Rng.draw k { script := bs.map some ++ none :: rest, used := u } = (none, { script := rest, used := u })) ∧
  (∀ u k : Nat, Rng.draw k { script := [], used := u } =
    match (List.range k).find? (fun i => (Config.freeRandom (u + i)).isNone) with
    | some i => (none, { script := [], used := u + i + 1 })
    | none => (some ((List.range k).filterMap fun i => Config.freeRandom (u + i)), { script := [], used := u + k })) ∧
  (∀ (k m : Nat) (g : Rng), g.draw (k + m) =
    match g.draw k with
    | (none, g') => (none, g')
    | (some bs, g') =>
      match g'.draw m with
      | (none, g'') => (none, g'')
      | (some cs, g'') => (some (bs ++ cs), g''))

/-! ## U2, round steps and blocks -/

/-- 40 R111, R112: `GFMul` is commutative, associative and distributes over XOR; 1 and 0 act as such; every byte but 0 has an
inverse (40 R115); and the product with `x` is reduced by the polynomial 0x11B (40 R110). -/
def Obligations.GfMulIsAFieldProduct : Prop :=
  (∀ a b : Byte, gfMul a b = gfMul b a) ∧ (∀ a b c : Byte, gfMul (gfMul a b) c = gfMul a (gfMul b c)) ∧
  (∀ a b c : Byte, gfMul a (b ^^^ c) = gfMul a b ^^^ gfMul a c) ∧
  (∀ a : Byte, gfMul a 0x01 = a) ∧ (∀ a : Byte, gfMul a 0x00 = 0x00) ∧
  (∀ a : Byte, a ≠ 0 → ∃ v : Byte, gfMul a v = 0x01) ∧
  (∀ a : Byte, gfMul a 0x02 = if a.getLsbD 7 then (a <<< 1) ^^^ 0x1B else a <<< 1)

/-- 40 R114, R115: the two tables undo each other, and `SBOX` is the affine map of the field inverse. -/
def Obligations.SubstitutionTablesAreTheConstruction : Prop :=
  (∀ a : Byte, isbox (sbox a) = a ∧ sbox (isbox a) = a) ∧
  (∀ a v : Byte, (a ≠ 0 → gfMul a v = 0x01) → (a = 0 → v = 0) →
    sbox a = v ^^^ v.rotateLeft 1 ^^^ v.rotateLeft 2 ^^^ v.rotateLeft 3 ^^^ v.rotateLeft 4 ^^^ 0x63)

/-- 42 R152 to R157: the six round steps without a key complete in every state and write `S` byte by byte as their rules
say. -/
def Obligations.RoundStepsWriteTheirBytes : Prop :=
  ∀ s : State,
    (CompletesWith .subb s [.blk] fun t => ∀ i (h : i < 16), t.blk[i] = sbox s.blk[i]) ∧
    (CompletesWith .isubb s [.blk] fun t => ∀ i (h : i < 16), t.blk[i] = isbox s.blk[i]) ∧
    (CompletesWith .shrow s [.blk] fun t =>
      ∀ i (h : i < 16), t.blk[i] = s.blk[[0, 5, 10, 15, 4, 9, 14, 3, 8, 13, 2, 7, 12, 1, 6, 11].getD i 0]?.getD 0) ∧
    (CompletesWith .ishrow s [.blk] fun t =>
      ∀ i (h : i < 16), t.blk[i] = s.blk[[0, 13, 10, 7, 4, 1, 14, 11, 8, 5, 2, 15, 12, 9, 6, 3].getD i 0]?.getD 0) ∧
    (CompletesWith .mixc s [.blk] fun t => ∀ c, c < 4 → ∀ a0 a1 a2 a3 : Byte,
      a0 = cell s.blk c 0 → a1 = cell s.blk c 1 → a2 = cell s.blk c 2 → a3 = cell s.blk c 3 →
      cell t.blk c 0 = gfMul a0 2 ^^^ gfMul a1 3 ^^^ a2 ^^^ a3 ∧
      cell t.blk c 1 = a0 ^^^ gfMul a1 2 ^^^ gfMul a2 3 ^^^ a3 ∧
      cell t.blk c 2 = a0 ^^^ a1 ^^^ gfMul a2 2 ^^^ gfMul a3 3 ∧
      cell t.blk c 3 = gfMul a0 3 ^^^ a1 ^^^ a2 ^^^ gfMul a3 2) ∧
    (CompletesWith .imixc s [.blk] fun t => ∀ c, c < 4 → ∀ a0 a1 a2 a3 : Byte,
      a0 = cell s.blk c 0 → a1 = cell s.blk c 1 → a2 = cell s.blk c 2 → a3 = cell s.blk c 3 →
      cell t.blk c 0 = gfMul a0 0x0E ^^^ gfMul a1 0x0B ^^^ gfMul a2 0x0D ^^^ gfMul a3 0x09 ∧
      cell t.blk c 1 = gfMul a0 0x09 ^^^ gfMul a1 0x0E ^^^ gfMul a2 0x0B ^^^ gfMul a3 0x0D ∧
      cell t.blk c 2 = gfMul a0 0x0D ^^^ gfMul a1 0x09 ^^^ gfMul a2 0x0E ^^^ gfMul a3 0x0B ∧
      cell t.blk c 3 = gfMul a0 0x0B ^^^ gfMul a1 0x0D ^^^ gfMul a2 0x09 ^^^ gfMul a3 0x0E)

/-- 42 R150, R151: ARK XORs word `W[4*rnd + c]` into column `c`, its most significant byte into row 0; without a schedule it
ends with `KeyScheduleInvalid`, with a round above `NR` with `InvalidOperand`. The first clause takes every state with a schedule. In
every reachable one the word is in `W`; at `NR = 15` and round 15, which no run reaches, the clause says that the words past `W59`
read 0: that is no rule of the spec but the model's choice (log 12). -/
def Obligations.ArkAddsTheRoundKey : Prop :=
  (∀ (s : State) (rnd : Nat), s.status.kvalid = true → rnd ≤ s.status.nr.toNat →
    CompletesWith (.ark rnd) s [.blk] fun t => ∀ c r, c < 4 → r < 4 →
      cell t.blk c r = cell s.blk c r ^^^
        (((s.w[4 * rnd + c]?.getD 0) >>> (24 - 8 * r)) &&& 0x000000FF).setWidth 8) ∧
  (∀ (s : State) (rnd : Nat), s.status.kvalid = false → EndsInError (.ark rnd) s .keyScheduleInvalid) ∧
  (∀ (s : State) (rnd : Nat), s.status.kvalid = true → s.status.nr.toNat < rnd →
    EndsInError (.ark rnd) s .invalidOperand)

/-- 42 R159, R161: with a schedule ENCB and DECB end without error in every state, writing `S` alone, and equal the sequence of
step commands issued one after another; without one they end with `KeyScheduleInvalid`. -/
def Obligations.BlockCommandsAreTheStepCommands : Prop :=
  (∀ s : State, s.status.kvalid = true →
    CompletesWith .encb s [.blk] (fun t => t.blk = encryptBlock s.w.toList s.status.nr.toNat s.blk) ∧
    CompletesWith .decb s [.blk] (fun t => t.blk = decryptBlock s.w.toList s.status.nr.toNat s.blk)) ∧
  (∀ s : State, s.status.kvalid = true → s.status.nr.toNat ∈ [10, 12, 14] →
    runCommands (encSteps s.status.nr.toNat) s = exec .encb s ∧
    runCommands (decSteps s.status.nr.toNat) s = exec .decb s) ∧
  (∀ s : State, s.status.kvalid = false →
    EndsInError .encb s .keyScheduleInvalid ∧ EndsInError .decb s .keyScheduleInvalid)

/-- 42 R162: block decryption undoes block encryption under every schedule and round count, and the other way round; so it
does for every key and its schedule. -/
def Obligations.DecryptBlockUndoesEncryptBlock : Prop :=
  ∀ (w : List Word) (nr : Nat) (b : Block),
    decryptBlock w nr (encryptBlock w nr b) = b ∧ encryptBlock w nr (decryptBlock w nr b) = b

/-- 95 V1, the source's one worked example: the known vector through KEXP, ENCB and DECB. -/
def Obligations.KnownVectorIsReproduced : Prop :=
  ∀ s : State, s.kbits = 128 → s.keylen = 16 →
    s.keyBytes.take 16 = beBytesN 16 0x2b7e151628aed2a6abf7158809cf4f3c →
    s.blk.toList = beBytesN 16 0x3243f6a8885a308d313198a2e0370734 →
    ∃ t u, exec .kexp s = .next t ∧ exec .encb t = .next u ∧
      u.blk.toList = beBytesN 16 0x3925841d02dc09fbdc118597196a0b32 ∧
      ∃ v, exec .decb u = .next v ∧ v.blk = s.blk

/-! ## U3, padding and messages -/

/-- 43 R191: PAD appends `n = 16 - DLEN mod 16` bytes of value `n` and nothing else in `DMEM`; with `DLEN = DMEM_BYTES` or above
it ends with `CapacityExceeded`. -/
def Obligations.PadAppendsThePad : Prop :=
  (∀ s : State, s.cfg.Valid → MemInv s → s.msgLen < s.cfg.dmemBytes →
    CompletesWith .pad s [.dmem, .dlen] fun t =>
      t.dlen.toNat = s.msgLen + (16 - s.msgLen % 16) ∧
      (∀ a, s.msgLen ≤ a → a < s.msgLen + (16 - s.msgLen % 16) → (t.dmem.read a).toNat = 16 - s.msgLen % 16) ∧
      (∀ a, a < s.msgLen ∨ s.msgLen + (16 - s.msgLen % 16) ≤ a → t.dmem.read a = s.dmem.read a)) ∧
  (∀ s : State, s.cfg.Valid → s.cfg.dmemBytes ≤ s.msgLen → EndsInError .pad s .capacityExceeded)

/-- 43 R192, R193: UNPAD strips a valid pad of `n` bytes by writing `DLEN` alone; a message beyond the capacity is
`CapacityExceeded`, then a message without a valid pad is `InvalidPadding`. -/
def Obligations.UnpadStripsAValidPad : Prop :=
  (∀ (s : State) (n : Nat), s.msgLen ≤ s.cfg.dmemBytes → ValidPad s n →
    CompletesWith .unpad s [.dlen] fun t => t.dlen.toNat = s.msgLen - n) ∧
  (∀ s : State, s.cfg.dmemBytes < s.msgLen → EndsInError .unpad s .capacityExceeded) ∧
  (∀ s : State, s.msgLen ≤ s.cfg.dmemBytes → (∀ n, ¬ ValidPad s n) → EndsInError .unpad s .invalidPadding)

/-- 43 R190, R192: padding appends `16 - len mod 16` bytes of that value, which makes a positive multiple of 16, and
`RemovePadding` takes it off again, for every string. What `RemovePadding` takes off is exactly a tail of `n` bytes of value `n`,
`1 <= n <= 16`; any other string is `InvalidPadding`. -/
def Obligations.RemovePaddingUndoesApplyPadding : Prop :=
  (∀ b m : List Byte, removePadding b = .ok m ↔
    ∃ n, 1 ≤ n ∧ n ≤ 16 ∧ b = m ++ List.replicate n (BitVec.ofNat 8 n)) ∧
  (∀ b : List Byte, (∃ m, removePadding b = .ok m) ∨ removePadding b = .error .invalidPadding) ∧
  ∀ b : List Byte, removePadding (applyPadding b) = .ok b ∧ (applyPadding b).length % 16 = 0 ∧
    16 ≤ (applyPadding b).length ∧ (applyPadding b).take b.length = b ∧
    (applyPadding b).drop b.length = List.replicate (16 - b.length % 16) (BitVec.ofNat 8 (16 - b.length % 16))

/-- 43 R194, R195: ENCM replaces the message by the encryption of each 16-byte block of the padded message under the key in
`KEY`, each block by itself; its errors come in the order `CapacityExceeded`, `InvalidKeySize`. -/
def Obligations.EncmEncryptsEachPaddedBlock : Prop :=
  (∀ s : State, s.cfg.Valid → MemInv s → s.msgLen < s.cfg.dmemBytes → KeySizeOk s →
    CompletesWith .encm s [.dmem, .dlen] fun t =>
      t.dlen.toNat = s.paddedLen ∧
      (∀ j, j < s.paddedLen / 16 → bufOfList 16 (t.dmem.readBytes (16 * j) 16) =
        encryptBlock s.expanded (s.nk + 6)
          (bufOfList 16 (((applyPadding (s.dmem.readBytes 0 s.msgLen)).drop (16 * j)).take 16))) ∧
      (∀ a, s.paddedLen ≤ a → t.dmem.read a = s.dmem.read a)) ∧
  (∀ s : State, s.cfg.Valid → s.cfg.dmemBytes ≤ s.msgLen → EndsInError .encm s .capacityExceeded) ∧
  (∀ s : State, s.cfg.Valid → s.msgLen < s.cfg.dmemBytes → ¬ KeySizeOk s → EndsInError .encm s .invalidKeySize)

/-- 43 R196, R197: DECM decrypts each block of the message under the key in `KEY`, checks the pad of the result and leaves the
whole padded plaintext in `DMEM` with `DLEN` at the message's length; its errors come in the order `CapacityExceeded`,
`InvalidCiphertextLength`, `InvalidKeySize`, `InvalidPadding`. -/
def Obligations.DecmDecryptsEachBlockAndUnpads : Prop :=
  (∀ s : State, s.cfg.dmemBytes < s.msgLen → EndsInError .decm s .capacityExceeded) ∧
  (∀ s : State, s.msgLen ≤ s.cfg.dmemBytes → s.msgLen % 16 ≠ 0 →
    EndsInError .decm s .invalidCiphertextLength) ∧
  (∀ s : State, s.msgLen ≤ s.cfg.dmemBytes → s.msgLen % 16 = 0 → ¬ KeySizeOk s →
    EndsInError .decm s .invalidKeySize) ∧
  (∀ (s : State) (p : List Byte), s.cfg.Valid → MemInv s → s.msgLen ≤ s.cfg.dmemBytes → s.msgLen % 16 = 0 →
    KeySizeOk s → p.length = s.msgLen →
    (∀ j, j < s.msgLen / 16 → bufOfList 16 ((p.drop (16 * j)).take 16) =
      decryptBlock s.expanded (s.nk + 6) (bufOfList 16 (s.dmem.readBytes (16 * j) 16))) →
    ((∀ m, removePadding p ≠ .ok m) → EndsInError .decm s .invalidPadding) ∧
    (∀ m, removePadding p = .ok m →
      CompletesWith .decm s [.dmem, .dlen] fun t =>
        t.dlen.toNat = m.length ∧ t.dmem.readBytes 0 s.msgLen = p ∧
        (∀ a, s.msgLen ≤ a → t.dmem.read a = s.dmem.read a)))

/-- 43 R199: ENCM followed by DECM with the same key gives the message back, for every message whose padded length fits. -/
def Obligations.DecmUndoesEncm : Prop :=
  ∀ s : State, s.cfg.Valid → MemInv s → s.paddedLen ≤ s.cfg.dmemBytes → s.msgLen ≤ s.cfg.dmemBytes → KeySizeOk s →
    ∃ t u, exec .encm s = .next t ∧ Ended .noError t ∧ exec .decm t = .next u ∧ Ended .noError u ∧
      u.dlen = s.dlen ∧ u.dmem.readBytes 0 s.msgLen = s.dmem.readBytes 0 s.msgLen

/-! ## U4, number theory -/

/-- 44 R221: `ExtEuclid` gives the gcd with Bezout coefficients, and the bounds on their magnitudes; and which coefficients they
are: those of `(a, 0)`, and one iteration of the recurrence, which takes `(a, b)` to `(b, a mod b)` with quotient `a div b`. -/
def Obligations.ExtEuclidGivesBezout : Prop :=
  ∀ (a b g : Nat) (x y : Int), extEuclid a b = (g, x, y) →
    g = Nat.gcd a b ∧ (a : Int) * x + (b : Int) * y = (g : Int) ∧
    x.natAbs ≤ max b 1 ∧ y.natAbs ≤ max a 1 ∧ ¬ (x < 0 ∧ y < 0) ∧
    (b = 0 → x = 1 ∧ y = 0) ∧
    (∀ (g' : Nat) (x' y' : Int), 0 < b → extEuclid b (a % b) = (g', x', y') →
      x = y' ∧ y = x' - ((a / b : Nat) : Int) * y')

/-- 44 R222: EGCD writes the gcd and the coefficients as magnitudes with sign flags; a zero coefficient has its flag 0. -/
def Obligations.EgcdWritesSignedBezout : Prop :=
  ∀ s : State, CompletesWith .egcd s [.br, .bx, .bY, .xneg, .yneg] fun t =>
    t.br = Nat.gcd s.ba s.bb ∧
    (s.ba : Int) * (if t.status.xneg then -(t.bx : Int) else t.bx) +
      (s.bb : Int) * (if t.status.yneg then -(t.bY : Int) else t.bY) = t.br ∧
    (t.bx = 0 → t.status.xneg = false) ∧ (t.bY = 0 → t.status.yneg = false) ∧
    t.bx = (extEuclid s.ba s.bb).2.1.natAbs ∧ t.bY = (extEuclid s.ba s.bb).2.2.natAbs

/-- 44 R223, R224: MINV gives the inverse in `[0, n)`; a zero modulus is `InvalidOperand`, then a common divisor is
`NoInverseExists`. -/
def Obligations.MinvInvertsCoprimes : Prop :=
  (∀ s : State, s.bm ≠ 0 → Nat.Coprime s.ba s.bm →
    CompletesWith .minv s [.br] fun t => t.br < s.bm ∧ (s.ba * t.br) % s.bm = 1 % s.bm) ∧
  (∀ s : State, s.bm = 0 → EndsInError .minv s .invalidOperand) ∧
  (∀ s : State, s.bm ≠ 0 → ¬ Nat.Coprime s.ba s.bm → EndsInError .minv s .noInverseExists)

/-- 44 R226: whatever the draws, a prime is never called composite (P1), so what is called composite is not prime (P2); and
the verdict "prime" proves nothing: 221 with base 174 (P3). -/
def Obligations.PrimalityTestNeverRejectsAPrime : Prop :=
  (∀ (n rounds : Nat) (g : Rng), Nat.Prime n → (probablyPrime n rounds g).1 ≠ some false) ∧
  (∀ (n rounds : Nat) (g : Rng), (probablyPrime n rounds g).1 = some false → ¬ Nat.Prime n) ∧
  (¬ Nat.Prime 221 ∧ drawnBase 221 [0xAC] = 174 ∧
    (probablyPrime 221 1 { script := [some 0xAC], used := 0 }).1 = some true)

/-- 44 R225, R227: PTST writes the verdict to `PRIME`; below 5 and on even numbers the verdict is fixed and nothing is drawn;
with no rounds every odd number from 5 on passes; a failed draw is `RandomSourceFailed`. The verdict itself, for an odd `n >= 5`
with `n - 1 = 2^s * d`, `d` odd: a round is one draw of `ceil(bitlen(n)/8)` bytes, of which the base is 2 more than their natural
modulo `n - 3`; it passes exactly where `a^d`, or one of the `s - 1` squares after it, is as 44 R225 says; after a round that passes
the other rounds go on at the source after that draw, after one that does not the answer is false with no further draw. -/
def Obligations.PtstWritesTheVerdict : Prop :=
  (∀ (s : State) (v : Bool) (g : Rng), probablyPrime s.ba s.ntrounds.toNat s.rng = (some v, g) →
    CompletesWith .ptst s [.prime, .rng] fun t => t.status.prime = v ∧ t.rng = g) ∧
  (∀ (s : State) (g : Rng), probablyPrime s.ba s.ntrounds.toNat s.rng = (none, g) →
    ∃ t, exec .ptst s = .next t ∧ Ended .randomSourceFailed t ∧ t.rng = g ∧ OnlyWrites [.rng] s t) ∧
  (∀ s : State, s.ba < 5 ∨ s.ba % 2 = 0 →
    CompletesWith .ptst s [.prime] fun t => t.status.prime = decide (s.ba = 2 ∨ s.ba = 3)) ∧
  (∀ s : State, 5 ≤ s.ba → s.ba % 2 = 1 → s.ntrounds = 0 →
    CompletesWith .ptst s [.prime] fun t => t.status.prime = true) ∧
  (∀ (n rounds : Nat) (g : Rng), n < 5 ∨ n % 2 = 0 →
    probablyPrime n rounds g = (some (decide (n = 2 ∨ n = 3)), g)) ∧
  (∀ (n s d : Nat) (g : Rng), 5 ≤ n → n % 2 = 1 → n - 1 = 2 ^ s * d → d % 2 = 1 →
    probablyPrime n 0 g = (some true, g) ∧
    ∀ r : Nat,
      (∀ g', g.draw ((bitLen n + 7) / 8) = (none, g') → probablyPrime n (r + 1) g = (none, g')) ∧
      (∀ (bytes : List Byte) (g' : Rng) (a : Nat), g.draw ((bitLen n + 7) / 8) = (some bytes, g') →
        a = 2 + beInt bytes % (n - 3) →
        ((a ^ d % n = 1 ∨ a ^ d % n = n - 1 ∨ ∃ i, 1 ≤ i ∧ i ≤ s - 1 ∧ a ^ (2 ^ i * d) % n = n - 1) →
          probablyPrime n (r + 1) g = probablyPrime n r g') ∧
        (¬ (a ^ d % n = 1 ∨ a ^ d % n = n - 1 ∨ ∃ i, 1 ≤ i ∧ i ≤ s - 1 ∧ a ^ (2 ^ i * d) % n = n - 1) →
          probablyPrime n (r + 1) g = (some false, g'))))

/-- 44 R228: a candidate of `bits` bits has exactly `bits` bits; below its top bit it is the drawn number modulo
`2^(bits-1)`; a failed draw is `RngFail`. -/
def Obligations.CandidatesHaveExactlyTheBits : Prop :=
  (∀ (bits : Nat) (g g' : Rng) (v : Nat), 1 ≤ bits → drawCandidate bits g = (some v, g') →
    2 ^ (bits - 1) ≤ v ∧ v < 2 ^ bits ∧ bitLen v = bits ∧
    ∃ r, g.draw ((bits + 7) / 8) = (some r, g') ∧ v % 2 ^ (bits - 1) = beInt r % 2 ^ (bits - 1)) ∧
  (∀ (bits : Nat) (g g' : Rng), g.draw ((bits + 7) / 8) = (none, g') → drawCandidate bits g = (none, g'))

/-- 44 R229, R230: PGEN's checks; a search step, whose outcome is that of the candidate drawn at the random source and of its
test, and which moves nothing but the random source and `SRCH`; the completion that writes the recorded prime to `BR`; the completion after a failed draw. -/
def Obligations.PgenSearchesAndCompletes : Prop :=
  (∀ s : State, s.ntbits = 0 → EndsInError .pgen s .invalidOperand) ∧
  (∀ s : State, s.ntbits ≠ 0 → s.cfg.bnBits < s.ntbits.toNat → EndsInError .pgen s .capacityExceeded) ∧
  (∀ (s : State) (v : Nat), s.ntbits ≠ 0 → s.ntbits.toNat ≤ s.cfg.bnBits → s.srch = .found v →
    CompletesWith .pgen s [.br] fun t => t.br = v) ∧
  (∀ s : State, s.ntbits ≠ 0 → s.ntbits.toNat ≤ s.cfg.bnBits → s.srch = .drawFailed →
    EndsInError .pgen s .primeGenerationFailed) ∧
  (∀ s : State, s.ntbits ≠ 0 → s.ntbits.toNat ≤ s.cfg.bnBits → s.srch = .searchingP →
    ∃ t, exec .pgen s = .next t ∧ SearchOutcome .found s t)

/-- 44 R229, 93 U18: with `NTBITS = 1` a PGEN left to itself never ends without error and never writes `BR`, whatever the random
source answers. -/
def Obligations.PgenOfOneBitNeverCompletes : Prop :=
  ∀ (n : Nat) (s t : State), s.cfg.Valid → s.events = [] → s.status.busy = true → s.status.done = false →
    s.oplatch = 0x00000033 → s.ntbits = 1 → s.srch = .searchingP →
    Host.Core.run core n s = .next t →
    t.br = s.br ∧ (t.status.busy = true ∨ t.status.err = .primeGenerationFailed)

/-! ## U5, modular exponentiation and RSA -/

/-- 45 R260: binary exponentiation gives `b^e mod m`. -/
def Obligations.ModExpIsThePower : Prop := ∀ b e m : Nat, 0 < m → modExp b e m = b ^ e % m

/-- 45 R261: MEXP writes `BA^BB mod BM`; a zero modulus is `InvalidOperand`. -/
def Obligations.MexpWritesThePower : Prop :=
  (∀ s : State, s.bm ≠ 0 → CompletesWith .mexp s [.br] fun t => t.br = s.ba ^ s.bb % s.bm) ∧
  (∀ s : State, s.bm = 0 → EndsInError .mexp s .invalidOperand)

/-- 45 R262, R263, 44 R230: KGEN's checks; its search for `p`, then for `q`, each step with the outcome of the candidate drawn at
the random source and of its test; the key it writes from the two primes; and its two
failures. -/
def Obligations.KgenSearchesAndWritesAKeyPair : Prop :=
  (∀ s : State, s.ntbits = 0 → EndsInError .kgen s .invalidOperand) ∧
  (∀ s : State, s.ntbits ≠ 0 → s.cfg.bnBits < 2 * s.ntbits.toNat → EndsInError .kgen s .capacityExceeded) ∧
  (∀ s : State, s.ntbits ≠ 0 → 2 * s.ntbits.toNat ≤ s.cfg.bnBits →
    (s.srch = .drawFailed → EndsInError .kgen s .primeGenerationFailed) ∧
    (s.srch = .searchingP →
      ∃ t, exec .kgen s = .next t ∧ SearchOutcome .searchingQ s t) ∧
    (∀ p, s.srch = .searchingQ p →
      ∃ t, exec .kgen s = .next t ∧ SearchOutcome (.foundPair p) s t) ∧
    (∀ p q, s.srch = .foundPair p q → 2 ≤ p → 2 ≤ q → Nat.Coprime 65537 ((p - 1) * (q - 1)) →
      CompletesWith .kgen s [.bm, .bb, .br] fun t =>
        t.bm = p * q ∧ t.bb = 65537 ∧ t.br < (p - 1) * (q - 1) ∧
        (65537 * t.br) % ((p - 1) * (q - 1)) = 1 % ((p - 1) * (q - 1))) ∧
    (∀ p q, s.srch = .foundPair p q → 2 ≤ p → 2 ≤ q → ¬ Nat.Coprime 65537 ((p - 1) * (q - 1)) →
      EndsInError .kgen s .keyGenerationFailed))

/-- 00 R10, 45 R267: `be_bytes` is the shortest byte string of a natural, and the leading zero bytes of a message are lost.
`be_int`, `be_word` and `bitlen` are as 00 R10 gives them. -/
def Obligations.BytesOfANaturalAreShortest : Prop :=
  (beInt [] = 0 ∧ ∀ (bs : List Byte) (b : Byte), beInt (bs ++ [b]) = 256 * beInt bs + b.toNat) ∧
  (∀ b0 b1 b2 b3 : Byte, (beWord b0 b1 b2 b3).toNat =
    b0.toNat * 2 ^ 24 + b1.toNat * 2 ^ 16 + b2.toNat * 2 ^ 8 + b3.toNat) ∧
  (∀ n : Nat, n < 2 ^ bitLen n ∧ (n = 0 → bitLen n = 0) ∧ (n ≠ 0 → 2 ^ (bitLen n - 1) ≤ n)) ∧
  (∀ n : Nat, beInt (beBytes n) = n ∧ (beBytes n).length = (bitLen n + 7) / 8 ∧ (beBytes n).head? ≠ some 0) ∧
  (∀ b : List Byte, beBytes (beInt b) = b.dropWhile (fun x => x == 0))

/-- 45 R264, R265: RENC writes `m^BB mod BM` for the big-endian natural `m` of the message; a message beyond the capacity is
`CapacityExceeded`, then `m >= BM` is `MessageTooLarge`. -/
def Obligations.RencEncryptsTheMessageInteger : Prop :=
  (∀ s : State, s.msgLen ≤ s.cfg.dmemBytes → beInt (s.dmem.readBytes 0 s.msgLen) < s.bm →
    CompletesWith .renc s [.br] fun t => t.br = beInt (s.dmem.readBytes 0 s.msgLen) ^ s.bb % s.bm) ∧
  (∀ s : State, s.cfg.dmemBytes < s.msgLen → EndsInError .renc s .capacityExceeded) ∧
  (∀ s : State, s.msgLen ≤ s.cfg.dmemBytes → s.bm ≤ beInt (s.dmem.readBytes 0 s.msgLen) →
    EndsInError .renc s .messageTooLarge)

/-- 45 R266: RDEC writes `r = BA^BB mod BM` to `BR` and its shortest bytes to `DMEM`, `DLEN`, and no other byte of `DMEM`; a zero
modulus is `InvalidOperand`. -/
def Obligations.RdecWritesTheShortestBytes : Prop :=
  (∀ s : State, s.cfg.Valid → MemInv s → BigInv s → s.bm ≠ 0 →
    CompletesWith .rdec s [.br, .dmem, .dlen] fun t =>
      t.br = s.ba ^ s.bb % s.bm ∧ t.dlen.toNat = (bitLen t.br + 7) / 8 ∧
      beInt (t.dmem.readBytes 0 t.dlen.toNat) = t.br ∧
      (∀ a, t.dlen.toNat ≤ a → t.dmem.read a = s.dmem.read a)) ∧
  (∀ s : State, s.bm = 0 → EndsInError .rdec s .invalidOperand)

/-- 45 R268: with `n = p*q` for distinct primes and `e*d = 1` modulo `(p-1)(q-1)`, RENC and then RDEC give back every message
below `n` that does not begin with a zero byte; the empty message comes back for every modulus and positive exponents; with
`p = q = 3` the message 2 does not come back. -/
def Obligations.RdecUndoesRenc : Prop :=
  (∀ (s : State) (p q d : Nat), s.cfg.Valid → MemInv s → BigInv s → s.msgLen ≤ s.cfg.dmemBytes →
    Nat.Prime p → Nat.Prime q → p ≠ q → s.bm = p * q → (s.bb * d) % ((p - 1) * (q - 1)) = 1 % ((p - 1) * (q - 1)) →
    beInt (s.dmem.readBytes 0 s.msgLen) < s.bm → (0 < s.msgLen → s.dmem.read 0 ≠ 0) →
    ∃ t u, exec .renc s = .next t ∧ Ended .noError t ∧
      exec .rdec { t with ba := t.br, bb := d } = .next u ∧ Ended .noError u ∧
      u.dlen = s.dlen ∧ u.dmem.readBytes 0 s.msgLen = s.dmem.readBytes 0 s.msgLen) ∧
  (∀ (s : State) (d : Nat), s.msgLen = 0 → 1 ≤ s.bm → 1 ≤ s.bb → 1 ≤ d →
    ∃ t u, exec .renc s = .next t ∧ Ended .noError t ∧
      exec .rdec { t with ba := t.br, bb := d } = .next u ∧ Ended .noError u ∧ u.msgLen = 0) ∧
  (∀ s : State, s.cfg.Valid → MemInv s → s.bm = 9 → s.bb = 65537 → s.dlen = 1 → s.dmem.read 0 = 0x02 →
    ∃ t u, exec .renc s = .next t ∧ t.br = 5 ∧
      exec .rdec { t with ba := t.br, bb := 1 } = .next u ∧ u.br = 5 ∧ u.dmem.read 0 = 0x05)

/-! ## The host's software -/

/-- 30 R99 `ldblk`, 10 R30: the four port operations load the sixteen bytes into `S` in index order and change nothing else of
the block. -/
def Obligations.LdblkLoadsTheBlock : Prop :=
  ∀ (s : State) (b : List Byte), s.cfg.Valid → s.status.busy = false → s.events = [] → b.length = 16 →
    ∃ t, Host.Core.run core 4 (s.withScript (ldblk b)) = .next t ∧ t.blk.toList = b ∧
      t = { s with blk := t.blk, replies := [.ok, .ok, .ok, .ok] ++ s.replies }

/-- 46 R295 to R297: with a host whose hex parsing reads what its hex rendering writes (the default does) and an RSA key that
meets the premises of 45 R268, a structure that encrypts decrypts to the same structure with each leaf a string, at every depth:
the text, or the decimal text of a number, without its leading zero bytes (45 R267); a text that does not begin with a zero byte
comes back whole. Sequences keep their length and order, mappings their keys. What the source leaves open of the host is in
`HostParams` (logs 19, 27 to 33); exponents of `2^BN_BITS` and above are used whole, the model's choice (log 36). -/
def Obligations.StructureRoundTripsToStrings : Prop :=
  (∀ m : Nat, ({} : HexFormat).parse (({} : HexFormat).render m) = some m) ∧
  (∀ (p : HostParams) (bnBits e d n q r : Nat), (∀ m, p.hex.parse (p.hex.render m) = some m) →
    Nat.Prime q → Nat.Prime r → q ≠ r → n = q * r → n ≤ 2 ^ bnBits →
    (e * d) % ((q - 1) * (r - 1)) = 1 % ((q - 1) * (r - 1)) →
    ∀ v c : SValue, encryptStructure p e n v = .ok c → decryptStructure p bnBits d n c = .ok (v.asTexts p)) ∧
  (∀ (p : HostParams) (t : Text), p.survivingText t = p.ofBytes ((p.toBytes t).dropWhile fun b => b == 0)) ∧
  (∀ (p : HostParams) (t : Text), (p.toBytes t).head? ≠ some 0 → p.survivingText t = t) ∧
  (∀ (p : HostParams) (t : Text) (i : Int) (f : BitVec 64) (vs : List SValue) (kvs : List (Text × SValue)),
    (SValue.str t).asTexts p = .str (p.survivingText t) ∧
    (SValue.int i).asTexts p = .str (p.survivingText (p.numbers.decimal i)) ∧
    (SValue.float f).asTexts p = .str (p.survivingText (p.numbers.shortest f)) ∧
    (SValue.seq vs).asTexts p = .seq (seqAsTexts p vs) ∧ (SValue.map kvs).asTexts p = .map (mapAsTexts p kvs)) ∧
  (∀ (p : HostParams) (vs : List SValue), (seqAsTexts p vs).length = vs.length ∧
    ∀ i : Nat, (seqAsTexts p vs)[i]? = vs[i]?.map (SValue.asTexts p)) ∧
  (∀ (p : HostParams) (kvs : List (Text × SValue)), (mapAsTexts p kvs).map Prod.fst = kvs.map Prod.fst ∧
    (mapAsTexts p kvs).map Prod.snd = kvs.map fun kv => kv.2.asTexts p)
end

