-- ==== Sys2Proof/Laws/Bytes.lean ====
section
/-! SUPPORT. Laws of byte order: bytes of words, words of buffers, byte strings and naturals, limbs. -/

namespace Sys2Proof.Machine

theorem wordByte_beWord (b0 b1 b2 b3 : Byte) :
    wordByte (beWord b0 b1 b2 b3) 0 = b0 ∧ wordByte (beWord b0 b1 b2 b3) 1 = b1 ∧
    wordByte (beWord b0 b1 b2 b3) 2 = b2 ∧ wordByte (beWord b0 b1 b2 b3) 3 = b3 := by
  refine ⟨?_, ?_, ?_, ?_⟩ <;>
  · ext i hi
    simp only [wordByte, beWord, BitVec.getElem_extractLsb', BitVec.getLsbD_append]
    repeat (first | rw [if_pos (by omega)] | rw [if_neg (by omega)])
    rw [← BitVec.getLsbD_eq_getElem hi]
    congr 1
    omega

theorem beWord_wordByte (v : Word) : beWord (wordByte v 0) (wordByte v 1) (wordByte v 2) (wordByte v 3) = v := by
  apply BitVec.eq_of_getLsbD_eq
  intro i hi
  simp only [wordByte, beWord, BitVec.getLsbD_append, BitVec.getLsbD_extractLsb']
  split
  · simp_all
  split
  · rename_i h1 h2
    simp only [h2, decide_true, Bool.true_and]
    congr 1
    omega
  split
  · rename_i h1 h2 h3
    simp only [h3, decide_true, Bool.true_and]
    congr 1
    omega
  · have h4 : i - 8 - 8 - 8 < 8 := by omega
    simp only [h4, decide_true, Bool.true_and]
    congr 1
    omega

/-- Every lane of a bus word at once (20 R63). -/
theorem beWord_lane (b0 b1 b2 b3 : Byte) (t : Nat) (ht : t < 4) :
    (beWord b0 b1 b2 b3).extractLsb' (24 - 8 * t) 8 = [b0, b1, b2, b3].getD t 0 := by
  obtain ⟨h0, h1, h2, h3⟩ := wordByte_beWord b0 b1 b2 b3
  interval_cases t
  · exact h0
  · exact h1
  · exact h2
  · exact h3

/-- Lane `t` of word `j` of a buffer is byte `4j + t`. -/
theorem bufWord_lane {n : Nat} (b : Vector Byte n) (j t : Nat) (h : 4 * j + t < n) (ht : t < 4) :
    (bufWord b j).extractLsb' (24 - 8 * t) 8 = b[4 * j + t] := by
  rw [bufWord, beWord_lane _ _ _ _ _ ht]
  interval_cases t
  · simp only [Nat.add_zero] at h
    simp [h]
  all_goals simp [h]

theorem bufOfList_get (n : Nat) (bs : List Byte) (i : Nat) (h : i < n) : (bufOfList n bs)[i] = bs.getD i 0 := by
  simp [bufOfList]

theorem setBufWord_get {n : Nat} (b : Vector Byte n) (j : Nat) (v : Word) (i : Nat) (h : i < n) :
    (setBufWord b j v)[i] = if i / 4 = j then wordByte v (i % 4) else b[i] := by
  simp [setBufWord]

theorem setBufWord_getD {n : Nat} (b : Vector Byte n) (j : Nat) (v : Word) (i : Nat) (h : i < n) :
    (setBufWord b j v)[i]?.getD 0 = if i / 4 = j then wordByte v (i % 4) else b[i]?.getD 0 := by
  simp [setBufWord, h]

/-- The word written is the word read back. -/
theorem bufWord_setBufWord_same {n : Nat} (b : Vector Byte n) (j : Nat) (v : Word) (h : 4 * j + 3 < n) :
    bufWord (setBufWord b j v) j = v := by
  have at_lane : ∀ t, t < 4 → (setBufWord b j v)[4 * j + t]?.getD 0 = wordByte v t := fun t ht => by
    rw [setBufWord_getD b j v _ (by omega), if_pos (by omega)]
    congr 1
    omega
  have h0 := at_lane 0 (by omega)
  rw [Nat.add_zero] at h0
  rw [bufWord, h0, at_lane 1 (by omega), at_lane 2 (by omega), at_lane 3 (by omega), beWord_wordByte]

/-- Writing one word leaves the others alone. -/
theorem bufWord_setBufWord_other {n : Nat} (b : Vector Byte n) {j k : Nat} (v : Word) (hjk : k ≠ j)
    (h : 4 * k + 3 < n) : bufWord (setBufWord b j v) k = bufWord b k := by
  have at_lane : ∀ t, t < 4 → (setBufWord b j v)[4 * k + t]?.getD 0 = b[4 * k + t]?.getD 0 := fun t ht => by
    rw [setBufWord_getD b j v _ (by omega), if_neg (by omega)]
  have h0 := at_lane 0 (by omega)
  rw [Nat.add_zero] at h0
  rw [bufWord, bufWord, h0, at_lane 1 (by omega), at_lane 2 (by omega), at_lane 3 (by omega)]

/-! ### Byte strings and naturals -/

theorem lt_two_pow_bitLen (n : Nat) : n < 2 ^ bitLen n := by
  unfold bitLen
  split
  · simp_all
  · exact Nat.lt_log2_self

theorem two_pow_le_of_bitLen (n : Nat) (h : n ≠ 0) : 2 ^ (bitLen n - 1) ≤ n := by
  simp only [bitLen, if_neg h, Nat.add_sub_cancel]
  exact Nat.log2_self_le h

/-- The bit length is the least number of bits that hold the number. -/
theorem bitLen_le_iff (n k : Nat) : bitLen n ≤ k ↔ n < 2 ^ k := by
  unfold bitLen
  split
  · simp_all
  · rename_i h
    rw [Nat.succ_le_iff, Nat.log2_lt h]

theorem bitLen_eq (n k : Nat) (hk : 1 ≤ k) (hlo : 2 ^ (k - 1) ≤ n) (hhi : n < 2 ^ k) : bitLen n = k := by
  have h1 := (bitLen_le_iff n k).2 hhi
  have h2 : ¬ bitLen n ≤ k - 1 := fun h => by
    have := (bitLen_le_iff n (k - 1)).1 h
    omega
  omega

theorem length_beBytesN (k n : Nat) : (beBytesN k n).length = k := by
  induction k with
  | zero => rfl
  | succ k ih => simp [beBytesN, ih]

theorem beIntFrom_eq (bs : List Byte) (acc : Nat) : beIntFrom acc bs = acc * 256 ^ bs.length + beIntFrom 0 bs := by
  induction bs generalizing acc with
  | nil => simp [beIntFrom]
  | cons b bs ih =>
    rw [beIntFrom, beIntFrom, ih (256 * acc + b.toNat), ih (256 * 0 + b.toNat), List.length_cons]
    ring

theorem beInt_cons (b : Byte) (bs : List Byte) : beInt (b :: bs) = b.toNat * 256 ^ bs.length + beInt bs := by
  rw [beInt, beIntFrom, beIntFrom_eq, beInt, Nat.mul_zero, Nat.zero_add]

theorem beInt_append (as bs : List Byte) : beInt (as ++ bs) = beInt as * 256 ^ bs.length + beInt bs := by
  induction as with
  | nil => simp [beInt, beIntFrom]
  | cons a as ih =>
    rw [List.cons_append, beInt_cons, beInt_cons, ih, List.length_append]
    ring

theorem beInt_lt (bs : List Byte) : beInt bs < 256 ^ bs.length := by
  induction bs with
  | nil => simp [beInt, beIntFrom]
  | cons b bs ih =>
    rw [beInt_cons, List.length_cons, Nat.pow_succ]
    have := b.isLt
    calc b.toNat * 256 ^ bs.length + beInt bs < b.toNat * 256 ^ bs.length + 256 ^ bs.length := by omega
      _ = (b.toNat + 1) * 256 ^ bs.length := by ring
      _ ≤ 256 * 256 ^ bs.length := Nat.mul_le_mul_right _ (by omega)
      _ = 256 ^ bs.length * 256 := by ring

/-- The low `k` bytes of `n` stand for `n mod 256^k`. -/
theorem beInt_beBytesN (k n : Nat) : beInt (beBytesN k n) = n % 256 ^ k := by
  induction k with
  | zero => simp [beBytesN, beInt, beIntFrom, Nat.mod_one]
  | succ k ih =>
    rw [beBytesN, beInt_cons, length_beBytesN, ih, BitVec.toNat_ofNat, Nat.pow_succ 256, Nat.mod_mul, Nat.add_comm,
      Nat.mul_comm (256 ^ k)]

/-! ### Limbs -/

theorem toNat_limb (n j : Nat) : (limb n j).toNat = n / 2 ^ (32 * j) % 2 ^ 32 := by simp [limb]

/-- A bit of a limb is the bit of the natural there (20 R64). -/
theorem getLsbD_limb (n j i : Nat) (hi : i < 32) : (limb n j).getLsbD i = n.testBit (32 * j + i) := by
  simp only [limb, BitVec.getLsbD_ofNat, hi, decide_true, Bool.true_and, Nat.testBit_div_two_pow]
  congr 1
  omega

theorem pow_limb_succ (j : Nat) : 2 ^ (32 * (j + 1)) = 2 ^ (32 * j) * 2 ^ 32 := by
  rw [← Nat.pow_add]
  ring_nf

/-- A limb write as the value below, at and above the limb. -/
theorem setLimb_eq (n j : Nat) (v : Word) :
    setLimb n j v = 2 ^ (32 * j) * (n / 2 ^ (32 * (j + 1)) * 2 ^ 32 + v.toNat) + n % 2 ^ (32 * j) := by
  rw [setLimb, pow_limb_succ]
  ring

theorem limb_setLimb_same (n j : Nat) (v : Word) : limb (setLimb n j v) j = v := by
  apply BitVec.eq_of_toNat_eq
  rw [toNat_limb, setLimb_eq, Nat.mul_add_div (Nat.two_pow_pos _), Nat.div_eq_of_lt (Nat.mod_lt _ (Nat.two_pow_pos _)),
    Nat.add_zero, Nat.mul_comm _ (2 ^ 32), Nat.mul_add_mod, Nat.mod_eq_of_lt v.isLt]

/-- A limb write keeps the value below `2^bits` where the limb lies inside the width. -/
theorem setLimb_lt (n j bits : Nat) (v : Word) (hn : n < 2 ^ bits) (hj : 32 * (j + 1) ≤ bits) :
    setLimb n j v < 2 ^ bits := by
  obtain ⟨k, rfl⟩ := Nat.exists_eq_add_of_le hj
  have hq : n / 2 ^ (32 * (j + 1)) < 2 ^ k := by
    rw [Nat.div_lt_iff_lt_mul (Nat.two_pow_pos _), ← Nat.pow_add, Nat.add_comm k]
    exact hn
  have hr : n % 2 ^ (32 * j) < 2 ^ (32 * j) := Nat.mod_lt _ (Nat.two_pow_pos _)
  have hv := v.isLt
  have h1 : n / 2 ^ (32 * (j + 1)) * 2 ^ 32 + v.toNat < 2 ^ k * 2 ^ 32 := by
    calc n / 2 ^ (32 * (j + 1)) * 2 ^ 32 + v.toNat < n / 2 ^ (32 * (j + 1)) * 2 ^ 32 + 2 ^ 32 := by omega
      _ = (n / 2 ^ (32 * (j + 1)) + 1) * 2 ^ 32 := by ring
      _ ≤ 2 ^ k * 2 ^ 32 := Nat.mul_le_mul_right _ hq
  calc setLimb n j v < 2 ^ (32 * j) * (n / 2 ^ (32 * (j + 1)) * 2 ^ 32 + v.toNat) + 2 ^ (32 * j) := by
        rw [setLimb_eq]; omega
    _ = 2 ^ (32 * j) * (n / 2 ^ (32 * (j + 1)) * 2 ^ 32 + v.toNat + 1) := by ring
    _ ≤ 2 ^ (32 * j) * (2 ^ k * 2 ^ 32) := Nat.mul_le_mul_left _ h1
    _ = 2 ^ (32 * (j + 1) + k) := by rw [Nat.pow_add, pow_limb_succ]; ring

end Sys2Proof.Machine
end

