-- ==== Sys2Proof/Laws/Aes.lean ====
section
/-! SUPPORT. Laws of blocks, of the key schedule's loop and of block-wise transforms. -/

namespace Sys2Proof.Machine

@[simp] theorem cell_blockOf (f : Nat → Nat → Byte) {c r : Nat} (hc : c < 4) (hr : r < 4) :
    cell (blockOf f) c r = f c r := by
  have h : 4 * c + r < 16 := by omega
  have hq : (4 * c + r) / 4 = c := by omega
  have hm : (4 * c + r) % 4 = r := by omega
  simp [cell, blockOf, h, hq, hm]

theorem cell_eq_getElem (s : Block) {i : Nat} (h : i < 16) : cell s (i / 4) (i % 4) = s[i] := by
  have : 4 * (i / 4) + i % 4 = i := by omega
  simp [cell, this, h]

/-- Two blocks with the same cells are the same block. -/
theorem block_ext {s t : Block} (h : ∀ c r, c < 4 → r < 4 → cell s c r = cell t c r) : s = t := by
  apply Vector.ext
  intro i hi
  rw [← cell_eq_getElem s hi, ← cell_eq_getElem t hi]
  exact h _ _ (by omega) (by omega)

theorem getElem_blockOf (f : Nat → Nat → Byte) {i : Nat} (h : i < 16) : (blockOf f)[i] = f (i / 4) (i % 4) := by
  simp [blockOf]

theorem length_seedWords (key : List Byte) (nk : Nat) : (seedWords key nk).length = nk := by
  induction nk with
  | zero => rfl
  | succ n ih => simp [seedWords, ih]

theorem length_expandLoop (nk n : Nat) (ws : List Word) : (expandLoop nk n ws).length = ws.length + n := by
  induction n generalizing ws with
  | zero => rfl
  | succ n ih =>
    rw [expandLoop, ih, List.length_append, List.length_singleton]
    omega

/-- The loop keeps the words it starts from. -/
theorem getD_expandLoop_of_lt (nk n : Nat) (ws : List Word) (i : Nat) (h : i < ws.length) :
    (expandLoop nk n ws).getD i 0 = ws.getD i 0 := by
  induction n generalizing ws with
  | zero => rfl
  | succ n ih =>
    rw [expandLoop, ih _ (by simp; omega), List.getD_eq_getElem?_getD, List.getD_eq_getElem?_getD,
      List.getElem?_append_left h]

theorem length_expandKey (key : List Byte) (nk nr : Nat) (h : nk ≤ 4 * (nr + 1)) :
    (expandKey key nk nr).length = 4 * (nr + 1) := by
  rw [expandKey, length_expandLoop, length_seedWords]
  omega

theorem length_mapBlocks (f : Block → Block) (n : Nat) (b : List Byte) : (mapBlocks f n b).length = 16 * n := by
  induction n generalizing b with
  | zero => rfl
  | succ n ih =>
    rw [mapBlocks, List.length_append, ih, Vector.length_toList]
    omega

theorem bufOfList_toList (b : Block) : bufOfList 16 b.toList = b := by
  apply Vector.ext
  intro i hi
  rw [bufOfList_get _ _ _ hi, List.getD_eq_getElem?_getD, Vector.getElem?_toList, Vector.getElem?_eq_getElem hi]
  rfl

theorem toList_bufOfList (n : Nat) (bs : List Byte) (h : bs.length = n) : (bufOfList n bs).toList = bs := by
  apply List.ext_getElem?
  intro i
  rw [Vector.getElem?_toList]
  by_cases hi : i < n
  · rw [Vector.getElem?_eq_getElem hi, bufOfList_get _ _ _ hi, List.getD_eq_getElem?_getD,
      List.getElem?_eq_getElem (by omega)]
    rfl
  · rw [Vector.getElem?_eq_none (by omega), List.getElem?_eq_none (by omega)]

/-- Block `j` of a block-wise transform is the transform of block `j`. -/
theorem mapBlocks_block (f : Block → Block) (n : Nat) (b : List Byte) (j : Nat) (h : j < n) :
    ((mapBlocks f n b).drop (16 * j)).take 16 = (f (bufOfList 16 ((b.drop (16 * j)).take 16))).toList := by
  induction n generalizing b j with
  | zero => omega
  | succ n ih =>
    rw [mapBlocks]
    cases j with
    | zero => simp
    | succ j =>
      have hlen : (f (bufOfList 16 (b.take 16))).toList.length = 16 := Vector.length_toList
      rw [show 16 * (j + 1) = 16 + 16 * j by omega, ← List.drop_drop, ← List.drop_drop, List.drop_left' hlen,
        ih (b.drop 16) j (by omega)]

end Sys2Proof.Machine
end

