-- ==== Sys2Proof/Laws/HostText.lean ====
section
/-! SUPPORT. Laws of hex strings: the default parse reads what the default rendering writes, in either case. -/

namespace Sys2Proof.Machine

theorem hexValue_hexDigit (upper : Bool) (n : Nat) (h : n < 16) : hexValue (hexDigit upper n) = some n := by
  have all : ∀ (u : Bool) (k : Fin 16), hexValue (hexDigit u k.val) = some k.val := by decide
  exact all upper ⟨n, h⟩

theorem hexFrom_zeros (z : Nat) (t : Text) : hexFrom 0 (List.replicate z '0' ++ t) = hexFrom 0 t := by
  induction z with
  | zero => rfl
  | succ z ih => exact ih

/-- The digits of `n` below `16^k`, read after others. -/
theorem hexFrom_hexDigits (upper : Bool) (k n acc : Nat) :
    hexFrom acc (hexDigits upper k n) = some (acc * 16 ^ k + n % 16 ^ k) := by
  induction k generalizing acc with
  | zero => simp [hexDigits, hexFrom, Nat.mod_one]
  | succ k ih =>
    rw [hexDigits, hexFrom, hexValue_hexDigit upper _ (Nat.mod_lt _ (by decide))]
    simp only [ih]
    rw [Nat.pow_succ, Nat.mod_mul]
    congr 1
    ring

theorem plainHex_render (upper : Bool) (n : Nat) :
    plainHex (HexFormat.render { upperCase := upper } n) = some n := by
  have hn : n < 16 ^ ((bitLen n + 3) / 4) := by
    have h := lt_two_pow_bitLen n
    have : 2 ^ bitLen n ≤ 16 ^ ((bitLen n + 3) / 4) := by
      rw [show (16 : Nat) = 2 ^ 4 by rfl, ← Nat.pow_mul]
      exact Nat.pow_le_pow_right (by decide) (by omega)
    omega
  have hne : HexFormat.render { upperCase := upper } n ≠ [] := by
    by_cases h0 : n = 0
    · subst h0
      simp [HexFormat.render]
    · have hb : (bitLen n + 3) / 4 = (bitLen n - 1) / 4 + 1 := by
        have := lt_two_pow_bitLen n
        have : bitLen n ≠ 0 := fun h => by
          rw [h] at this
          omega
        omega
      simp [HexFormat.render, hb, hexDigits]
  rw [plainHex, if_neg hne, HexFormat.render, List.nil_append, hexFrom_zeros, hexFrom_hexDigits,
    Nat.mod_eq_of_lt hn, Nat.zero_mul, Nat.zero_add]

end Sys2Proof.Machine
end

