-- ==== Sys2Proof/Laws/Memory.lean ====
section
/-! SUPPORT. Laws of the data buffer: read after write, and the canonical form every operation keeps. -/

namespace Sys2Proof.Machine

@[simp] theorem Memory.read_nil (a : Nat) : Memory.read [] a = 0 := rfl

theorem Memory.read_entry_same (m : Memory) (a : Nat) (v : Byte) (h : Memory.read m a = 0) :
    (Memory.entry a v m).read a = v := by
  unfold Memory.entry
  split
  · simp_all [Memory.unlisted]
  · simp [Memory.read]

theorem Memory.read_entry_other (m : Memory) {a b : Nat} (v : Byte) (h : b ≠ a) :
    (Memory.entry a v m).read b = m.read b := by
  unfold Memory.entry
  split
  · rfl
  · simp [Memory.read, h]

/-- An index below every listed one is not listed. -/
theorem Memory.read_of_lt (m : Memory) (a : Nat) (h : ∀ c ∈ m, a < c.1) : m.read a = 0 := by
  induction m with
  | nil => rfl
  | cons c m ih =>
    have hc := h c (by simp)
    rw [Memory.read, if_neg (by omega), ih fun d hd => h d (by simp [hd])]

theorem Memory.wf_cons {c : Host.Cell} {m : Memory} (h : Memory.wf (c :: m)) :
    Memory.wf m ∧ (∀ d ∈ m, c.1 < d.1) ∧ c.2 ≠ Memory.unlisted := by
  obtain ⟨hs, hz⟩ := h
  rw [List.pairwise_cons] at hs
  exact ⟨⟨hs.2, fun d hd => hz d (by simp [hd])⟩, hs.1, hz c (by simp)⟩

theorem Memory.read_write_same (m : Memory) (a : Nat) (v : Byte) (h : m.wf) : (m.write a v).read a = v := by
  induction m with
  | nil => exact Memory.read_entry_same [] a v rfl
  | cons c m ih =>
    obtain ⟨hm, hlt, -⟩ := Memory.wf_cons h
    rw [Memory.write]
    split
    · rename_i hac
      refine Memory.read_entry_same _ a v (Memory.read_of_lt _ a ?_)
      intro d hd
      rcases List.mem_cons.1 hd with rfl | hd
      · exact hac
      · exact Nat.lt_trans hac (hlt d hd)
    split
    · rename_i hac
      subst hac
      exact Memory.read_entry_same _ _ v (Memory.read_of_lt _ _ hlt)
    · rename_i hac
      rw [Memory.read, if_neg hac, ih hm]

theorem Memory.read_write_other (m : Memory) {a b : Nat} (v : Byte) (h : b ≠ a) : (m.write a v).read b = m.read b := by
  induction m with
  | nil => exact Memory.read_entry_other [] v h
  | cons c m ih =>
    rw [Memory.write]
    split
    · exact Memory.read_entry_other _ v h
    split
    · rename_i hac
      subst hac
      rw [Memory.read_entry_other _ v h, Memory.read, if_neg h]
    · rw [Memory.read, Memory.read, ih]

/-- Whatever is listed after a write is the written index or was listed before. -/
theorem Memory.mem_write (m : Memory) (a : Nat) (v : Byte) (d : Host.Cell) (h : d ∈ m.write a v) : d.1 = a ∨ d ∈ m := by
  have entry_mem : ∀ (m' : Memory), d ∈ Memory.entry a v m' → d.1 = a ∨ d ∈ m' := fun m' hd => by
    unfold Memory.entry at hd
    split at hd
    · exact .inr hd
    · rcases List.mem_cons.1 hd with rfl | hd
      · exact .inl rfl
      · exact .inr hd
  induction m with
  | nil => exact entry_mem [] h
  | cons c m ih =>
    rw [Memory.write] at h
    split at h
    · exact entry_mem _ h
    split at h
    · rcases entry_mem _ h with h | h
      · exact .inl h
      · exact .inr (by simp [h])
    · rcases List.mem_cons.1 h with rfl | h
      · exact .inr (by simp)
      · rcases ih h with h | h
        · exact .inl h
        · exact .inr (by simp [h])

theorem Memory.wf_entry (m : Memory) (a : Nat) (v : Byte) (hm : m.wf) (ha : ∀ c ∈ m, a < c.1) :
    (Memory.entry a v m).wf := by
  unfold Memory.entry
  split
  · exact hm
  · rename_i hv
    refine ⟨List.pairwise_cons.2 ⟨ha, hm.1⟩, fun c hc => ?_⟩
    rcases List.mem_cons.1 hc with rfl | hc
    · exact hv
    · exact hm.2 c hc

/-- A write keeps the canonical form. -/
theorem Memory.wf_write (m : Memory) (a : Nat) (v : Byte) (h : m.wf) : (m.write a v).wf := by
  induction m with
  | nil => exact Memory.wf_entry [] a v h (by simp)
  | cons c m ih =>
    obtain ⟨hm, hlt, hc⟩ := Memory.wf_cons h
    rw [Memory.write]
    split
    · rename_i hac
      refine Memory.wf_entry _ a v h fun d hd => ?_
      rcases List.mem_cons.1 hd with rfl | hd
      · exact hac
      · exact Nat.lt_trans hac (hlt d hd)
    split
    · rename_i hac
      subst hac
      exact Memory.wf_entry m _ v hm hlt
    · rename_i h1 h2
      refine ⟨List.pairwise_cons.2 ⟨fun d hd => ?_, (ih hm).1⟩, fun d hd => ?_⟩
      · rcases Memory.mem_write m a v d hd with h3 | h3
        · omega
        · exact hlt d h3
      · rcases List.mem_cons.1 hd with rfl | hd
        · exact hc
        · exact (ih hm).2 d hd

theorem Memory.below_write (m : Memory) (a n : Nat) (v : Byte) (h : m.below n) (ha : a < n) : (m.write a v).below n :=
  fun d hd => by
    rcases Memory.mem_write m a v d hd with h1 | h1
    · omega
    · exact h d h1

/-! ### Byte strings -/

theorem Memory.length_readBytes (m : Memory) (a n : Nat) : (m.readBytes a n).length = n := by
  induction n generalizing a with
  | zero => rfl
  | succ n ih => simp [Memory.readBytes, ih]

theorem Memory.getElem_readBytes (m : Memory) (a n i : Nat) (h : i < n) :
    (m.readBytes a n)[i]? = some (m.read (a + i)) := by
  induction n generalizing a i with
  | zero => omega
  | succ n ih =>
    cases i with
    | zero => rfl
    | succ i =>
      rw [Memory.readBytes, List.getElem?_cons_succ, ih (a + 1) i (by omega)]
      congr 2
      omega

theorem Memory.readBytes_congr (m m' : Memory) (a n : Nat) (h : ∀ i, i < n → m.read (a + i) = m'.read (a + i)) :
    m.readBytes a n = m'.readBytes a n := by
  induction n generalizing a with
  | zero => rfl
  | succ n ih =>
    have h0 := h 0 (by omega)
    rw [Nat.add_zero] at h0
    rw [Memory.readBytes, Memory.readBytes, h0, ih (a + 1)]
    intro i hi
    have := h (i + 1) (by omega)
    rwa [show a + (i + 1) = a + 1 + i by omega] at this

theorem Memory.readBytes_append (m : Memory) (a k n : Nat) :
    m.readBytes a (k + n) = m.readBytes a k ++ m.readBytes (a + k) n := by
  induction k generalizing a with
  | zero => simp [Memory.readBytes]
  | succ k ih =>
    rw [show k + 1 + n = (k + n) + 1 by omega, Memory.readBytes, Memory.readBytes, ih, List.cons_append,
      show a + 1 + k = a + (k + 1) by omega]

theorem Memory.read_writeBytes_outside (m : Memory) (a b : Nat) (bs : List Byte) (h : b < a ∨ a + bs.length ≤ b) :
    (m.writeBytes a bs).read b = m.read b := by
  induction bs generalizing m a with
  | nil => rfl
  | cons v bs ih =>
    rw [List.length_cons] at h
    rw [Memory.writeBytes, ih _ _ (by omega), Memory.read_write_other m v (by omega)]

theorem Memory.wf_writeBytes (m : Memory) (a : Nat) (bs : List Byte) (h : m.wf) : (m.writeBytes a bs).wf := by
  induction bs generalizing m a with
  | nil => exact h
  | cons v bs ih => exact ih _ _ (Memory.wf_write m a v h)

theorem Memory.below_writeBytes (m : Memory) (a n : Nat) (bs : List Byte) (h : m.below n) (ha : a + bs.length ≤ n) :
    (m.writeBytes a bs).below n := by
  induction bs generalizing m a with
  | nil => exact h
  | cons v bs ih =>
    rw [List.length_cons] at ha
    exact ih _ _ (Memory.below_write m a n v h (by omega)) (by omega)

theorem Memory.read_writeBytes_inside (m : Memory) (a : Nat) (bs : List Byte) (i : Nat) (hm : m.wf)
    (hi : i < bs.length) : some ((m.writeBytes a bs).read (a + i)) = bs[i]? := by
  induction bs generalizing m a i with
  | nil => simp at hi
  | cons v bs ih =>
    rw [Memory.writeBytes]
    cases i with
    | zero =>
      change some (((m.write a v).writeBytes (a + 1) bs).read a) = some v
      rw [Memory.read_writeBytes_outside _ _ _ _ (by omega), Memory.read_write_same m a v hm]
    | succ i =>
      rw [List.length_cons] at hi
      rw [show a + (i + 1) = a + 1 + i by omega, ih _ _ i (Memory.wf_write m a v hm) (by omega)]
      rfl

/-- The bytes written are the bytes read back. -/
theorem Memory.readBytes_writeBytes (m : Memory) (a : Nat) (bs : List Byte) (hm : m.wf) :
    (m.writeBytes a bs).readBytes a bs.length = bs := by
  apply List.ext_getElem?
  intro i
  by_cases hi : i < bs.length
  · rw [Memory.getElem_readBytes _ _ _ _ hi, Memory.read_writeBytes_inside m a bs i hm hi]
  · rw [List.getElem?_eq_none (by rw [Memory.length_readBytes]; omega), List.getElem?_eq_none (by omega)]

end Sys2Proof.Machine
end

