-- ==== Sys2Proof/Laws/NumberTheory.lean ====
section
/-! SUPPORT. Laws of the primality test's parts: the power of two in `n - 1`, the squarings of a round. -/

namespace Sys2Proof.Machine

/-- The power of two and the odd part, whatever fuel is enough for the number (44 R225). -/
theorem twoPart_eq (fuel m s d : Nat) (h : m = 2 ^ s * d) (hd : d % 2 = 1) (hf : m < 2 ^ fuel) :
    twoPart fuel m = (s, d) := by
  induction fuel generalizing m s with
  | zero =>
    have : 0 < 2 ^ s * d := Nat.mul_pos (by positivity) (by omega)
    omega
  | succ fuel ih =>
    rw [twoPart]
    cases s with
    | zero =>
      rw [if_neg (by omega)]
      simp [h]
    | succ s =>
      have e : m = 2 * (2 ^ s * d) := by rw [h]; ring
      rw [if_pos (by omega), ih (m / 2) s (by omega) (by rw [pow_succ] at hf; omega)]

/-- The `k` squarings hit `n - 1` exactly where one of the first `k` repeated squares is `n - 1` (44 R225). -/
theorem squaringsHit_iff (n k x : Nat) :
    squaringsHit n k (x % n) = true ↔ ∃ i, 1 ≤ i ∧ i ≤ k ∧ x ^ 2 ^ i % n = n - 1 := by
  induction k generalizing x with
  | zero =>
    constructor
    · intro h
      cases h
    · rintro ⟨i, h1, h2, -⟩
      omega
  | succ k ih =>
    have square : x % n * (x % n) % n = x ^ 2 % n := by rw [pow_two, ← Nat.mul_mod]
    rw [squaringsHit, square]
    by_cases h : x ^ 2 % n = n - 1
    · rw [if_pos h]
      exact ⟨fun _ => ⟨1, by omega, by omega, by simpa using h⟩, fun _ => rfl⟩
    · rw [if_neg h, ih]
      constructor
      · rintro ⟨i, h1, h2, h3⟩
        exact ⟨i + 1, by omega, by omega, by rwa [pow_succ' 2 i, pow_mul]⟩
      · rintro ⟨i, h1, h2, h3⟩
        obtain ⟨i, rfl⟩ : ∃ j, i = j + 1 := ⟨i - 1, by omega⟩
        rw [pow_succ' 2 i, pow_mul] at h3
        rcases Nat.eq_zero_or_pos i with rfl | hi
        · exact absurd (by simpa using h3) h
        · exact ⟨i, hi, by omega, h3⟩

end Sys2Proof.Machine
end

