-- ==== Sys2Proof/Laws/PerInstr.lean ====
section
/-! SUPPORT. Statements about every command, as one lemma per constructor. -/

namespace Sys2Proof.Laws.OwnRow

/-- The word of a command matches its own row of the opcode table (30 R92). -/
def Statement (i : Instr) : Prop := encode i &&& i.mask = i.pattern

theorem kexp : Statement .kexp := rfl
theorem rkey : Statement .rkey := rfl

/-- Whatever stands in `ARG`, the mask of ARK's row clears it. -/
theorem mask_clears_arg : ∀ b : BitVec 8, ((0 : BitVec 16) ++ (b ++ arkOp)) &&& 0xFFFF00FF = arkOp.setWidth 32 := by
  decide

theorem ark (round : Nat) : Statement (.ark round) := mask_clears_arg _

theorem subb : Statement .subb := rfl
theorem shrow : Statement .shrow := rfl
theorem mixc : Statement .mixc := rfl
theorem isubb : Statement .isubb := rfl
theorem ishrow : Statement .ishrow := rfl
theorem imixc : Statement .imixc := rfl
theorem encb : Statement .encb := rfl
theorem decb : Statement .decb := rfl
theorem pad : Statement .pad := rfl
theorem unpad : Statement .unpad := rfl
theorem encm : Statement .encm := rfl
theorem decm : Statement .decm := rfl
theorem egcd : Statement .egcd := rfl
theorem minv : Statement .minv := rfl
theorem ptst : Statement .ptst := rfl
theorem pgen : Statement .pgen := rfl
theorem mexp : Statement .mexp := rfl
theorem kgen : Statement .kgen := rfl
theorem renc : Statement .renc := rfl
theorem rdec : Statement .rdec := rfl

end Sys2Proof.Laws.OwnRow
end

