-- ==== Sys2Proof/Laws/Random.lean ====
section
/-! SUPPORT. Laws of the random source's answers. -/

namespace Sys2Proof.Machine

theorem Rng.next_cons (a : Option Byte) (rest : List (Option Byte)) (u : Nat) :
    Rng.next { script := a :: rest, used := u } = (a, { script := rest, used := u }) := rfl

theorem Rng.draw_zero (g : Rng) : Rng.draw 0 g = (some [], g) := rfl

/-- Everything a draw of one byte and then more can answer. -/
theorem Rng.draw_succ_cases (k : Nat) (g g' : Rng) (r : Option (List Byte)) (h : Rng.draw (k + 1) g = (r, g')) :
    (r = none ∧ g.next = (none, g')) ∨
    (∃ b g1, g.next = (some b, g1) ∧ r = none ∧ Rng.draw k g1 = (none, g')) ∨
    (∃ b g1 bs, g.next = (some b, g1) ∧ r = some (b :: bs) ∧ Rng.draw k g1 = (some bs, g')) := by
  rw [Rng.draw] at h
  split at h
  · rename_i g1 h1
    cases h
    exact .inl ⟨rfl, h1⟩
  · rename_i b g1 h1
    split at h
    · rename_i g2 h2
      cases h
      exact .inr (.inl ⟨b, g1, h1, rfl, h2⟩)
    · rename_i bs g2 h2
      cases h
      exact .inr (.inr ⟨b, g1, bs, h1, rfl, h2⟩)

end Sys2Proof.Machine
end

