-- ==== Sys2Proof/Laws/State.lean ====
section
/-! SUPPORT. One lemma per field per named update of the state and of `STATUS`, true by computation, so that no later proof
unfolds an update. -/

namespace Sys2Proof.Machine

/-! ### `State.start` -/

@[simp] theorem State.start_cfg (s : State) (c : Word) : (s.start c).cfg = s.cfg := rfl
@[simp] theorem State.start_status (s : State) (c : Word) : (s.start c).status = s.status.started := rfl
@[simp] theorem State.start_oplatch (s : State) (c : Word) : (s.start c).oplatch = c := rfl
@[simp] theorem State.start_kbits (s : State) (c : Word) : (s.start c).kbits = s.kbits := rfl
@[simp] theorem State.start_keylen (s : State) (c : Word) : (s.start c).keylen = s.keylen := rfl
@[simp] theorem State.start_key (s : State) (c : Word) : (s.start c).key = s.key := rfl
@[simp] theorem State.start_blk (s : State) (c : Word) : (s.start c).blk = s.blk := rfl
@[simp] theorem State.start_w (s : State) (c : Word) : (s.start c).w = s.w := rfl
@[simp] theorem State.start_dlen (s : State) (c : Word) : (s.start c).dlen = s.dlen := rfl
@[simp] theorem State.start_dmem (s : State) (c : Word) : (s.start c).dmem = s.dmem := rfl
@[simp] theorem State.start_ntbits (s : State) (c : Word) : (s.start c).ntbits = s.ntbits := rfl
@[simp] theorem State.start_ntrounds (s : State) (c : Word) : (s.start c).ntrounds = s.ntrounds := rfl
@[simp] theorem State.start_ba (s : State) (c : Word) : (s.start c).ba = s.ba := rfl
@[simp] theorem State.start_bb (s : State) (c : Word) : (s.start c).bb = s.bb := rfl
@[simp] theorem State.start_bm (s : State) (c : Word) : (s.start c).bm = s.bm := rfl
@[simp] theorem State.start_br (s : State) (c : Word) : (s.start c).br = s.br := rfl
@[simp] theorem State.start_bx (s : State) (c : Word) : (s.start c).bx = s.bx := rfl
@[simp] theorem State.start_bY (s : State) (c : Word) : (s.start c).bY = s.bY := rfl
@[simp] theorem State.start_srch (s : State) (c : Word) : (s.start c).srch = .searchingP := rfl
@[simp] theorem State.start_rng (s : State) (c : Word) : (s.start c).rng = s.rng := rfl
@[simp] theorem State.start_events (s : State) (c : Word) : (s.start c).events = s.events := rfl
@[simp] theorem State.start_replies (s : State) (c : Word) : (s.start c).replies = s.replies := rfl

/-! ### `State.endWith` -/

@[simp] theorem State.endWith_cfg (s : State) (e : ErrCode) : (s.endWith e).cfg = s.cfg := rfl
@[simp] theorem State.endWith_status (s : State) (e : ErrCode) : (s.endWith e).status = s.status.ended e := rfl
@[simp] theorem State.endWith_oplatch (s : State) (e : ErrCode) : (s.endWith e).oplatch = s.oplatch := rfl
@[simp] theorem State.endWith_kbits (s : State) (e : ErrCode) : (s.endWith e).kbits = s.kbits := rfl
@[simp] theorem State.endWith_keylen (s : State) (e : ErrCode) : (s.endWith e).keylen = s.keylen := rfl
@[simp] theorem State.endWith_key (s : State) (e : ErrCode) : (s.endWith e).key = s.key := rfl
@[simp] theorem State.endWith_blk (s : State) (e : ErrCode) : (s.endWith e).blk = s.blk := rfl
@[simp] theorem State.endWith_w (s : State) (e : ErrCode) : (s.endWith e).w = s.w := rfl
@[simp] theorem State.endWith_dlen (s : State) (e : ErrCode) : (s.endWith e).dlen = s.dlen := rfl
@[simp] theorem State.endWith_dmem (s : State) (e : ErrCode) : (s.endWith e).dmem = s.dmem := rfl
@[simp] theorem State.endWith_ntbits (s : State) (e : ErrCode) : (s.endWith e).ntbits = s.ntbits := rfl
@[simp] theorem State.endWith_ntrounds (s : State) (e : ErrCode) : (s.endWith e).ntrounds = s.ntrounds := rfl
@[simp] theorem State.endWith_ba (s : State) (e : ErrCode) : (s.endWith e).ba = s.ba := rfl
@[simp] theorem State.endWith_bb (s : State) (e : ErrCode) : (s.endWith e).bb = s.bb := rfl
@[simp] theorem State.endWith_bm (s : State) (e : ErrCode) : (s.endWith e).bm = s.bm := rfl
@[simp] theorem State.endWith_br (s : State) (e : ErrCode) : (s.endWith e).br = s.br := rfl
@[simp] theorem State.endWith_bx (s : State) (e : ErrCode) : (s.endWith e).bx = s.bx := rfl
@[simp] theorem State.endWith_bY (s : State) (e : ErrCode) : (s.endWith e).bY = s.bY := rfl
@[simp] theorem State.endWith_srch (s : State) (e : ErrCode) : (s.endWith e).srch = .searchingP := rfl
@[simp] theorem State.endWith_rng (s : State) (e : ErrCode) : (s.endWith e).rng = s.rng := rfl
@[simp] theorem State.endWith_events (s : State) (e : ErrCode) : (s.endWith e).events = s.events := rfl
@[simp] theorem State.endWith_replies (s : State) (e : ErrCode) : (s.endWith e).replies = s.replies := rfl

/-! ### `State.afterDraws` -/

@[simp] theorem State.afterDraws_cfg (s : State) (g : Rng) : (s.afterDraws g).cfg = s.cfg := rfl
@[simp] theorem State.afterDraws_status (s : State) (g : Rng) : (s.afterDraws g).status = s.status := rfl
@[simp] theorem State.afterDraws_oplatch (s : State) (g : Rng) : (s.afterDraws g).oplatch = s.oplatch := rfl
@[simp] theorem State.afterDraws_kbits (s : State) (g : Rng) : (s.afterDraws g).kbits = s.kbits := rfl
@[simp] theorem State.afterDraws_keylen (s : State) (g : Rng) : (s.afterDraws g).keylen = s.keylen := rfl
@[simp] theorem State.afterDraws_key (s : State) (g : Rng) : (s.afterDraws g).key = s.key := rfl
@[simp] theorem State.afterDraws_blk (s : State) (g : Rng) : (s.afterDraws g).blk = s.blk := rfl
@[simp] theorem State.afterDraws_w (s : State) (g : Rng) : (s.afterDraws g).w = s.w := rfl
@[simp] theorem State.afterDraws_dlen (s : State) (g : Rng) : (s.afterDraws g).dlen = s.dlen := rfl
@[simp] theorem State.afterDraws_dmem (s : State) (g : Rng) : (s.afterDraws g).dmem = s.dmem := rfl
@[simp] theorem State.afterDraws_ntbits (s : State) (g : Rng) : (s.afterDraws g).ntbits = s.ntbits := rfl
@[simp] theorem State.afterDraws_ntrounds (s : State) (g : Rng) : (s.afterDraws g).ntrounds = s.ntrounds := rfl
@[simp] theorem State.afterDraws_ba (s : State) (g : Rng) : (s.afterDraws g).ba = s.ba := rfl
@[simp] theorem State.afterDraws_bb (s : State) (g : Rng) : (s.afterDraws g).bb = s.bb := rfl
@[simp] theorem State.afterDraws_bm (s : State) (g : Rng) : (s.afterDraws g).bm = s.bm := rfl
@[simp] theorem State.afterDraws_br (s : State) (g : Rng) : (s.afterDraws g).br = s.br := rfl
@[simp] theorem State.afterDraws_bx (s : State) (g : Rng) : (s.afterDraws g).bx = s.bx := rfl
@[simp] theorem State.afterDraws_bY (s : State) (g : Rng) : (s.afterDraws g).bY = s.bY := rfl
@[simp] theorem State.afterDraws_srch (s : State) (g : Rng) : (s.afterDraws g).srch = s.srch := rfl
@[simp] theorem State.afterDraws_rng (s : State) (g : Rng) : (s.afterDraws g).rng = g := rfl
@[simp] theorem State.afterDraws_events (s : State) (g : Rng) : (s.afterDraws g).events = s.events := rfl
@[simp] theorem State.afterDraws_replies (s : State) (g : Rng) : (s.afterDraws g).replies = s.replies := rfl

/-! ### `State.abort` -/

@[simp] theorem State.abort_cfg (s : State) : s.abort.cfg = s.cfg := rfl
@[simp] theorem State.abort_status (s : State) : s.abort.status = s.status.ended .aborted := rfl
@[simp] theorem State.abort_oplatch (s : State) : s.abort.oplatch = s.oplatch := rfl
@[simp] theorem State.abort_kbits (s : State) : s.abort.kbits = s.kbits := rfl
@[simp] theorem State.abort_keylen (s : State) : s.abort.keylen = s.keylen := rfl
@[simp] theorem State.abort_key (s : State) : s.abort.key = s.key := rfl
@[simp] theorem State.abort_blk (s : State) : s.abort.blk = s.blk := rfl
@[simp] theorem State.abort_w (s : State) : s.abort.w = s.w := rfl
@[simp] theorem State.abort_dlen (s : State) : s.abort.dlen = s.dlen := rfl
@[simp] theorem State.abort_dmem (s : State) : s.abort.dmem = s.dmem := rfl
@[simp] theorem State.abort_ntbits (s : State) : s.abort.ntbits = s.ntbits := rfl
@[simp] theorem State.abort_ntrounds (s : State) : s.abort.ntrounds = s.ntrounds := rfl
@[simp] theorem State.abort_ba (s : State) : s.abort.ba = s.ba := rfl
@[simp] theorem State.abort_bb (s : State) : s.abort.bb = s.bb := rfl
@[simp] theorem State.abort_bm (s : State) : s.abort.bm = s.bm := rfl
@[simp] theorem State.abort_br (s : State) : s.abort.br = s.br := rfl
@[simp] theorem State.abort_bx (s : State) : s.abort.bx = s.bx := rfl
@[simp] theorem State.abort_bY (s : State) : s.abort.bY = s.bY := rfl
@[simp] theorem State.abort_srch (s : State) : s.abort.srch = .searchingP := rfl
@[simp] theorem State.abort_rng (s : State) : s.abort.rng = s.rng := rfl
@[simp] theorem State.abort_events (s : State) : s.abort.events = s.events := rfl
@[simp] theorem State.abort_replies (s : State) : s.abort.replies = s.replies := rfl

/-! ### `State.setBav` -/

@[simp] theorem State.setBav_cfg (s : State) : s.setBav.cfg = s.cfg := rfl
@[simp] theorem State.setBav_status (s : State) : s.setBav.status = { s.status with bav := true } := rfl
@[simp] theorem State.setBav_oplatch (s : State) : s.setBav.oplatch = s.oplatch := rfl
@[simp] theorem State.setBav_kbits (s : State) : s.setBav.kbits = s.kbits := rfl
@[simp] theorem State.setBav_keylen (s : State) : s.setBav.keylen = s.keylen := rfl
@[simp] theorem State.setBav_key (s : State) : s.setBav.key = s.key := rfl
@[simp] theorem State.setBav_blk (s : State) : s.setBav.blk = s.blk := rfl
@[simp] theorem State.setBav_w (s : State) : s.setBav.w = s.w := rfl
@[simp] theorem State.setBav_dlen (s : State) : s.setBav.dlen = s.dlen := rfl
@[simp] theorem State.setBav_dmem (s : State) : s.setBav.dmem = s.dmem := rfl
@[simp] theorem State.setBav_ntbits (s : State) : s.setBav.ntbits = s.ntbits := rfl
@[simp] theorem State.setBav_ntrounds (s : State) : s.setBav.ntrounds = s.ntrounds := rfl
@[simp] theorem State.setBav_ba (s : State) : s.setBav.ba = s.ba := rfl
@[simp] theorem State.setBav_bb (s : State) : s.setBav.bb = s.bb := rfl
@[simp] theorem State.setBav_bm (s : State) : s.setBav.bm = s.bm := rfl
@[simp] theorem State.setBav_br (s : State) : s.setBav.br = s.br := rfl
@[simp] theorem State.setBav_bx (s : State) : s.setBav.bx = s.bx := rfl
@[simp] theorem State.setBav_bY (s : State) : s.setBav.bY = s.bY := rfl
@[simp] theorem State.setBav_srch (s : State) : s.setBav.srch = s.srch := rfl
@[simp] theorem State.setBav_rng (s : State) : s.setBav.rng = s.rng := rfl
@[simp] theorem State.setBav_events (s : State) : s.setBav.events = s.events := rfl
@[simp] theorem State.setBav_replies (s : State) : s.setBav.replies = s.replies := rfl

/-! ### `State.withLen` -/

@[simp] theorem State.withLen_cfg (s : State) (n : Nat) : (s.withLen n).cfg = s.cfg := rfl
@[simp] theorem State.withLen_status (s : State) (n : Nat) : (s.withLen n).status = s.status := rfl
@[simp] theorem State.withLen_oplatch (s : State) (n : Nat) : (s.withLen n).oplatch = s.oplatch := rfl
@[simp] theorem State.withLen_kbits (s : State) (n : Nat) : (s.withLen n).kbits = s.kbits := rfl
@[simp] theorem State.withLen_keylen (s : State) (n : Nat) : (s.withLen n).keylen = s.keylen := rfl
@[simp] theorem State.withLen_key (s : State) (n : Nat) : (s.withLen n).key = s.key := rfl
@[simp] theorem State.withLen_blk (s : State) (n : Nat) : (s.withLen n).blk = s.blk := rfl
@[simp] theorem State.withLen_w (s : State) (n : Nat) : (s.withLen n).w = s.w := rfl
@[simp] theorem State.withLen_dlen (s : State) (n : Nat) : (s.withLen n).dlen = BitVec.ofNat 32 n := rfl
@[simp] theorem State.withLen_dmem (s : State) (n : Nat) : (s.withLen n).dmem = s.dmem := rfl
@[simp] theorem State.withLen_ntbits (s : State) (n : Nat) : (s.withLen n).ntbits = s.ntbits := rfl
@[simp] theorem State.withLen_ntrounds (s : State) (n : Nat) : (s.withLen n).ntrounds = s.ntrounds := rfl
@[simp] theorem State.withLen_ba (s : State) (n : Nat) : (s.withLen n).ba = s.ba := rfl
@[simp] theorem State.withLen_bb (s : State) (n : Nat) : (s.withLen n).bb = s.bb := rfl
@[simp] theorem State.withLen_bm (s : State) (n : Nat) : (s.withLen n).bm = s.bm := rfl
@[simp] theorem State.withLen_br (s : State) (n : Nat) : (s.withLen n).br = s.br := rfl
@[simp] theorem State.withLen_bx (s : State) (n : Nat) : (s.withLen n).bx = s.bx := rfl
@[simp] theorem State.withLen_bY (s : State) (n : Nat) : (s.withLen n).bY = s.bY := rfl
@[simp] theorem State.withLen_srch (s : State) (n : Nat) : (s.withLen n).srch = s.srch := rfl
@[simp] theorem State.withLen_rng (s : State) (n : Nat) : (s.withLen n).rng = s.rng := rfl
@[simp] theorem State.withLen_events (s : State) (n : Nat) : (s.withLen n).events = s.events := rfl
@[simp] theorem State.withLen_replies (s : State) (n : Nat) : (s.withLen n).replies = s.replies := rfl

/-! ### `State.takeTurn` -/

@[simp] theorem State.takeTurn_cfg (s : State) : s.takeTurn.cfg = s.cfg := rfl
@[simp] theorem State.takeTurn_status (s : State) : s.takeTurn.status = s.status := rfl
@[simp] theorem State.takeTurn_oplatch (s : State) : s.takeTurn.oplatch = s.oplatch := rfl
@[simp] theorem State.takeTurn_kbits (s : State) : s.takeTurn.kbits = s.kbits := rfl
@[simp] theorem State.takeTurn_keylen (s : State) : s.takeTurn.keylen = s.keylen := rfl
@[simp] theorem State.takeTurn_key (s : State) : s.takeTurn.key = s.key := rfl
@[simp] theorem State.takeTurn_blk (s : State) : s.takeTurn.blk = s.blk := rfl
@[simp] theorem State.takeTurn_w (s : State) : s.takeTurn.w = s.w := rfl
@[simp] theorem State.takeTurn_dlen (s : State) : s.takeTurn.dlen = s.dlen := rfl
@[simp] theorem State.takeTurn_dmem (s : State) : s.takeTurn.dmem = s.dmem := rfl
@[simp] theorem State.takeTurn_ntbits (s : State) : s.takeTurn.ntbits = s.ntbits := rfl
@[simp] theorem State.takeTurn_ntrounds (s : State) : s.takeTurn.ntrounds = s.ntrounds := rfl
@[simp] theorem State.takeTurn_ba (s : State) : s.takeTurn.ba = s.ba := rfl
@[simp] theorem State.takeTurn_bb (s : State) : s.takeTurn.bb = s.bb := rfl
@[simp] theorem State.takeTurn_bm (s : State) : s.takeTurn.bm = s.bm := rfl
@[simp] theorem State.takeTurn_br (s : State) : s.takeTurn.br = s.br := rfl
@[simp] theorem State.takeTurn_bx (s : State) : s.takeTurn.bx = s.bx := rfl
@[simp] theorem State.takeTurn_bY (s : State) : s.takeTurn.bY = s.bY := rfl
@[simp] theorem State.takeTurn_srch (s : State) : s.takeTurn.srch = s.srch := rfl
@[simp] theorem State.takeTurn_rng (s : State) : s.takeTurn.rng = s.rng := rfl
@[simp] theorem State.takeTurn_events (s : State) : s.takeTurn.events = s.events.tail := rfl
@[simp] theorem State.takeTurn_replies (s : State) : s.takeTurn.replies = s.replies := rfl

/-! ### `State.answered` -/

@[simp] theorem State.answered_cfg (s : State) (r : Reply) : (s.answered r).cfg = s.cfg := rfl
@[simp] theorem State.answered_status (s : State) (r : Reply) : (s.answered r).status = s.status := rfl
@[simp] theorem State.answered_oplatch (s : State) (r : Reply) : (s.answered r).oplatch = s.oplatch := rfl
@[simp] theorem State.answered_kbits (s : State) (r : Reply) : (s.answered r).kbits = s.kbits := rfl
@[simp] theorem State.answered_keylen (s : State) (r : Reply) : (s.answered r).keylen = s.keylen := rfl
@[simp] theorem State.answered_key (s : State) (r : Reply) : (s.answered r).key = s.key := rfl
@[simp] theorem State.answered_blk (s : State) (r : Reply) : (s.answered r).blk = s.blk := rfl
@[simp] theorem State.answered_w (s : State) (r : Reply) : (s.answered r).w = s.w := rfl
@[simp] theorem State.answered_dlen (s : State) (r : Reply) : (s.answered r).dlen = s.dlen := rfl
@[simp] theorem State.answered_dmem (s : State) (r : Reply) : (s.answered r).dmem = s.dmem := rfl
@[simp] theorem State.answered_ntbits (s : State) (r : Reply) : (s.answered r).ntbits = s.ntbits := rfl
@[simp] theorem State.answered_ntrounds (s : State) (r : Reply) : (s.answered r).ntrounds = s.ntrounds := rfl
@[simp] theorem State.answered_ba (s : State) (r : Reply) : (s.answered r).ba = s.ba := rfl
@[simp] theorem State.answered_bb (s : State) (r : Reply) : (s.answered r).bb = s.bb := rfl
@[simp] theorem State.answered_bm (s : State) (r : Reply) : (s.answered r).bm = s.bm := rfl
@[simp] theorem State.answered_br (s : State) (r : Reply) : (s.answered r).br = s.br := rfl
@[simp] theorem State.answered_bx (s : State) (r : Reply) : (s.answered r).bx = s.bx := rfl
@[simp] theorem State.answered_bY (s : State) (r : Reply) : (s.answered r).bY = s.bY := rfl
@[simp] theorem State.answered_srch (s : State) (r : Reply) : (s.answered r).srch = s.srch := rfl
@[simp] theorem State.answered_rng (s : State) (r : Reply) : (s.answered r).rng = s.rng := rfl
@[simp] theorem State.answered_events (s : State) (r : Reply) : (s.answered r).events = s.events.tail := rfl
@[simp] theorem State.answered_replies (s : State) (r : Reply) : (s.answered r).replies = r :: s.replies := rfl

/-! ### `State.withCommand` -/

@[simp] theorem State.withCommand_cfg (s : State) (c : Word) : (s.withCommand c).cfg = s.cfg := rfl
@[simp] theorem State.withCommand_status (s : State) (c : Word) : (s.withCommand c).status = s.status.started := rfl
@[simp] theorem State.withCommand_oplatch (s : State) (c : Word) : (s.withCommand c).oplatch = c := rfl
@[simp] theorem State.withCommand_kbits (s : State) (c : Word) : (s.withCommand c).kbits = s.kbits := rfl
@[simp] theorem State.withCommand_keylen (s : State) (c : Word) : (s.withCommand c).keylen = s.keylen := rfl
@[simp] theorem State.withCommand_key (s : State) (c : Word) : (s.withCommand c).key = s.key := rfl
@[simp] theorem State.withCommand_blk (s : State) (c : Word) : (s.withCommand c).blk = s.blk := rfl
@[simp] theorem State.withCommand_w (s : State) (c : Word) : (s.withCommand c).w = s.w := rfl
@[simp] theorem State.withCommand_dlen (s : State) (c : Word) : (s.withCommand c).dlen = s.dlen := rfl
@[simp] theorem State.withCommand_dmem (s : State) (c : Word) : (s.withCommand c).dmem = s.dmem := rfl
@[simp] theorem State.withCommand_ntbits (s : State) (c : Word) : (s.withCommand c).ntbits = s.ntbits := rfl
@[simp] theorem State.withCommand_ntrounds (s : State) (c : Word) : (s.withCommand c).ntrounds = s.ntrounds := rfl
@[simp] theorem State.withCommand_ba (s : State) (c : Word) : (s.withCommand c).ba = s.ba := rfl
@[simp] theorem State.withCommand_bb (s : State) (c : Word) : (s.withCommand c).bb = s.bb := rfl
@[simp] theorem State.withCommand_bm (s : State) (c : Word) : (s.withCommand c).bm = s.bm := rfl
@[simp] theorem State.withCommand_br (s : State) (c : Word) : (s.withCommand c).br = s.br := rfl
@[simp] theorem State.withCommand_bx (s : State) (c : Word) : (s.withCommand c).bx = s.bx := rfl
@[simp] theorem State.withCommand_bY (s : State) (c : Word) : (s.withCommand c).bY = s.bY := rfl
@[simp] theorem State.withCommand_srch (s : State) (c : Word) : (s.withCommand c).srch = .searchingP := rfl
@[simp] theorem State.withCommand_rng (s : State) (c : Word) : (s.withCommand c).rng = s.rng := rfl
@[simp] theorem State.withCommand_events (s : State) (c : Word) : (s.withCommand c).events = .engine :: s.events := rfl
@[simp] theorem State.withCommand_replies (s : State) (c : Word) : (s.withCommand c).replies = s.replies := rfl

/-! ### `State.doReset` -/

@[simp] theorem State.doReset_cfg (s : State) : s.doReset.cfg = s.cfg := rfl
@[simp] theorem State.doReset_status (s : State) : s.doReset.status = Status.reset := rfl
@[simp] theorem State.doReset_oplatch (s : State) : s.doReset.oplatch = 0 := rfl
@[simp] theorem State.doReset_kbits (s : State) : s.doReset.kbits = 0 := rfl
@[simp] theorem State.doReset_keylen (s : State) : s.doReset.keylen = 0 := rfl
@[simp] theorem State.doReset_key (s : State) : s.doReset.key = Vector.replicate 32 0 := rfl
@[simp] theorem State.doReset_blk (s : State) : s.doReset.blk = Vector.replicate 16 0 := rfl
@[simp] theorem State.doReset_w (s : State) : s.doReset.w = Vector.replicate 60 0 := rfl
@[simp] theorem State.doReset_dlen (s : State) : s.doReset.dlen = 0 := rfl
@[simp] theorem State.doReset_dmem (s : State) : s.doReset.dmem = [] := rfl
@[simp] theorem State.doReset_ntbits (s : State) : s.doReset.ntbits = 0 := rfl
@[simp] theorem State.doReset_ntrounds (s : State) : s.doReset.ntrounds = 10 := rfl
@[simp] theorem State.doReset_ba (s : State) : s.doReset.ba = 0 := rfl
@[simp] theorem State.doReset_bb (s : State) : s.doReset.bb = 0 := rfl
@[simp] theorem State.doReset_bm (s : State) : s.doReset.bm = 0 := rfl
@[simp] theorem State.doReset_br (s : State) : s.doReset.br = 0 := rfl
@[simp] theorem State.doReset_bx (s : State) : s.doReset.bx = 0 := rfl
@[simp] theorem State.doReset_bY (s : State) : s.doReset.bY = 0 := rfl
@[simp] theorem State.doReset_srch (s : State) : s.doReset.srch = .searchingP := rfl
@[simp] theorem State.doReset_rng (s : State) : s.doReset.rng = s.rng := rfl
@[simp] theorem State.doReset_events (s : State) : s.doReset.events = s.events := rfl
@[simp] theorem State.doReset_replies (s : State) : s.doReset.replies = s.replies := rfl

/-! ### `Status.started` -/

@[simp] theorem Status.started_busy (t : Status) : t.started.busy = true := rfl
@[simp] theorem Status.started_done (t : Status) : t.started.done = false := rfl
@[simp] theorem Status.started_kvalid (t : Status) : t.started.kvalid = t.kvalid := rfl
@[simp] theorem Status.started_prime (t : Status) : t.started.prime = t.prime := rfl
@[simp] theorem Status.started_xneg (t : Status) : t.started.xneg = t.xneg := rfl
@[simp] theorem Status.started_yneg (t : Status) : t.started.yneg = t.yneg := rfl
@[simp] theorem Status.started_bav (t : Status) : t.started.bav = t.bav := rfl
@[simp] theorem Status.started_nr (t : Status) : t.started.nr = t.nr := rfl
@[simp] theorem Status.started_err (t : Status) : t.started.err = .noError := rfl

/-! ### `Status.ended` -/

@[simp] theorem Status.ended_busy (e : ErrCode) (t : Status) : (Status.ended e t).busy = false := rfl
@[simp] theorem Status.ended_done (e : ErrCode) (t : Status) : (Status.ended e t).done = true := rfl
@[simp] theorem Status.ended_kvalid (e : ErrCode) (t : Status) : (Status.ended e t).kvalid = t.kvalid := rfl
@[simp] theorem Status.ended_prime (e : ErrCode) (t : Status) : (Status.ended e t).prime = t.prime := rfl
@[simp] theorem Status.ended_xneg (e : ErrCode) (t : Status) : (Status.ended e t).xneg = t.xneg := rfl
@[simp] theorem Status.ended_yneg (e : ErrCode) (t : Status) : (Status.ended e t).yneg = t.yneg := rfl
@[simp] theorem Status.ended_bav (e : ErrCode) (t : Status) : (Status.ended e t).bav = t.bav := rfl
@[simp] theorem Status.ended_nr (e : ErrCode) (t : Status) : (Status.ended e t).nr = t.nr := rfl
@[simp] theorem Status.ended_err (e : ErrCode) (t : Status) : (Status.ended e t).err = e := rfl

/-! ### `Status.setSchedule` -/

@[simp] theorem Status.setSchedule_busy (n : Nat) (t : Status) : (Status.setSchedule n t).busy = t.busy := rfl
@[simp] theorem Status.setSchedule_done (n : Nat) (t : Status) : (Status.setSchedule n t).done = t.done := rfl
@[simp] theorem Status.setSchedule_kvalid (n : Nat) (t : Status) : (Status.setSchedule n t).kvalid = true := rfl
@[simp] theorem Status.setSchedule_prime (n : Nat) (t : Status) : (Status.setSchedule n t).prime = t.prime := rfl
@[simp] theorem Status.setSchedule_xneg (n : Nat) (t : Status) : (Status.setSchedule n t).xneg = t.xneg := rfl
@[simp] theorem Status.setSchedule_yneg (n : Nat) (t : Status) : (Status.setSchedule n t).yneg = t.yneg := rfl
@[simp] theorem Status.setSchedule_bav (n : Nat) (t : Status) : (Status.setSchedule n t).bav = t.bav := rfl
@[simp] theorem Status.setSchedule_nr (n : Nat) (t : Status) : (Status.setSchedule n t).nr = BitVec.ofNat 4 n := rfl
@[simp] theorem Status.setSchedule_err (n : Nat) (t : Status) : (Status.setSchedule n t).err = t.err := rfl

/-! ### `Status.setPrime` -/

@[simp] theorem Status.setPrime_busy (v : Bool) (t : Status) : (Status.setPrime v t).busy = t.busy := rfl
@[simp] theorem Status.setPrime_done (v : Bool) (t : Status) : (Status.setPrime v t).done = t.done := rfl
@[simp] theorem Status.setPrime_kvalid (v : Bool) (t : Status) : (Status.setPrime v t).kvalid = t.kvalid := rfl
@[simp] theorem Status.setPrime_prime (v : Bool) (t : Status) : (Status.setPrime v t).prime = v := rfl
@[simp] theorem Status.setPrime_xneg (v : Bool) (t : Status) : (Status.setPrime v t).xneg = t.xneg := rfl
@[simp] theorem Status.setPrime_yneg (v : Bool) (t : Status) : (Status.setPrime v t).yneg = t.yneg := rfl
@[simp] theorem Status.setPrime_bav (v : Bool) (t : Status) : (Status.setPrime v t).bav = t.bav := rfl
@[simp] theorem Status.setPrime_nr (v : Bool) (t : Status) : (Status.setPrime v t).nr = t.nr := rfl
@[simp] theorem Status.setPrime_err (v : Bool) (t : Status) : (Status.setPrime v t).err = t.err := rfl

/-! ### `Status.setSigns` -/

@[simp] theorem Status.setSigns_busy (x y : Int) (t : Status) : (Status.setSigns x y t).busy = t.busy := rfl
@[simp] theorem Status.setSigns_done (x y : Int) (t : Status) : (Status.setSigns x y t).done = t.done := rfl
@[simp] theorem Status.setSigns_kvalid (x y : Int) (t : Status) : (Status.setSigns x y t).kvalid = t.kvalid := rfl
@[simp] theorem Status.setSigns_prime (x y : Int) (t : Status) : (Status.setSigns x y t).prime = t.prime := rfl
@[simp] theorem Status.setSigns_xneg (x y : Int) (t : Status) : (Status.setSigns x y t).xneg = decide (x < 0) := rfl
@[simp] theorem Status.setSigns_yneg (x y : Int) (t : Status) : (Status.setSigns x y t).yneg = decide (y < 0) := rfl
@[simp] theorem Status.setSigns_bav (x y : Int) (t : Status) : (Status.setSigns x y t).bav = t.bav := rfl
@[simp] theorem Status.setSigns_nr (x y : Int) (t : Status) : (Status.setSigns x y t).nr = t.nr := rfl
@[simp] theorem Status.setSigns_err (x y : Int) (t : Status) : (Status.setSigns x y t).err = t.err := rfl

/-! ### Big-number registers -/

@[simp] theorem State.getBig_setBig_same (s : State) (b : BigReg) (v : Nat) : (s.setBig b v).getBig b = v := by
  cases b <;> rfl

theorem State.getBig_setBig_other (s : State) {b c : BigReg} (v : Nat) (h : c ≠ b) :
    (s.setBig b v).getBig c = s.getBig c := by
  cases b <;> cases c <;> first | rfl | exact absurd rfl h

@[simp] theorem State.setBig_cfg (s : State) (b : BigReg) (v : Nat) : (s.setBig b v).cfg = s.cfg := by
  cases b <;> rfl
@[simp] theorem State.setBig_status (s : State) (b : BigReg) (v : Nat) : (s.setBig b v).status = s.status := by
  cases b <;> rfl
@[simp] theorem State.setBig_oplatch (s : State) (b : BigReg) (v : Nat) : (s.setBig b v).oplatch = s.oplatch := by
  cases b <;> rfl
@[simp] theorem State.setBig_kbits (s : State) (b : BigReg) (v : Nat) : (s.setBig b v).kbits = s.kbits := by
  cases b <;> rfl
@[simp] theorem State.setBig_keylen (s : State) (b : BigReg) (v : Nat) : (s.setBig b v).keylen = s.keylen := by
  cases b <;> rfl
@[simp] theorem State.setBig_key (s : State) (b : BigReg) (v : Nat) : (s.setBig b v).key = s.key := by
  cases b <;> rfl
@[simp] theorem State.setBig_blk (s : State) (b : BigReg) (v : Nat) : (s.setBig b v).blk = s.blk := by
  cases b <;> rfl
@[simp] theorem State.setBig_w (s : State) (b : BigReg) (v : Nat) : (s.setBig b v).w = s.w := by
  cases b <;> rfl
@[simp] theorem State.setBig_dlen (s : State) (b : BigReg) (v : Nat) : (s.setBig b v).dlen = s.dlen := by
  cases b <;> rfl
@[simp] theorem State.setBig_dmem (s : State) (b : BigReg) (v : Nat) : (s.setBig b v).dmem = s.dmem := by
  cases b <;> rfl
@[simp] theorem State.setBig_ntbits (s : State) (b : BigReg) (v : Nat) : (s.setBig b v).ntbits = s.ntbits := by
  cases b <;> rfl
@[simp] theorem State.setBig_ntrounds (s : State) (b : BigReg) (v : Nat) : (s.setBig b v).ntrounds = s.ntrounds := by
  cases b <;> rfl
@[simp] theorem State.setBig_srch (s : State) (b : BigReg) (v : Nat) : (s.setBig b v).srch = s.srch := by
  cases b <;> rfl
@[simp] theorem State.setBig_rng (s : State) (b : BigReg) (v : Nat) : (s.setBig b v).rng = s.rng := by
  cases b <;> rfl
@[simp] theorem State.setBig_events (s : State) (b : BigReg) (v : Nat) : (s.setBig b v).events = s.events := by
  cases b <;> rfl
@[simp] theorem State.setBig_replies (s : State) (b : BigReg) (v : Nat) : (s.setBig b v).replies = s.replies := by
  cases b <;> rfl

/-! ### Error codes -/

/-- A host that reads the number of an error code knows the code. -/
@[simp] theorem ErrCode.ofCode_code (e : ErrCode) : ErrCode.ofCode e.code = some e := by
  cases e <;> rfl

end Sys2Proof.Machine
end

