-- ==== Sys2Proof/Laws/Step.lean ====
section
/-! SUPPORT. What the shared operations and one step can do, said once: later proofs cite these instead of unfolding them. -/

namespace Sys2Proof.Machine

theorem raise_eq (e : ErrCode) (s : State) : raise e s = .next (s.endWith e) := rfl

theorem complete_eq (s : State) : complete s = .next (s.endWith .noError) := rfl

theorem raise_next {e : ErrCode} {s t : State} (h : raise e s = .next t) : t = s.endWith e := by
  cases h
  rfl

theorem complete_next {s t : State} (h : complete s = .next t) : t = s.endWith .noError := by
  cases h
  rfl

/-- A search step rejects, accepts or fails, and answers a next state each time. -/
theorem searchStep_cases (hit : Nat → Search) (s : State) :
    (∃ g, searchOnce s.ntbits.toNat s.ntrounds.toNat s.rng = (.rejected, g) ∧
      searchStep hit s = .next { s with rng := g }) ∨
    (∃ v g, searchOnce s.ntbits.toNat s.ntrounds.toNat s.rng = (.accepted v, g) ∧
      searchStep hit s = .next { s with srch := hit v, rng := g }) ∨
    (∃ g, searchOnce s.ntbits.toNat s.ntrounds.toNat s.rng = (.failed, g) ∧
      searchStep hit s = .next { s with srch := .drawFailed, rng := g }) := by
  unfold searchStep
  rcases h : searchOnce s.ntbits.toNat s.ntrounds.toNat s.rng with ⟨_ | v | _, g⟩
  · exact .inl ⟨g, rfl, rfl⟩
  · exact .inr (.inl ⟨v, g, rfl, rfl⟩)
  · exact .inr (.inr ⟨g, rfl, rfl⟩)

/-- What an engine turn that answers a next state has done. -/
theorem engineTurn_cases {s t : State} (h : engineTurn s = .next t) :
    (s.status.busy = false ∧ t = s) ∨
    (s.status.busy = true ∧ ∃ i, decode s.oplatch = .ok i ∧ exec i s = .next t) ∨
    (s.status.busy = true ∧ ∃ r, decode s.oplatch = .error r ∧ t = s.endWith .illegalCommand) := by
  unfold engineTurn at h
  split at h
  · rename_i hb
    unfold runCommand State.fetch at h
    split at h
    · rename_i i hi
      exact .inr (.inl ⟨hb, i, hi, h⟩)
    · rename_i r hr
      exact .inr (.inr ⟨hb, r, hr, raise_next h⟩)
  · rename_i hb
    cases h
    exact .inl ⟨by simpa using hb, rfl⟩

/-- What a read that is answered has done. -/
theorem hostRead_cases {off width : Nat} {s t : State} {r : Reply} (h : hostRead off width s = .answered r t) :
    ∃ reg, regAt s.cfg off = some reg ∧ alignedWord off width = true ∧
      ((s.status.busy = true ∧ reg ≠ .status ∧ r = .word 0 ∧ t = s.setBav) ∨
       ((s.status.busy = false ∨ reg = .status) ∧ r = .word (s.readReg reg) ∧ t = s)) := by
  unfold hostRead at h
  split at h
  · cases h
  rename_i ha
  split at h
  · cases h
  rename_i reg hreg
  refine ⟨reg, hreg, by simpa using ha, ?_⟩
  split at h
  · rename_i hb
    cases h
    exact .inl ⟨by simp_all, by simp_all, rfl, rfl⟩
  · rename_i hb
    cases h
    refine .inr ⟨?_, rfl, rfl⟩
    by_cases hs : reg = .status
    · exact .inr hs
    · exact .inl (by simpa [hs] using hb)

/-- What a write that is answered has done. -/
theorem hostWrite_cases {off width : Nat} {v : Word} {s t : State} {r : Reply}
    (h : hostWrite off width v s = .answered r t) :
    ∃ reg, regAt s.cfg off = some reg ∧ alignedWord off width = true ∧ reg.readOnly = false ∧ r = .ok ∧
      t = writeReg reg v s := by
  unfold hostWrite at h
  split at h
  · cases h
  rename_i ha
  split at h
  · cases h
  rename_i reg hreg
  split at h
  · cases h
  rename_i hro
  cases h
  exact ⟨reg, hreg, by simpa using ha, by simpa using hro, rfl, rfl⟩

/-- What a write to a register has done: the strobes, the start step, the busy rule, or a store. -/
theorem writeReg_cases (reg : Reg) (v : Word) (s : State) :
    (reg = .ctrl ∧ v.getLsbD 0 = true ∧ writeReg reg v s = s.doReset) ∨
    (reg = .ctrl ∧ v.getLsbD 0 = false ∧ v.getLsbD 1 = true ∧ s.status.busy = true ∧ writeReg reg v s = s.abort) ∨
    (reg = .ctrl ∧ v.getLsbD 0 = false ∧ (v.getLsbD 1 = false ∨ s.status.busy = false) ∧ writeReg reg v s = s) ∨
    (reg = .status ∧ writeReg reg v s = writeStatus v s) ∨
    (reg ≠ .ctrl ∧ reg ≠ .status ∧ s.status.busy = true ∧ writeReg reg v s = s.setBav) ∨
    (reg = .cmd ∧ s.status.busy = false ∧ writeReg reg v s = s.start v) ∨
    (reg ≠ .ctrl ∧ reg ≠ .status ∧ reg ≠ .cmd ∧ s.status.busy = false ∧ writeReg reg v s = s.storeReg reg v) := by
  by_cases hc : reg = .ctrl
  · subst hc
    cases h0 : v.getLsbD 0
    · cases h1 : v.getLsbD 1
      · exact .inr (.inr (.inl ⟨rfl, rfl, .inl rfl, by unfold writeReg writeCtrl; rw [h0, h1]; rfl⟩))
      · cases hb : s.status.busy
        · exact .inr (.inr (.inl ⟨rfl, rfl, .inr rfl, by unfold writeReg writeCtrl; rw [h0, h1, hb]; rfl⟩))
        · exact .inr (.inl ⟨rfl, rfl, rfl, rfl, by unfold writeReg writeCtrl; rw [h0, h1, hb]; rfl⟩)
    · exact .inl ⟨rfl, rfl, by unfold writeReg writeCtrl; rw [h0]; rfl⟩
  by_cases hs : reg = .status
  · subst hs
    exact .inr (.inr (.inr (.inl ⟨rfl, by simp [writeReg]⟩)))
  cases hb : s.status.busy
  · by_cases hm : reg = .cmd
    · subst hm
      exact .inr (.inr (.inr (.inr (.inr (.inl ⟨rfl, rfl, by simp [writeReg, hb]⟩)))))
    · exact .inr (.inr (.inr (.inr (.inr (.inr ⟨hc, hs, hm, rfl, by simp [writeReg, hc, hs, hm, hb]⟩)))))
  · exact .inr (.inr (.inr (.inr (.inl ⟨hc, hs, rfl, by simp [writeReg, hc, hs, hb]⟩))))

/-- What a step that answers a next state has done, by the agent that moved. -/
theorem step_cases {s t : State} (h : step s = .next t) :
    (EngineIsNext s ∧ engineTurn s.takeTurn = .next t) ∨
    (∃ off width u r, HostReads s off width ∧ hostRead off width s.takeTurn = .answered r u ∧
      t = { u with replies := r :: u.replies }) ∨
    (∃ off width v u r, HostWrites s off width v ∧ hostWrite off width v s.takeTurn = .answered r u ∧
      t = { u with replies := r :: u.replies }) ∨
    (s.events.head? = some .hardReset ∧ t = s.takeTurn.doReset) := by
  obtain ⟨cfg, status, oplatch, kbits, keylen, key, blk, w, dlen, dmem, ntbits, ntrounds, ba, bb, bm, br, bx, bY,
    srch, rng, events, replies⟩ := s
  cases events with
  | nil => exact .inl ⟨.inl rfl, h⟩
  | cons e es =>
    cases e with
    | engine => exact .inl ⟨.inr rfl, h⟩
    | hardReset =>
      cases h
      exact .inr (.inr (.inr ⟨rfl, rfl⟩))
    | hostRead off width =>
      simp only [step, takeStep, portStep] at h
      split at h
      · rename_i r u hu
        cases h
        exact .inr (.inl ⟨off, width, u, r, rfl, hu, rfl⟩)
      · cases h
    | hostWrite off width v =>
      simp only [step, takeStep, portStep] at h
      split at h
      · rename_i r u hu
        cases h
        exact .inr (.inr (.inl ⟨off, width, v, u, r, rfl, hu, rfl⟩))
      · cases h

end Sys2Proof.Machine
end

