-- ==== Sys2Proof/Machine/Driver.lean ====
section
/-! DEFINITION. The driver of the host (46 R290, R298, R299): each function of the source's interface as a program of port
operations with a result. Outside the hardware; it reaches the block through `step` alone. -/

namespace Sys2Proof.Machine

/-- A host program that ends with a result or an error: port operations in order, each next one chosen by what was read.
`command` is `cmd` followed by `wait` and the reading of `STATUS.ERR` (46 R298). -/
inductive Driver (α : Type) where
  | done (r : Except ErrCode α)
  | write (reg : Reg) (v : Word) (rest : Driver α)
  | read (reg : Reg) (rest : Word → Driver α)
  | command (i : Instr) (rest : ErrCode → Driver α)

/-- The program that goes on from another's result. -/
def Driver.bind {α β : Type} (f : Except ErrCode α → Driver β) : Driver α → Driver β
  | .done r => f r
  | .write reg v rest => .write reg v (rest.bind f)
  | .read reg rest => .read reg fun v => (rest v).bind f
  | .command i rest => .command i fun e => (rest e).bind f

/-- The program with its result turned into another. -/
def Driver.map {α β : Type} (f : α → β) (d : Driver α) : Driver β := d.bind fun r => .done (r.map f)

/-- The `wr` lines of a script, in order. -/
def Driver.issue {α : Type} : List ScriptLine → Driver α → Driver α
  | [], rest => rest
  | .wr reg v :: lines, rest => .write reg v (Driver.issue lines rest)
  | .rd _ :: lines, rest => Driver.issue lines rest
  | .cmd _ :: lines, rest => Driver.issue lines rest
  | .rng _ :: lines, rest => Driver.issue lines rest
  | .wait _ _ :: lines, rest => Driver.issue lines rest

/-- A command whose error is the function's error: "a non-zero code is the function's error" (46 R298). -/
def Driver.require {α : Type} (i : Instr) (rest : Driver α) : Driver α :=
  .command i fun e => if e = .noError then rest else .done (.error e)

/-- The registers read one after another. -/
def Driver.readAll {α : Type} : List Reg → (List Word → Driver α) → Driver α
  | [], k => k []
  | reg :: regs, k => .read reg fun v => Driver.readAll regs fun vs => k (v :: vs)

/-- Results, then a soft reset: a driver "that wants the block to hold no secrets between calls" (46 R299). -/
def Driver.thenReset {α : Type} (d : Driver α) : Driver α := d.bind fun r => .write .ctrl 1 (.done r)

/-! ### Running a driver on the machine -/

/-- One access of the host: the port's answer and the state after it; `none` for a `BusError`. -/
def portAccess (e : Event) (s : State) : Option (Reply × State) :=
  match step { s with events := e :: s.events } with
  | .next t =>
    match t.replies with
    | r :: _ => some (r, t)
    | [] => none
  | .fault _ => none
  | .refused _ => none

/-- One turn of the engine. -/
def giveTurn (s : State) : Option State :=
  match step { s with events := .engine :: s.events } with
  | .next t => some t
  | .fault _ => none
  | .refused _ => none

/-- `wait` (30 R99): polls of `STATUS` until `BUSY` reads 0, an engine turn after each vain poll; the last word read. `none` where
the command still runs after `turns` turns (log 31). -/
def waitIdle : Nat → State → Option (Word × State)
  | turns, s =>
    match portAccess pollStatus s with
    | some (.word v, t) =>
      if v.getLsbD 0 then
        match turns with
        | 0 => none
        | n + 1 =>
          match giveTurn t with
          | some u => waitIdle n u
          | none => none
      else some (v, t)
    | some (.ok, _) => none
    | none => none

/-- A command started and waited for: the error it ended with and the state then (46 R298). -/
def commandAndWait (turns : Nat) (i : Instr) (s : State) : Option (ErrCode × State) :=
  match portAccess (.hostWrite Reg.cmd.offset 32 (encode i)) s with
  | some (_, t) =>
    match waitIdle turns t with
    | some (v, u) =>
      match ErrCode.ofCode (v.extractLsb' 16 8) with
      | some e => some (e, u)
      | none => none
    | none => none
  | none => none

/-- A driver's run from a state, with at most `turns` engine turns in each `wait`: its result and the state it leaves (log 31). -/
def Driver.run {α : Type} (turns : Nat) : Driver α → State → Option (Except ErrCode α × State)
  | .done r, s => some (r, s)
  | .write reg v rest, s =>
    match portAccess (.hostWrite reg.offset 32 v) s with
    | some (_, t) => rest.run turns t
    | none => none
  | .read reg rest, s =>
    match portAccess (.hostRead reg.offset 32) s with
    | some (.word v, t) => (rest v).run turns t
    | some (.ok, _) => none
    | none => none
  | .command i rest, s =>
    match commandAndWait turns i s with
    | some (e, t) => (rest e).run turns t
    | none => none

/-! ### Pseudo-operations with a value (30 R99) -/

/-- The bytes of bus words, most significant first (20 R63). -/
def bytesOfWords (ws : List Word) : List Byte :=
  ws.flatMap fun v => [wordByte v 0, wordByte v 1, wordByte v 2, wordByte v 3]

/-- The natural of limbs, least significant first (20 R64). -/
def naturalOfLimbs : List Word → Nat
  | [] => 0
  | v :: vs => v.toNat + 2 ^ 32 * naturalOfLimbs vs

/-- `rdmsg` (30 R99): the length, then the words that hold so many bytes. -/
def readMessage {α : Type} (k : List Byte → Driver α) : Driver α :=
  .read .dlen fun n =>
    Driver.readAll ((List.range (wordsFor n.toNat)).map .dmem) fun ws => k ((bytesOfWords ws).take n.toNat)

/-- `rdbn` (30 R99). -/
def readBig {α : Type} (c : Config) (b : BigReg) (k : Nat → Driver α) : Driver α :=
  Driver.readAll ((List.range (c.bnBits / 32)).map (.big b)) fun ws => k (naturalOfLimbs ws)

/-! ### The functions of the source's interface (46 R298) -/

/-- ENCM or DECM of a byte string under a key, and the bytes it leaves. 46 R298 says nothing of a `keyBits` that `KBITS` cannot hold,
nor, in (a) and (b), of a byte string longer than `DMEM`: the cut of the one and the run without a result for the other are the
model's choice (log 36). -/
def driveMessage (i : Instr) (m key : List Byte) (keyBits : Nat) : Driver (List Byte) :=
  Driver.issue (.wr .kbits (wordOf keyBits) :: ldkey key ++ ldmsg m)
    (Driver.require i (readMessage fun bytes => .done (.ok bytes)))

/-- `Encrypt(message, key, keySizeBits)` of the block cipher (46 R298 (a)). -/
def driveEncrypt (p : HostParams) (m : Text) (key : List Byte) (keyBits : Nat) : Driver (List Byte) :=
  driveMessage .encm (p.toBytes m) key keyBits

/-- `Decrypt(ciphertext, key, keySizeBits)` of the block cipher (46 R298 (b)); its bytes always become a text (log 27). -/
def driveDecrypt (p : HostParams) (c key : List Byte) (keyBits : Nat) : Driver Text :=
  (driveMessage .decm c key keyBits).map p.ofBytes

/-- `GenerateRandomKey(keySizeBits)` (46 R298 (c)); a size that `KBITS` cannot hold is cut (log 36). -/
def driveRandomKey (keyBits : Nat) : Driver (List Byte) :=
  .write .kbits (wordOf keyBits)
    (Driver.require .rkey
      (Driver.readAll ((List.range (keyBits / 32)).map .key) fun ws => .done (.ok (bytesOfWords ws))))

/-- A key of the source's `GenerateKeys`. -/
structure RsaKey where
  publicExponent : Nat
  privateExponent : Nat
  modulus : Nat
deriving DecidableEq, Repr

/-- `GenerateKeys(bitSize)` (46 R298 (d)). R298 (d) writes `NTBITS` alone, while R299 says that every sequence writes every operand
its command reads, and KGEN reads `NTROUNDS` (30 R95). The spec does not settle it. With `rounds = none` the sequence is R298 (d)
to the letter and the round count is what the block holds (10 after reset); with `rounds = some r` it writes `NTROUNDS` first, and
R299 holds. To leave both is the model's choice (log 34). The spec says nothing of a `bits` of `2^32` or more, which no word holds, nor
of more than 255 rounds: that they are cut to `NTBITS` and `NTROUNDS`, with no error, is the model's choice (log 36). -/
def driveGenerateKeys (c : Config) (bits : Nat) (rounds : Option Nat) : Driver RsaKey :=
  Driver.issue ((rounds.toList.map fun r => .wr .ntrounds (wordOf r)) ++ [.wr .ntbits (wordOf bits)])
    (Driver.require .kgen
      (readBig c .bb fun e => readBig c .br fun d => readBig c .bm fun n => .done (.ok ⟨e, d, n⟩)))

/-- The part of a message that is loaded: without its leading zero bytes where it is longer than `DMEM_BYTES` (46 R298 (e)). -/
def loadedMessage (c : Config) (m : List Byte) : List Byte :=
  if c.dmemBytes < m.length then m.dropWhile (fun b => b == 0) else m

/-- `RsaEncryptText(message, e, n)` (46 R298 (e)); a message still too long after the strip is the host's own
`MessageTooLarge`. `e` and `n` of `2^BN_BITS` and above are cut by `ldbn` (log 36). -/
def driveRsaEncrypt (p : HostParams) (c : Config) (m : Text) (e n : Nat) : Driver Text :=
  if c.dmemBytes < (loadedMessage c (p.toBytes m)).length then .done (.error .messageTooLarge)
  else
    Driver.issue (ldbn c .bb e ++ ldbn c .bm n ++ ldmsg (loadedMessage c (p.toBytes m)))
      (Driver.require .renc (readBig c .br fun v => .done (.ok (p.hex.render v))))

/-- `RsaDecryptText(hex, d, n)` (46 R298 (f)); malformed hex and an integer that does not fit `BA` are the host's own errors,
before any port operation (46 R293). `d` and `n` of `2^BN_BITS` and above are cut by `ldbn` (log 36). -/
def driveRsaDecrypt (p : HostParams) (c : Config) (t : Text) (d n : Nat) : Driver Text :=
  match p.hex.parse t with
  | none => .done (.error .invalidCiphertextEncoding)
  | some v =>
    if 2 ^ c.bnBits ≤ v then .done (.error .capacityExceeded)
    else
      Driver.issue (ldbn c .ba v ++ ldbn c .bb d ++ ldbn c .bm n)
        (Driver.require .rdec (readMessage fun bytes => .done (.ok (p.ofBytes bytes))))

/-- The raw block transform of the source's §8 (46 R298 (g)) with ENCB or DECB; it ends where KEXP fails. A block of other than
sixteen bytes, of which the spec says nothing, is cut or filled with zero bytes (log 36). -/
def driveBlock (i : Instr) (b key : List Byte) (keyBits : Nat) : Driver (List Byte) :=
  Driver.issue (.wr .kbits (wordOf keyBits) :: ldkey key)
    (Driver.require .kexp
      (Driver.issue (ldblk b)
        (Driver.require i
          (Driver.readAll ((List.range 4).map .blk) fun ws => .done (.ok (bytesOfWords ws))))))

end Sys2Proof.Machine
end

