-- ==== Sys2Proof/Tests/Slice0.lean ====
section
/-! SUPPORT. Tests of the model, with expected results from the spec's test vectors (spec 95) or its encodings, and a witness
for the hypotheses of every statement. -/

namespace Sys2Proof.Tests

open Sys2Proof.Machine

set_option Elab.async false

/-! ## Helpers -/

/-- The meaning answers a next state with the property. -/
def answers (r : Result) (p : State → Bool) : Bool :=
  match r with
  | .next t => p t
  | .fault _ => false
  | .refused _ => false

theorem exists_next {r : Result} {p : State → Bool} (h : answers r p = true) : ∃ t, r = .next t ∧ p t = true := by
  cases r with
  | next t => exact ⟨t, rfl, h⟩
  | fault f => cases h
  | refused f => cases h

/-- The reset state of the smallest block the parameters allow (00 R7). -/
def tiny : State := State.resetWith { bnBits := 64, dmemBytes := 32 }

/-- The same with a command running. -/
def busy : State := { tiny with status := { tiny.status with busy := true } }

/-- The same with the next event given. -/
def facing (e : Event) (s : State) : State := { s with events := [e] }

/-- A string of `k` bytes from one number. -/
def hex (k n : Nat) : List Byte := beBytesN k n

/-- The key of V1. -/
def keyed : State :=
  { tiny with kbits := 128, keylen := 16, key := bufOfList 32 (hex 16 0x2b7e151628aed2a6abf7158809cf4f3c) }

/-- The key of V4. -/
def keyed256 : State :=
  { tiny with
    kbits := 256
    keylen := 32
    key := bufOfList 32 (hex 32 0x603deb1015ca71be2b73aef0857d77811f352c073b6108d72d9810a30914dff4) }

/-- The plaintext of V1. -/
def plain : Block := bufOfList 16 (hex 16 0x3243f6a8885a308d313198a2e0370734)

/-- The ciphertext of V1. -/
def cipher : Block := bufOfList 16 (hex 16 0x3925841d02dc09fbdc118597196a0b32)

/-- The block of V7. -/
def counting : State := { tiny with blk := bufOfList 16 (hex 16 0x000102030405060708090a0b0c0d0e0f) }

/-- The schedule of V2. -/
def scheduled : State :=
  { keyed with w := scheduleReg keyed.expanded, status := keyed.status.setSchedule 10, blk := plain }

/-- A message in the data buffer. -/
def withMessage (m : List Byte) (s : State) : State :=
  { s with dmem := s.dmem.writeBytes 0 m, dlen := BitVec.ofNat 32 m.length }

/-- A source that answers the bytes and then fails. -/
def withDraws (bytes : List Byte) (s : State) : State :=
  { s with rng := { script := bytes.map some ++ [none], used := 0 } }

/-- A running search with the progress `p`. -/
def searching (p : Search) (bits rounds : Nat) : State :=
  { busy with ntbits := BitVec.ofNat 32 bits, ntrounds := BitVec.ofNat 8 rounds, srch := p }

/-- The word of `STATUS` after a command, and the bytes at the front of the data buffer. -/
def endsAs (w : Word) (dmem : List Byte) (t : State) : Bool :=
  t.status.toWord == w && t.dmem.readBytes 0 dmem.length == dmem

/-! ## Well-formedness and decoding -/

/-- 30 R90: a round above 255 has no encoding. -/
theorem test_wf_refuses_wide_round : (Instr.ark 256).wf = false := by decide

/-- 30 R91, R94: round 255 has one. -/
theorem test_wf_takes_round_255 : (Instr.ark 255).wf = true := by decide

/-- 30 R91: the words of U1, from the `OP` column. -/
theorem test_decode_key : decode 0x00000001 = .ok .kexp ∧ decode 0x00000002 = .ok .rkey := by decide

/-- 30 R90, R91: `ARG = 0x0A`, `OP = 0x10`: ARK of round 10; `ARG = 0xFF` is legal too. -/
theorem test_decode_ark : decode 0x00000A10 = .ok (.ark 10) ∧ decode 0x0000FF10 = .ok (.ark 255) := by decide

/-- 30 R91: the words of U2, from the `OP` column. -/
theorem test_decode_round : decode 0x00000011 = .ok .subb ∧ decode 0x00000012 = .ok .shrow ∧
    decode 0x00000013 = .ok .mixc ∧ decode 0x00000015 = .ok .isubb ∧ decode 0x00000016 = .ok .ishrow ∧
    decode 0x00000017 = .ok .imixc ∧ decode 0x00000018 = .ok .encb ∧ decode 0x00000019 = .ok .decb := by decide

/-- 30 R91: the words of U3, from the `OP` column. -/
theorem test_decode_message : decode 0x00000020 = .ok .pad ∧ decode 0x00000021 = .ok .unpad ∧
    decode 0x00000022 = .ok .encm ∧ decode 0x00000023 = .ok .decm := by decide

/-- 30 R91: the words of U4, from the `OP` column. -/
theorem test_decode_number : decode 0x00000030 = .ok .egcd ∧ decode 0x00000031 = .ok .minv ∧
    decode 0x00000032 = .ok .ptst ∧ decode 0x00000033 = .ok .pgen := by decide

/-- 30 R91: the words of U5, from the `OP` column. -/
theorem test_decode_rsa : decode 0x00000040 = .ok .mexp ∧ decode 0x00000041 = .ok .kgen ∧
    decode 0x00000042 = .ok .renc ∧ decode 0x00000043 = .ok .rdec := by decide

/-- V24: illegal words, by the reason. -/
theorem test_decode_illegal : decode 0x00000000 = .error .reservedOp ∧ decode 0x00000014 = .error .reservedOp ∧
    decode 0x00000101 = .error .argNotZero ∧ decode 0x80000001 = .error .reservedBits ∧
    decode 0x0001FF10 = .error .reservedBits := by decide

/-! ## U1, key expansion -/

/-- V2: `STATUS`, the first derived word, the last word, and the cleared tail. -/
theorem test_kexp_128 : answers (exec .kexp keyed) (fun t => t.status.toWord == 0x00000A06 && t.w[4] == 0xa0fafe17 &&
    t.w[43] == 0xb6630ca6 && t.w[44] == 0) = true := by decide +kernel

/-- V4: the last word of a 256-bit schedule, whose `Nk > 6` branch the other sizes never take. -/
theorem test_kexp_256 : answers (exec .kexp keyed256)
    (fun t => t.status.toWord == 0x00000E06 && t.w[12] == 0xa8b09c1a && t.w[59] == 0x706c631e) = true := by
  decide +kernel

/-- V5: sixteen bytes drawn, two left, zeros above. -/
theorem test_rkey : answers (exec .rkey (withDraws (hex 18 0x000102030405060708090a0b0c0d0e0f1011) keyed))
    (fun t => t.status.toWord == 0x00000002 && t.keyBytes == hex 16 0x000102030405060708090a0b0c0d0e0f ++ hex 16 0 &&
      t.keylen == 16 && t.rng.script == [some 0x10, some 0x11, none]) = true := by decide +kernel

/-- V5: a failing source leaves the key and its length. -/
theorem test_rkey_fails : answers (exec .rkey (withDraws [0xAA] keyed)) (fun t => t.status.toWord == 0x00840002 &&
    t.key == keyed.key && t.keylen == 16 && t.rng.script == []) = true := by decide +kernel

/-! ## U2, round steps and blocks -/

/-- V7: SUBB. -/
theorem test_subb : answers (exec .subb counting) (fun t => t.status.toWord == 0x00000002 &&
    t.blk.toList == hex 16 0x637c777bf26b6fc53001672bfed7ab76) = true := by decide +kernel

/-- V7: ISUBB. -/
theorem test_isubb : answers (exec .isubb counting) (fun t => t.status.toWord == 0x00000002 &&
    t.blk.toList == hex 16 0x52096ad53036a538bf40a39e81f3d7fb) = true := by decide +kernel

/-- V7: SHROW. -/
theorem test_shrow : answers (exec .shrow counting) (fun t => t.status.toWord == 0x00000002 &&
    t.blk.toList == hex 16 0x00050a0f04090e03080d02070c01060b) = true := by decide +kernel

/-- V7: ISHROW. -/
theorem test_ishrow : answers (exec .ishrow counting) (fun t => t.status.toWord == 0x00000002 &&
    t.blk.toList == hex 16 0x000d0a0704010e0b0805020f0c090603) = true := by decide +kernel

/-- V7: MIXC. -/
theorem test_mixc : answers (exec .mixc counting) (fun t => t.status.toWord == 0x00000002 &&
    t.blk.toList == hex 16 0x02070005060304010a0f080d0e0b0c09) = true := by decide +kernel

/-- V7: IMIXC. -/
theorem test_imixc : answers (exec .imixc counting) (fun t => t.status.toWord == 0x00000002 &&
    t.blk.toList == hex 16 0x0a0f080d0e0b0c090207000506030401) = true := by decide +kernel

/-- V7: ARK of round 0 on the block of V1. -/
theorem test_ark : answers (exec (.ark 0) scheduled) (fun t => t.status.toWord == 0x00000A06 &&
    t.blk.toList == hex 16 0x193de3bea0f4e22b9ac68d2ae9f84808) = true := by decide +kernel

/-- V7: ARK of round 11 with ten rounds. -/
theorem test_ark_bad_round : answers (exec (.ark 11) scheduled) (fun t => t.status.toWord == 0x00820A06 &&
    t.blk == plain) = true := by decide +kernel

/-- V1: ENCB. -/
theorem test_encb : answers (exec .encb scheduled) (fun t => t.status.toWord == 0x00000A06 && t.blk == cipher) = true := by
  decide +kernel

/-- V1: DECB. -/
theorem test_decb : answers (exec .decb { scheduled with blk := cipher })
    (fun t => t.status.toWord == 0x00000A06 && t.blk == plain) = true := by decide +kernel

/-! ## U3, messages -/

/-- V10: the text `abc` padded. -/
theorem test_pad : answers (exec .pad (withMessage (hex 3 0x616263) tiny))
    (fun t => endsAs 0x00000002 (hex 16 0x6162630d0d0d0d0d0d0d0d0d0d0d0d0d) t && t.dlen == 16) = true := by
  decide +kernel

/-- V10: no room for a pad in a full buffer. -/
theorem test_pad_full : answers (exec .pad { tiny with dlen := 32 })
    (fun t => endsAs 0x00810002 (hex 1 0x00) t && t.dlen == 32) = true := by decide +kernel

/-- V11: the pad `02 02` is the whole message. -/
theorem test_unpad : answers (exec .unpad (withMessage (hex 2 0x0202) tiny))
    (fun t => endsAs 0x00000002 (hex 2 0x0202) t && t.dlen == 0) = true := by decide +kernel

/-- V11: the pad of `03 02` is not consistent. -/
theorem test_unpad_bad : answers (exec .unpad (withMessage (hex 2 0x0302) tiny))
    (fun t => endsAs 0x00030002 (hex 2 0x0302) t && t.dlen == 2) = true := by decide +kernel

/-- V9: the text `abc` encrypted; no schedule is left behind. -/
theorem test_encm : answers (exec .encm (withMessage (hex 3 0x616263) keyed))
    (fun t => endsAs 0x00000002 (hex 16 0x0da7d34a2c0c32bd408e96dbd66f3ffe) t && t.dlen == 16 && t.w[0] == 0) = true := by
  decide +kernel

/-- V12: decrypted, the whole padded block stays in the buffer. -/
theorem test_decm : answers (exec .decm (withMessage (hex 16 0x0da7d34a2c0c32bd408e96dbd66f3ffe) keyed))
    (fun t => endsAs 0x00000002 (hex 16 0x6162630d0d0d0d0d0d0d0d0d0d0d0d0d) t && t.dlen == 3) = true := by
  decide +kernel

/-- V12: sixteen zero bytes decrypt to an invalid pad; nothing is visible of it. -/
theorem test_decm_bad_pad : answers (exec .decm (withMessage (hex 16 0) keyed))
    (fun t => endsAs 0x00030002 (hex 16 0) t && t.dlen == 16) = true := by decide +kernel

/-! ## U4, number theory -/

/-- V13: 240 and 46, a negative first coefficient. -/
theorem test_egcd : answers (exec .egcd { tiny with ba := 240, bb := 46 })
    (fun t => t.status.toWord == 0x00000012 && t.br == 2 && t.bx == 9 && t.bY == 47) = true := by decide +kernel

/-- V13: the reset state. -/
theorem test_egcd_zero : answers (exec .egcd tiny)
    (fun t => t.status.toWord == 0x00000002 && t.br == 0 && t.bx == 1 && t.bY == 0) = true := by decide +kernel

/-- V14: a negative coefficient brought into range. -/
theorem test_minv : answers (exec .minv { tiny with ba := 17, bm := 3120 })
    (fun t => t.status.toWord == 0x00000002 && t.br == 2753) = true := by decide +kernel

/-- V14: no inverse. -/
theorem test_minv_none : answers (exec .minv { tiny with ba := 6, bm := 9, br := 5 })
    (fun t => t.status.toWord == 0x00060002 && t.br == 5) = true := by decide +kernel

/-- V15: 221 passes with a strong liar, though it is 13 times 17. -/
theorem test_ptst_liar : answers (exec .ptst (withDraws [0xac] { tiny with ba := 221, ntrounds := 1 }))
    (fun t => t.status.toWord == 0x0000000A) = true := by decide +kernel

/-- V15: 143 is found composite in round 1; the second draw is not taken. -/
theorem test_ptst_composite : answers (exec .ptst (withDraws [0x05] { tiny with ba := 143, ntrounds := 2 }))
    (fun t => t.status.toWord == 0x00000002 && t.rng.script == [none]) = true := by decide +kernel

/-- V17, step 6 to 8: the candidate 229 is accepted; the command goes on. -/
theorem test_pgen_accepts : answers (exec .pgen (withDraws [0x65, 0x02, 0x90] (searching .searchingP 8 2)))
    (fun t => t.status.busy && t.srch == .found 229 && t.rng.script == [none]) = true := by decide +kernel

/-- V17: the recorded prime is written. -/
theorem test_pgen_completes : answers (exec .pgen (searching (.found 229) 8 2))
    (fun t => t.status.toWord == 0x00000002 && t.br == 229) = true := by decide +kernel

/-! ## U5, modular exponentiation and RSA -/

/-- V19. -/
theorem test_mexp : answers (exec .mexp { tiny with ba := 4, bb := 13, bm := 497 })
    (fun t => t.status.toWord == 0x00000002 && t.br == 445) = true := by decide +kernel

/-- V19: modulus 1. -/
theorem test_mexp_one : answers (exec .mexp { tiny with ba := 5, bb := 0, bm := 1, br := 7 })
    (fun t => t.status.toWord == 0x00000002 && t.br == 0) = true := by decide +kernel

/-- V21: the key of the primes 251 and 241. -/
theorem test_kgen : answers (exec .kgen (searching (.foundPair 251 241) 8 1))
    (fun t => t.status.toWord == 0x00000002 && t.bm == 60491 && t.bb == 65537 && t.br == 33473) = true := by
  decide +kernel

/-- V22: 65537 divides phi. -/
theorem test_kgen_fails : answers (exec .kgen (searching (.foundPair 917519 524309) 20 1))
    (fun t => t.status.toWord == 0x00070002 && t.bm == 0) = true := by decide +kernel

/-- V20: the message `A`. -/
theorem test_renc : answers (exec .renc (withMessage [0x41] { tiny with bb := 65537, bm := 3233 }))
    (fun t => t.status.toWord == 0x00000002 && t.br == 2790) = true := by decide +kernel

/-- V20: a message as large as the modulus. -/
theorem test_renc_too_large : answers (exec .renc (withMessage [0x0c, 0xa1] { tiny with bb := 65537, bm := 3233 }))
    (fun t => t.status.toWord == 0x00040002 && t.br == 0) = true := by decide +kernel

/-- V20: back to the message 1000, the key of V21. -/
theorem test_rdec : answers (exec .rdec { tiny with ba := 37023, bb := 33473, bm := 60491 })
    (fun t => endsAs 0x00000002 [0x03, 0xe8] t && t.dlen == 2 && t.br == 1000) = true := by decide +kernel

/-- V20: the integer 0 is the empty message. -/
theorem test_rdec_zero : answers (exec .rdec (withMessage [0xFF] { tiny with ba := 0, bb := 1, bm := 5 }))
    (fun t => endsAs 0x00000002 [0xFF] t && t.dlen == 0) = true := by decide +kernel

/-! ## The port -/

/-- V24: a started KEXP at the reset state ends with `InvalidKeySize`. -/
theorem test_step_runs_the_command : answers (step (State.reset.withFetchWord 32 0x00000001))
    (fun t => t.status.toWord == 0x00010002) = true := by decide +kernel

/-- V25: `wr BLK0, 0x3243F6A8` lays the first byte most significant. -/
theorem test_write_block : answers (step (facing (.hostWrite 0x0040 32 0x3243F6A8) tiny))
    (fun t => t.blk[0] == 0x32 && t.blk[1] == 0x43 && t.blk[2] == 0xf6 && t.blk[3] == 0xa8) = true := by decide +kernel

/-- V25: `wr BA[1], 1` is `2^32`. -/
theorem test_write_limb : answers (step (facing (.hostWrite 0x1004 32 1) { tiny with ba := 65 }))
    (fun t => t.ba == 4294967361) = true := by decide +kernel

/-- 20 R64: 65537 in `BB` reads as limb 0 = 0x00010001, every other limb 0. -/
theorem test_read_limbs : ({ tiny with bb := 65537 } : State).readReg (.big .bb 0) = 0x00010001 ∧
    ({ tiny with bb := 65537 } : State).readReg (.big .bb 1) = 0 ∧
    ({ tiny with bb := 65537 } : State).readReg (.big .ba 0) = 0 := by decide +kernel

/-- 10 R29, 20 R63: the key of V1, its first byte in the most significant lane of `KEY0`. -/
theorem test_read_key : keyed.readReg (.key 0) = 0x2b7e1516 ∧ keyed.readReg (.key 3) = 0x09cf4f3c := by decide +kernel

/-- V25: `wr DMEM[0], 0x61626300`. -/
theorem test_write_data : answers (step (facing (.hostWrite 0x8000 32 0x61626300) tiny))
    (fun t => t.dmem == [(0, 0x61), (1, 0x62), (2, 0x63)]) = true := by decide +kernel

/-- V25: reserved bits of `KBITS` are dropped. -/
theorem test_write_kbits : answers (step (facing (.hostWrite 0x000C 32 0x12345678) tiny))
    (fun t => t.readReg .kbits == 0x00005678) = true := by decide +kernel

/-- V25: accesses that are `BusError`: misaligned, unmapped, beyond the parameters, a write to `W0`. -/
theorem test_bus_errors :
    hostRead 0x0002 32 State.reset = .busError .misaligned ∧ hostRead 0x0050 32 State.reset = .busError .unmapped ∧
    hostRead 0x7000 32 State.reset = .busError .unmapped ∧ hostRead 0x9000 32 State.reset = .busError .unmapped ∧
    hostRead 0x1200 32 State.reset = .busError .unmapped ∧
    hostWrite 0x0100 32 0 State.reset = .busError .readOnly := by decide +kernel

/-- V26: reset wins over abort, and a running command is dropped. -/
theorem test_reset_wins : answers (step (facing (.hostWrite 0x0000 32 3) busy))
    (fun t => t.status.toWord == 0x00000000 && t.readReg .ntrounds == 0x0000000A) = true := by decide +kernel

/-- V26: abort while a command runs. -/
theorem test_abort : answers (step (facing (.hostWrite 0x0000 32 2) busy))
    (fun t => t.status.toWord == 0x00850002) = true := by decide +kernel

/-! ## The host's software -/

/-- A text encoding for tests: a character below 128 is one byte, any other the byte 0xFF and its number in three. -/
def testToBytes : Text → List Byte
  | [] => []
  | c :: t =>
    if c.toNat < 128 then BitVec.ofNat 8 c.toNat :: testToBytes t
    else 0xFF :: beBytesN 3 c.toNat ++ testToBytes t

/-- Its inverse; stray bytes become the characters of their numbers. -/
def testOfBytes : List Byte → Text
  | b :: b2 :: b1 :: b0 :: r =>
    if b = 0xFF then Char.ofNat (beInt [b2, b1, b0]) :: testOfBytes r
    else Char.ofNat b.toNat :: testOfBytes (b2 :: b1 :: b0 :: r)
  | b :: r => Char.ofNat b.toNat :: testOfBytes r
  | [] => []

theorem testOfBytes_small (b : Byte) (r : List Byte) (h : b ≠ 0xFF) :
    testOfBytes (b :: r) = Char.ofNat b.toNat :: testOfBytes r := by
  match r with
  | [] => rfl
  | [_] => rfl
  | [_, _] => rfl
  | _ :: _ :: _ :: _ => exact if_neg h

theorem test_one_encoding (t : Text) : testOfBytes (testToBytes t) = t := by
  induction t with
  | nil => rfl
  | cons c t ih =>
    have hc : c.toNat < 256 ^ 3 := by
      have := c.valid
      rcases this with h | h
      · have : c.toNat < 0xD800 := h
        omega
      · have : c.toNat < 0x110000 := h.2
        omega
    rw [testToBytes]
    split
    · rename_i hs
      have hb : BitVec.ofNat 8 c.toNat ≠ 0xFF := fun h => by
        have := congrArg BitVec.toNat h
        rw [BitVec.toNat_ofNat, Nat.mod_eq_of_lt (by omega)] at this
        have : c.toNat = 255 := this
        omega
      rw [testOfBytes_small _ _ hb, ih, BitVec.toNat_ofNat, Nat.mod_eq_of_lt (by omega), Char.ofNat_toNat]
    · change Char.ofNat (beInt (beBytesN 3 c.toNat)) :: testOfBytes (testToBytes t) = _
      rw [beInt_beBytesN, Nat.mod_eq_of_lt hc, Char.ofNat_toNat, ih]

/-- A host with the default hex format. -/
def host : HostParams :=
  { toBytes := testToBytes
    ofBytes := testOfBytes
    oneEncoding := test_one_encoding
    numbers :=
      { minus := ['-'], floatSign := fun x => if x.getLsbD 63 then ['-'] else [], usesExponent := fun _ k => decide (15 < k),
        exponentText := fun k => 'e' :: (toString k).toList, wholeTail := [], special := fun _ => ['N'] } }

/-- The structure of V28. -/
def nested : SValue := .map [(['a'], .str ['H', 'i']), (['b'], .seq [.int 7, .str ['A']])]

/-- Its encryption. -/
def nestedCipher : SValue :=
  .map [(['a'], .str "deda".toList), (['b'], .seq [.str "947a".toList, .str "a015".toList])]

/-- V28: encryption. -/
theorem test_encrypt_structure : encryptStructure host 65537 60491 nested = .ok nestedCipher := rfl

/-- V28: decryption; the integer comes back as a string. -/
theorem test_decrypt_structure : decryptStructure host 64 33473 60491 nestedCipher =
    .ok (.map [(['a'], .str ['H', 'i']), (['b'], .seq [.str ['7'], .str ['A']])]) := rfl

/-- 46 R292: 2790 is `ae6`, 0 is `0`; 46 R293: both cases parse, the empty string and other characters do not. -/
theorem test_hex : host.hex.render 2790 = "ae6".toList ∧ host.hex.render 0 = ['0'] ∧
    plainHex "aE6".toList = some 2790 ∧ plainHex [] = none ∧ plainHex ['g'] = none := by decide +kernel

/-- 46 R295: shortest decimals of binary64 numbers (0.1, 1/3, 2^53, the least subnormal, the largest finite), by hand from the
midpoints. -/
theorem test_shortest : shortestDecimal 0x3FB999999999999A = (1, -1) ∧
    shortestDecimal 0x3FD5555555555555 = (3333333333333333, -16) ∧
    shortestDecimal 0x4340000000000000 = (9007199254740992, 0) ∧ shortestDecimal 0x0000000000000001 = (5, -324) ∧
    shortestDecimal 0x7FEFFFFFFFFFFFFF = (17976931348623157, 292) := by decide +kernel

/-- 46 R295: texts of 0.1, -1.5, 300 and an integer. -/
theorem test_decimal_texts : host.numbers.shortest 0x3FB999999999999A = "0.1".toList ∧
    host.numbers.shortest 0xBFF8000000000000 = "-1.5".toList ∧ host.numbers.shortest 0x4072C00000000000 = "300".toList ∧
    host.numbers.decimal (-70) = "-70".toList := by decide +kernel

/-- What a driver's run gives, for comparison. -/
def gives {α : Type} [DecidableEq α] (r : Option (Except ErrCode α × State)) (want : Except ErrCode α) : Bool :=
  match r, want with
  | some (.ok a, _), .ok b => decide (a = b)
  | some (.error e, _), .error f => decide (e = f)
  | some (.ok _, _), .error _ => false
  | some (.error _, _), .ok _ => false
  | none, _ => false

/-- The key of V1 as bytes. -/
def key128 : List Byte := hex 16 0x2b7e151628aed2a6abf7158809cf4f3c

/-- 46 R298 (g): the known vector V1 through the driver. -/
theorem test_drive_block : gives ((driveBlock .encb plain.toList key128 128).run 1 tiny) (.ok cipher.toList) = true := by
  decide +kernel

/-- 46 R298 (g): a failed KEXP is the driver's error, though an earlier schedule is there; ENCB is not issued. -/
theorem test_drive_block_fails : gives ((driveBlock .encb plain.toList key128 192).run 1 scheduled)
    (.error .invalidKeySize) = true := by decide +kernel

/-- V9, 46 R298 (a): the text `abc` through the driver, and V12, (b): back. -/
theorem test_drive_message :
    gives ((driveEncrypt host "abc".toList key128 128).run 1 tiny) (.ok (hex 16 0x0da7d34a2c0c32bd408e96dbd66f3ffe)) = true ∧
    gives ((driveDecrypt host (hex 16 0x0da7d34a2c0c32bd408e96dbd66f3ffe) key128 128).run 1 tiny) (.ok "abc".toList) =
      true := by decide +kernel

/-- V21, 46 R298 (d) with `NTROUNDS` written: three turns, two search steps and the completion. -/
theorem test_drive_keys : gives ((driveGenerateKeys tiny.cfg 8 (some 1)).run 3 (withDraws [0xfb, 0x02, 0xf1, 0x03] tiny))
    (.ok ⟨65537, 33473, 60491⟩) = true := by decide +kernel

/-- V20, 46 R298 (e), (f): the message `Hi` there and back; malformed hex is the host's own error. -/
theorem test_drive_rsa :
    gives ((driveRsaEncrypt host tiny.cfg "Hi".toList 65537 60491).run 1 tiny) (.ok "deda".toList) = true ∧
    gives ((driveRsaDecrypt host tiny.cfg "deda".toList 33473 60491).run 1 tiny) (.ok "Hi".toList) = true ∧
    gives ((driveRsaDecrypt host tiny.cfg "0x".toList 33473 60491).run 1 tiny) (.error .invalidCiphertextEncoding) =
      true := by decide +kernel

/-- V5, 46 R298 (c): sixteen drawn bytes. -/
theorem test_drive_random_key : gives ((driveRandomKey 128).run 1 (withDraws (hex 16 0x0f) tiny)) (.ok (hex 16 0x0f)) = true := by
  decide +kernel

/-- 46 R299: results, then a soft reset. -/
theorem test_drive_then_reset :
    (match ((driveBlock .encb plain.toList key128 128).thenReset).run 1 tiny with
     | some (.ok b, t) => decide (b = cipher.toList) && t.keyBytes == hex 32 0 && !t.status.kvalid
     | _ => false) = true := by decide +kernel

/-! ## Witnesses: a state and operands that meet the hypotheses of each statement, by clause -/

theorem tiny_valid : tiny.cfg.Valid := by decide

theorem tiny_mem : MemInv tiny := by decide

theorem tiny_big : BigInv tiny := fun b => by cases b <;> decide

theorem tiny_unscheduled : ScheduleInv tiny := by
  refine ⟨rfl, rfl⟩

/-- A search in progress meets the invariant. -/
theorem searching_inv : Inv (searching (.searchingQ 251) 8 2) :=
  { config := by decide
    schedule := ⟨rfl, rfl⟩
    big := fun b => by cases b <;> decide
    mem := by decide
    search := by show PrimeRange _ _; decide
    life := ⟨rfl, rfl⟩ }

/-- A map offset on each side of the windows' ends, with the default parameters. -/
theorem mapped_bounds : MappedOffset {} 0x004C ∧ MappedOffset {} 0x01EC ∧ MappedOffset {} 0x11FC ∧
    MappedOffset {} 0x6000 ∧ MappedOffset {} 0x8FFC :=
  ⟨.inl (by decide), .inr (.inl (by decide)), .inr (.inr (.inl ⟨1, by decide⟩)), .inr (.inr (.inl ⟨6, by decide⟩)),
    .inr (.inr (.inr (by decide)))⟩

theorem unmapped_bounds : ¬ MappedOffset {} 0x0050 ∧ ¬ MappedOffset {} 0x01F0 ∧ ¬ MappedOffset {} 0x1200 ∧
    ¬ MappedOffset {} 0x7000 ∧ ¬ MappedOffset {} 0x9000 := by
  refine ⟨?_, ?_, ?_, ?_, ?_⟩ <;>
  · rintro (h | h | ⟨k, h1, h2, h3, h4⟩ | h)
    · omega
    · omega
    · have : ({} : Config).bnBits = 4096 := rfl
      omega
    · have : ({} : Config).dmemBytes = 4096 := rfl
      omega

theorem witness_CommandWordSelectsByMaskAndMatch :
    (∀ r, Instr.rdec ≠ .ark r) ∧
    (0x0000FF10 : Word) &&& (Instr.ark 255).mask = (Instr.ark 255).pattern ∧
    (0x0000FF10 : Word) &&& (Instr.ark 0).mask = (Instr.ark 0).pattern :=
  ⟨fun _ h => (by cases h), by decide, by decide⟩

theorem witness_DecodeAndEncodeAgree :
    (Instr.ark 255).wf = true ∧ (Instr.ark 0).wf = true ∧ Instr.rdec.wf = true ∧ decode 0x0000FF10 = .ok (.ark 255) := by
  decide

theorem witness_IllegalWordsEndWithIllegalCommand :
    (∃ (s : State) (c : Word), HostWrites s 0x0008 32 c ∧ s.status.busy = false ∧ ∃ r, decode c = .error r) ∧
    (∃ s : State, EngineIsNext s ∧ s.status.busy = true ∧ ∃ r, decode s.oplatch = .error r) :=
  ⟨⟨facing (.hostWrite 0x0008 32 0x00000044) tiny, 0x00000044, by decide, by decide, .reservedOp, by decide⟩,
    ⟨{ busy with oplatch := 0x0001FF10 }, by decide, by decide, .reservedBits, by decide⟩⟩

theorem witness_StepRunsTheDecodedCommand :
    (∃ (s : State) (i : Instr), EngineIsNext s ∧ s.status.busy = true ∧ decode s.oplatch = .ok i) ∧
    (∃ s : State, EngineIsNext s ∧ s.status.busy = false) ∧
    (∃ (c : Word) (i : Instr), decode c = .ok i) :=
  ⟨⟨facing .engine { busy with oplatch := 0x0000FF10 }, .ark 255, by decide, by decide, by decide⟩,
    ⟨tiny, by decide, by decide⟩, ⟨0x00000043, .rdec, by decide⟩⟩

theorem witness_ResetPutsEveryPieceAtItsResetValue :
    (∃ s : State, s.events.head? = some .hardReset) ∧
    (∃ (s : State) (v : Word), HostWrites s 0x0000 32 v ∧ v.getLsbD 0 = true) ∧
    (∃ (s : State) (v : Word), HostWrites s 0x0000 32 v ∧ v.getLsbD 0 = true ∧ v.getLsbD 1 = true ∧
      s.status.busy = true) :=
  ⟨⟨facing .hardReset scheduled, by decide⟩, ⟨facing (.hostWrite 0x0000 32 1) scheduled, 1, by decide, by decide⟩,
    ⟨facing (.hostWrite 0x0000 32 3) busy, 3, by decide, by decide, by decide, by decide⟩⟩

theorem witness_EveryStepKeepsTheInvariant : ∃ s t : State, Inv s ∧ step s = .next t := by
  have h := searching_inv
  obtain ⟨t, ht, -⟩ := exists_next (p := fun _ => true)
    (show answers (step { searching (.searchingQ 251) 8 2 with oplatch := 0x00000001 }) _ = true by decide +kernel)
  exact ⟨{ searching (.searchingQ 251) 8 2 with oplatch := 0x00000001 }, t,
    ⟨h.config, h.schedule, h.big, h.mem, h.search, h.life⟩, ht⟩

theorem witness_CmdWriteIsTheStartStep :
    (∃ (s : State) (v : Word), HostWrites s 0x0008 32 v ∧ s.status.busy = false) ∧
    (∃ (s : State) (v : Word), HostWrites s 0x0008 32 v ∧ s.status.busy = true) ∧
    (∃ s : State, HostReads s 0x0008 32 ∧ s.status.busy = false) ∧
    (∃ s : State, HostReads s 0x0008 32 ∧ s.status.busy = true) :=
  ⟨⟨facing (.hostWrite 0x0008 32 1) tiny, 1, by decide, by decide⟩,
    ⟨facing (.hostWrite 0x0008 32 1) busy, 1, by decide, by decide⟩, ⟨facing (.hostRead 0x0008 32) tiny, by decide⟩,
    ⟨facing (.hostRead 0x0008 32) busy, by decide⟩⟩

theorem witness_AbortEndsTheRunningCommand :
    (∃ (s : State) (v : Word), HostWrites s 0x0000 32 v ∧ v.getLsbD 0 = false ∧ v.getLsbD 1 = true ∧
      s.status.busy = true) ∧
    (∃ (s : State) (v : Word), HostWrites s 0x0000 32 v ∧ v.getLsbD 0 = false ∧ v.getLsbD 1 = false ∧
      s.status.busy = true) ∧
    (∃ (s : State) (v : Word), HostWrites s 0x0000 32 v ∧ v.getLsbD 0 = false ∧ v.getLsbD 1 = true ∧
      s.status.busy = false) :=
  ⟨⟨facing (.hostWrite 0x0000 32 2) busy, 2, by decide⟩, ⟨facing (.hostWrite 0x0000 32 0xFFFFFFFC) busy, 0xFFFFFFFC, by decide⟩,
    ⟨facing (.hostWrite 0x0000 32 2) tiny, 2, by decide⟩⟩

theorem witness_StatusAccessAlwaysWorks :
    (∃ (s : State) (v : Word), HostWrites s 0x0004 32 v ∧ s.status.busy = true ∧ v.getLsbD 6 = true) ∧
    (∃ s : State, HostReads s 0x0004 32 ∧ s.status.busy = true) :=
  ⟨⟨facing (.hostWrite 0x0004 32 0x40) busy, 0x40, by decide⟩, ⟨facing (.hostRead 0x0004 32) busy, by decide⟩⟩

theorem witness_AddressMapIsOneToOne :
    ({} : Config).Valid ∧ (Reg.dmem 1023).mapped {} = true ∧ (Reg.big .bY 127).mapped {} = true ∧
    (Reg.w 59).mapped {} = true ∧ (0x8FFC % 4 = 0 ∧ MappedOffset {} 0x8FFC) ∧ ¬ MappedOffset {} 0x9000 :=
  ⟨by decide, by decide, by decide, by decide, ⟨rfl, mapped_bounds.2.2.2.2⟩, unmapped_bounds.2.2.2.2⟩

theorem witness_BusErrorExactlyWhereTheMapSays :
    (∃ (s : State) (off width : Nat), s.cfg.Valid ∧ HostReads s off width ∧ off % 4 = 0 ∧ width = 32 ∧
      ¬ MappedOffset s.cfg off) ∧
    (∃ (s : State) (off width : Nat), s.cfg.Valid ∧ HostReads s off width ∧ off % 4 = 0 ∧ width = 32 ∧
      MappedOffset s.cfg off) ∧
    (∃ (s : State) (off width : Nat), s.cfg.Valid ∧ HostReads s off width ∧ off % 4 ≠ 0) ∧
    (∃ (s : State) (off width : Nat), s.cfg.Valid ∧ HostReads s off width ∧ width ≠ 32) ∧
    (∃ (s : State) (off width : Nat) (v : Word), s.cfg.Valid ∧ HostWrites s off width v ∧ ScheduleOffset off) ∧
    (∃ (s : State) (off width : Nat) (v : Word), s.cfg.Valid ∧ HostWrites s off width v ∧ off % 4 = 0 ∧ width = 32 ∧
      MappedOffset s.cfg off ∧ ¬ ScheduleOffset off) :=
  ⟨⟨facing (.hostRead 0x0050 32) State.reset, 0x0050, 32, by decide, by decide, by decide, rfl, unmapped_bounds.1⟩,
    ⟨facing (.hostRead 0x004C 32) State.reset, 0x004C, 32, by decide, by decide, by decide, rfl, mapped_bounds.1⟩,
    ⟨facing (.hostRead 0x0002 32) tiny, 0x0002, 32, by decide⟩, ⟨facing (.hostRead 0x0004 8) tiny, 0x0004, 8, by decide⟩,
    ⟨facing (.hostWrite 0x01EC 32 1) tiny, 0x01EC, 32, 1, by decide⟩,
    ⟨facing (.hostWrite 0x8FFC 32 1) State.reset, 0x8FFC, 32, 1, by decide, by decide, by decide, rfl,
      mapped_bounds.2.2.2.2, by decide⟩⟩

theorem witness_BusyBlockDropsAccesses :
    (∃ (s : State) (off : Nat), s.cfg.Valid ∧ HostReads s off 32 ∧ s.status.busy = true ∧ off % 4 = 0 ∧
      MappedOffset s.cfg off ∧ off ≠ 0x0004) ∧
    (∃ (s : State) (off : Nat) (v : Word), s.cfg.Valid ∧ HostWrites s off 32 v ∧ s.status.busy = true ∧ off % 4 = 0 ∧
      MappedOffset s.cfg off ∧ ¬ ScheduleOffset off ∧ off ≠ 0x0000 ∧ off ≠ 0x0004) :=
  ⟨⟨facing (.hostRead 0x0000 32) busy, 0x0000, by decide, by decide, by decide, by decide, .inl (by decide), by decide⟩,
    ⟨facing (.hostWrite 0x0008 32 1) busy, 0x0008, 1, by decide, by decide, by decide, by decide, .inl (by decide),
      by decide, by decide, by decide⟩⟩

/-- The bounds of the second part at the last byte of `KEY` and `S`, the last lane and bit, and the last word of `W`. -/
theorem witness_ReadsHaveNoSideEffects :
    (∃ (s : State) (r : Reg) (es : List Event), s.cfg.Valid ∧ s.status.busy = false ∧ r.mapped s.cfg = true ∧
      s.events = .hostRead r.offset 32 :: .hostRead r.offset 32 :: es) ∧
    (4 * 7 + 3 < 32 ∧ 4 * 3 + 3 < 16 ∧ 3 < 4 ∧ 59 < 60 ∧ 31 < 32) ∧
    (BigReg.bY, tiny.bY) ∈ [(BigReg.ba, tiny.ba), (.bb, tiny.bb), (.bm, tiny.bm), (.br, tiny.br), (.bx, tiny.bx),
      (.bY, tiny.bY)] :=
  ⟨⟨{ scheduled with events := [.hostRead 0x01EC 32, .hostRead 0x01EC 32] }, .w 59, [], by decide, by decide, by decide,
    by decide⟩, by decide, by decide⟩

/-- One write to each kind of register, at the end of its window. -/
theorem witness_WrittenRegisterReadsBack :
    ∀ r ∈ [Reg.kbits, .keylen, .ntrounds, .dlen, .ntbits, .key 7, .blk 3, .big .bY 1, .dmem 7],
      ∃ s t : State, s.cfg.Valid ∧ MemInv s ∧ s.status.busy = false ∧ r.mapped s.cfg = true ∧
        HostWrites s r.offset 32 0xFFFFFFFF ∧ step s = .next t := by
  have one : ∀ r : Reg, r.mapped tiny.cfg = true →
      answers (step (facing (.hostWrite r.offset 32 0xFFFFFFFF) tiny)) (fun _ => true) = true →
      ∃ s t : State, s.cfg.Valid ∧ MemInv s ∧ s.status.busy = false ∧ r.mapped s.cfg = true ∧
        HostWrites s r.offset 32 0xFFFFFFFF ∧ step s = .next t := fun r hm ha => by
    obtain ⟨t, ht, -⟩ := exists_next ha
    exact ⟨facing (.hostWrite r.offset 32 0xFFFFFFFF) tiny, t, tiny_valid, tiny_mem, rfl, hm, rfl, ht⟩
  intro r hr
  simp only [List.mem_cons, List.not_mem_nil, or_false] at hr
  rcases hr with rfl | rfl | rfl | rfl | rfl | rfl | rfl | rfl | rfl <;>
  · exact one _ (by decide) (by decide +kernel)

theorem witness_WriteLeavesOtherRegistersAlone :
    ∃ (s : State) (r r' : Reg) (v : Word), s.cfg.Valid ∧ s.status.busy = false ∧ r.mapped s.cfg = true ∧
      HostWrites s r.offset 32 v ∧ r ≠ .ctrl ∧ r ≠ .status ∧ r ≠ .cmd ∧ (∀ i, r ≠ .w i) ∧ r' ≠ r ∧
      r'.mapped s.cfg = true :=
  ⟨facing (.hostWrite 0x1004 32 1) tiny, .big .ba 1, .big .ba 0, 1, by decide, by decide, by decide, by decide,
    by decide, by decide, by decide, fun _ h => (by cases h), by decide, by decide⟩

theorem witness_OnlyKexpAndResetWriteTheSchedule :
    ∃ s t : State, step s = .next t ∧ t.w ≠ s.w := by
  obtain ⟨t, ht, hp⟩ := exists_next (p := fun t => t.w != keyed.w)
    (show answers (step (keyed.withFetchWord 32 0x00000001)) _ = true by decide +kernel)
  exact ⟨_, t, ht, fun h => by rw [h] at hp; exact absurd hp (by decide +kernel)⟩

theorem witness_OperandsHoldStillWhileBusy :
    ∃ s t : State, s.status.busy = true ∧ step s = .next t ∧ t.status.busy = true := by
  obtain ⟨t, ht, hp⟩ := exists_next (p := fun t => t.status.busy)
    (show answers (step (facing (.hostWrite 0x8000 32 1) busy)) _ = true by decide +kernel)
  exact ⟨_, t, rfl, ht, hp⟩

theorem witness_FailedCommandCommitsNothing :
    ∃ (i : Instr) (s t : State), exec i s = .next t ∧ s.status.err = .noError ∧ t.status.err ≠ .noError ∧
      Part.rng ∉ writesOf i := by
  obtain ⟨t, ht, hp⟩ := exists_next (p := fun t => decide (t.status.err ≠ .noError))
    (show answers (exec .minv tiny) _ = true by decide +kernel)
  exact ⟨.minv, tiny, t, ht, by decide, of_decide_eq_true hp, by decide⟩

theorem witness_CommandsWriteOnlyWhatTheTableLists : ∃ (i : Instr) (s t : State), exec i s = .next t := by
  obtain ⟨t, ht, -⟩ := exists_next (p := fun _ => true) (show answers (exec .kexp keyed) _ = true by decide +kernel)
  exact ⟨.kexp, keyed, t, ht⟩

/-- Two states that differ outside the operands of RDEC. -/
theorem witness_CommandsReadOnlyWhatTheTableLists :
    ∃ (i : Instr) (s s' : State), s.status.busy = true ∧ s'.status.busy = true ∧ s.status.err = s'.status.err ∧
      s.cfg = s'.cfg ∧ s.cfg.Valid ∧ MemInv s ∧ MemInv s' ∧ BigInv s ∧ s.srch = s'.srch ∧
      (∀ p ∈ readsOf i, p.same s s') ∧ s ≠ s' :=
  ⟨.rdec, { busy with ba := 5, bb := 3, bm := 7 }, withMessage [0xFF] { busy with ba := 5, bb := 3, bm := 7, br := 9 },
    rfl, rfl, rfl, rfl, by decide, by decide, by decide, fun b => by cases b <;> decide, rfl,
    fun p hp => by
      simp only [readsOf, List.mem_cons, List.not_mem_nil, or_false] at hp
      rcases hp with rfl | rfl | rfl <;> rfl,
    by decide +kernel⟩

theorem witness_KexpExpandsTheKey : KeySizeOk keyed ∧ KeySizeOk keyed256 ∧ ¬ KeySizeOk { keyed with keylen := 17 } ∧
    ¬ KeySizeOk tiny := by decide

theorem witness_KeyScheduleFollowsTheRecurrence :
    (hex 16 0).length = 4 * 4 ∧ (hex 24 0).length = 4 * 6 ∧ (hex 32 0).length = 4 * 8 ∧ 3 < 4 := by decide

theorem witness_RkeyDrawsAKey :
    legalKeyBits tiny.kbits.toNat = false ∧
    (∃ (s : State) (g : Rng), legalKeyBits s.kbits.toNat = true ∧ s.rng.draw (s.kbits.toNat / 8) = (none, g)) ∧
    (∃ (s : State) (r : List Byte) (g : Rng), legalKeyBits s.kbits.toNat = true ∧
      s.rng.draw (s.kbits.toNat / 8) = (some r, g)) :=
  ⟨by decide, ⟨withDraws [1] keyed, { script := [], used := 0 }, by decide, by decide +kernel⟩,
    ⟨withDraws (hex 16 7) keyed, hex 16 7, { script := [none], used := 0 }, by decide, by decide +kernel⟩⟩

theorem witness_DrawsConsumeBytesInOrder :
    Rng.draw 1 { script := [some 7], used := 0 } = (some [7], { script := [], used := 0 }) ∧ ([7] : List Byte).length < 2 := by
  decide +kernel

/-- 40 R112's example of an inverse. -/
theorem witness_GfMulIsAFieldProduct : (0x53 : Byte) ≠ 0 ∧ gfMul 0x53 0xCA = 0x01 := by decide

theorem witness_SubstitutionTablesAreTheConstruction :
    (((0x53 : Byte) ≠ 0 → gfMul 0x53 0xca = 0x01) ∧ ((0x53 : Byte) = 0 → (0xca : Byte) = 0)) ∧
    (((0 : Byte) ≠ 0 → gfMul 0 0 = 0x01) ∧ ((0 : Byte) = 0 → (0 : Byte) = 0)) := by decide

theorem witness_ArkAddsTheRoundKey :
    (scheduled.status.kvalid = true ∧ 10 ≤ scheduled.status.nr.toNat) ∧ tiny.status.kvalid = false ∧
    scheduled.status.nr.toNat < 11 := by decide

theorem witness_BlockCommandsAreTheStepCommands :
    (scheduled.status.kvalid = true ∧ scheduled.status.nr.toNat ∈ [10, 12, 14]) ∧ tiny.status.kvalid = false := by decide

theorem witness_KnownVectorIsReproduced :
    scheduled.kbits = 128 ∧ scheduled.keylen = 16 ∧
    scheduled.keyBytes.take 16 = beBytesN 16 0x2b7e151628aed2a6abf7158809cf4f3c ∧
    scheduled.blk.toList = beBytesN 16 0x3243f6a8885a308d313198a2e0370734 := by decide +kernel

/-- With the smallest capacity: the longest message that can be padded, and the first that cannot. -/
theorem witness_PadAppendsThePad :
    (tiny.cfg.Valid ∧ MemInv { tiny with dlen := 31 } ∧ ({ tiny with dlen := 31 } : State).msgLen < tiny.cfg.dmemBytes) ∧
    tiny.cfg.dmemBytes ≤ ({ tiny with dlen := 32 } : State).msgLen := by decide

theorem witness_UnpadStripsAValidPad :
    (∃ (s : State) (n : Nat), s.msgLen ≤ s.cfg.dmemBytes ∧ ValidPad s n) ∧
    tiny.cfg.dmemBytes < ({ tiny with dlen := 33 } : State).msgLen ∧
    (∃ s : State, s.msgLen ≤ s.cfg.dmemBytes ∧ ∀ n, ¬ ValidPad s n) :=
  ⟨⟨withMessage [0x02, 0x02] tiny, 2, by decide, by decide, by decide, by decide, fun a _ ha => by
      have : a < 2 := ha
      interval_cases a <;> decide⟩, by decide,
    ⟨tiny, by decide, fun n h => by
      have h1 : n ≤ 0 := h.2.2.1
      have := h.1
      omega⟩⟩

theorem witness_EncmEncryptsEachPaddedBlock :
    (keyed.cfg.Valid ∧ MemInv keyed ∧ ({ keyed with dlen := 31 } : State).msgLen < keyed.cfg.dmemBytes ∧
      KeySizeOk { keyed with dlen := 31 }) ∧
    keyed.cfg.dmemBytes ≤ ({ keyed with dlen := 32 } : State).msgLen ∧
    (tiny.msgLen < tiny.cfg.dmemBytes ∧ ¬ KeySizeOk tiny) := by decide

/-- A ciphertext with a valid pad under it (V12) and one without. -/
theorem witness_DecmDecryptsEachBlockAndUnpads :
    tiny.cfg.dmemBytes < ({ tiny with dlen := 33 } : State).msgLen ∧
    ({ tiny with dlen := 15 } : State).msgLen % 16 ≠ 0 ∧
    (({ tiny with dlen := 32 } : State).msgLen % 16 = 0 ∧ ¬ KeySizeOk { tiny with dlen := 32 }) ∧
    (∃ (s : State) (p m : List Byte), s.cfg.Valid ∧ MemInv s ∧ s.msgLen ≤ s.cfg.dmemBytes ∧ s.msgLen % 16 = 0 ∧
      KeySizeOk s ∧ p.length = s.msgLen ∧
      (∀ j, j < s.msgLen / 16 → bufOfList 16 ((p.drop (16 * j)).take 16) =
        decryptBlock s.expanded (s.nk + 6) (bufOfList 16 (s.dmem.readBytes (16 * j) 16))) ∧ removePadding p = .ok m) ∧
    (∃ (s : State) (p : List Byte), s.cfg.Valid ∧ MemInv s ∧ s.msgLen ≤ s.cfg.dmemBytes ∧ s.msgLen % 16 = 0 ∧
      KeySizeOk s ∧ p.length = s.msgLen ∧
      (∀ j, j < s.msgLen / 16 → bufOfList 16 ((p.drop (16 * j)).take 16) =
        decryptBlock s.expanded (s.nk + 6) (bufOfList 16 (s.dmem.readBytes (16 * j) 16))) ∧
      ∀ m, removePadding p ≠ .ok m) :=
  ⟨by decide, by decide, by decide,
    ⟨withMessage (hex 16 0x0da7d34a2c0c32bd408e96dbd66f3ffe) keyed, hex 16 0x6162630d0d0d0d0d0d0d0d0d0d0d0d0d,
      hex 3 0x616263, by decide, by decide +kernel, by decide, by decide, by decide, by decide, by decide +kernel,
      by rfl⟩,
    ⟨keyed, [], by decide, by decide, by decide, by decide, by decide, by decide, fun j hj => absurd hj (by
      rw [show keyed.msgLen = 0 from rfl]; omega), fun m h => by cases h⟩⟩

theorem witness_DecmUndoesEncm :
    keyed.cfg.Valid ∧ MemInv keyed ∧ ({ keyed with dlen := 31 } : State).paddedLen ≤ keyed.cfg.dmemBytes ∧
    ({ keyed with dlen := 31 } : State).msgLen ≤ keyed.cfg.dmemBytes ∧ KeySizeOk { keyed with dlen := 31 } := by decide

theorem witness_ExtEuclidGivesBezout : extEuclid 240 46 = (2, -9, 47) ∧ extEuclid 46 (240 % 46) = (2, 2, -9) ∧
    extEuclid 0 0 = (0, 1, 0) := by decide

theorem witness_MinvInvertsCoprimes :
    (∃ s : State, s.bm ≠ 0 ∧ Nat.Coprime s.ba s.bm) ∧ (∃ s : State, s.bm = 1 ∧ Nat.Coprime s.ba s.bm) ∧
    (∃ s : State, s.bm = 0) ∧ (∃ s : State, s.bm ≠ 0 ∧ ¬ Nat.Coprime s.ba s.bm) :=
  ⟨⟨{ tiny with ba := 17, bm := 3120 }, by decide⟩, ⟨{ tiny with ba := 0, bm := 1 }, by decide⟩, ⟨tiny, by decide⟩,
    ⟨{ tiny with ba := 0, bm := 5 }, by decide⟩⟩

theorem witness_PrimalityTestNeverRejectsAPrime :
    Nat.Prime 5 ∧ (probablyPrime 9 1 { script := [some 0], used := 0 }).1 = some false :=
  ⟨by norm_num, by decide +kernel⟩

theorem witness_PtstWritesTheVerdict :
    (∃ (s : State) (v : Bool) (g : Rng), probablyPrime s.ba s.ntrounds.toNat s.rng = (some v, g)) ∧
    (∃ (s : State) (g : Rng), probablyPrime s.ba s.ntrounds.toNat s.rng = (none, g)) ∧
    (∃ s : State, s.ba = 4 ∧ (s.ba < 5 ∨ s.ba % 2 = 0)) ∧ (∃ s : State, 5 ≤ s.ba ∧ s.ba % 2 = 1 ∧ s.ntrounds = 0) :=
  ⟨⟨withDraws [2] { tiny with ba := 229, ntrounds := 1 }, true, { script := [none], used := 0 }, by decide +kernel⟩,
    ⟨withDraws [2] { tiny with ba := 229, ntrounds := 2 }, { script := [], used := 0 }, by decide +kernel⟩,
    ⟨{ tiny with ba := 4 }, by decide⟩, ⟨{ tiny with ba := 5, ntrounds := 0 }, by decide⟩⟩

/-- The rounds of V15 on 221 with the bytes `ac` (passes by a square) and `87` (composite), a round of 7 that passes at once, the
smallest number a round is run on, and a failing source. -/
theorem witness_millerRabinRounds :
    (5 ≤ 5 ∧ 5 % 2 = 1 ∧ 5 - 1 = 2 ^ 2 * 1 ∧ 1 % 2 = 1) ∧
    (5 ≤ 221 ∧ 221 % 2 = 1 ∧ 221 - 1 = 2 ^ 2 * 55 ∧ 55 % 2 = 1) ∧
    (Rng.draw ((bitLen 221 + 7) / 8) { script := [some 0xAC], used := 0 } = (some [0xAC], { script := [], used := 0 }) ∧
      174 = 2 + beInt [0xAC] % (221 - 3) ∧ 174 ^ (2 ^ 1 * 55) % 221 = 221 - 1 ∧ 1 ≤ 2 - 1) ∧
    (Rng.draw ((bitLen 221 + 7) / 8) { script := [some 0x87], used := 0 } = (some [0x87], { script := [], used := 0 }) ∧
      137 = 2 + beInt [0x87] % (221 - 3) ∧ 137 ^ 55 % 221 = 188 ∧ 137 ^ (2 ^ 1 * 55) % 221 = 205) ∧
    (7 - 1 = 2 ^ 1 * 3 ∧ 2 = 2 + beInt [0x00] % (7 - 3) ∧ 2 ^ 3 % 7 = 1) ∧
    Rng.draw ((bitLen 221 + 7) / 8) { script := [none], used := 0 } = (none, { script := [], used := 0 }) := by
  decide +kernel

theorem witness_CandidatesHaveExactlyTheBits :
    drawCandidate 12 { script := [some 0x12, some 0x34], used := 0 } = (some 2612, { script := [], used := 0 }) ∧
    drawCandidate 1 { script := [some 0xFF], used := 0 } = (some 1, { script := [], used := 0 }) ∧
    Rng.draw ((12 + 7) / 8) { script := [some 1, none], used := 0 } = (none, { script := [], used := 0 }) := by
  decide +kernel

theorem witness_PgenSearchesAndCompletes :
    tiny.ntbits = 0 ∧
    ((searching .searchingP 65 2).ntbits ≠ 0 ∧ tiny.cfg.bnBits < (searching .searchingP 65 2).ntbits.toNat) ∧
    ((searching .searchingP 64 2).ntbits ≠ 0 ∧ (searching .searchingP 64 2).ntbits.toNat ≤ tiny.cfg.bnBits ∧
      (searching (.found 229) 64 2).srch = .found 229 ∧ (searching .drawFailed 64 2).srch = .drawFailed ∧
      (searching .searchingP 64 2).srch = .searchingP) := by decide

/-- V17: the three outcomes of a search step: 143 rejected on base 7, 229 accepted, a failing source. -/
theorem witness_SearchOutcome :
    drawCandidate 8 { script := [some 0x0f, some 0x05], used := 0 } = (some 143, { script := [some 0x05], used := 0 }) ∧
    probablyPrime 143 2 { script := [some 0x05], used := 0 } = (some false, { script := [], used := 0 }) ∧
    probablyPrime 229 2 { script := [some 0x02, some 0x90], used := 0 } = (some true, { script := [], used := 0 }) ∧
    probablyPrime 229 2 { script := [some 0x02, none], used := 0 } = (none, { script := [], used := 0 }) ∧
    drawCandidate 8 { script := [none], used := 0 } = (none, { script := [], used := 0 }) := by decide +kernel

theorem witness_PgenOfOneBitNeverCompletes :
    ∃ (n : Nat) (s t : State), s.cfg.Valid ∧ s.events = [] ∧ s.status.busy = true ∧ s.status.done = false ∧
      s.oplatch = 0x00000033 ∧ s.ntbits = 1 ∧ s.srch = .searchingP ∧ Host.Core.run core n s = .next t := by
  obtain ⟨t, ht, -⟩ := exists_next (p := fun t => t.status.busy) (show answers (Host.Core.run core 1
    (withDraws [0xFF] { searching .searchingP 1 2 with oplatch := 0x00000033 })) _ = true by decide +kernel)
  exact ⟨1, _, t, by decide, rfl, rfl, rfl, rfl, rfl, rfl, ht⟩

theorem witness_MexpWritesThePower : ({ tiny with bm := 1 } : State).bm ≠ 0 ∧ tiny.bm = 0 := by decide

theorem witness_KgenSearchesAndWritesAKeyPair :
    tiny.ntbits = 0 ∧
    ((searching .searchingP 33 1).ntbits ≠ 0 ∧ tiny.cfg.bnBits < 2 * (searching .searchingP 33 1).ntbits.toNat) ∧
    ((searching .searchingP 32 1).ntbits ≠ 0 ∧ 2 * (searching .searchingP 32 1).ntbits.toNat ≤ tiny.cfg.bnBits) ∧
    (searching .drawFailed 32 1).srch = .drawFailed ∧ (searching .searchingP 32 1).srch = .searchingP ∧
    (searching (.searchingQ 251) 32 1).srch = .searchingQ 251 ∧
    ((searching (.foundPair 2 2) 32 1).srch = .foundPair 2 2 ∧ Nat.Coprime 65537 ((2 - 1) * (2 - 1))) ∧
    ((searching (.foundPair 917519 524309) 32 1).srch = .foundPair 917519 524309 ∧
      ¬ Nat.Coprime 65537 ((917519 - 1) * (524309 - 1))) := by decide +kernel

theorem witness_RencEncryptsTheMessageInteger :
    ((withMessage [0x0c, 0xa0] { tiny with bm := 3233 }).msgLen ≤ tiny.cfg.dmemBytes ∧
      beInt ((withMessage [0x0c, 0xa0] tiny).dmem.readBytes 0 2) < 3233) ∧
    tiny.cfg.dmemBytes < ({ tiny with dlen := 33 } : State).msgLen ∧
    3233 ≤ beInt ((withMessage [0x0c, 0xa1] tiny).dmem.readBytes 0 2) := by decide +kernel

theorem witness_RdecWritesTheShortestBytes :
    tiny.cfg.Valid ∧ MemInv tiny ∧ BigInv { tiny with bm := 2 ^ 64 - 1 } ∧ tiny.bm = 0 :=
  ⟨by decide, by decide, fun b => by cases b <;> decide, rfl⟩

/-- The key of V21 and a message of V20; the empty message with modulus 1; the modulus 9. -/
theorem witness_RdecUndoesRenc :
    (∃ (s : State) (p q d : Nat), s.cfg.Valid ∧ MemInv s ∧ BigInv s ∧ s.msgLen ≤ s.cfg.dmemBytes ∧
      Nat.Prime p ∧ Nat.Prime q ∧ p ≠ q ∧ s.bm = p * q ∧ (s.bb * d) % ((p - 1) * (q - 1)) = 1 % ((p - 1) * (q - 1)) ∧
      beInt (s.dmem.readBytes 0 s.msgLen) < s.bm ∧ (0 < s.msgLen → s.dmem.read 0 ≠ 0)) ∧
    (∃ (s : State) (d : Nat), s.msgLen = 0 ∧ 1 ≤ s.bm ∧ 1 ≤ s.bb ∧ 1 ≤ d) ∧
    (∃ s : State, s.cfg.Valid ∧ MemInv s ∧ s.bm = 9 ∧ s.bb = 65537 ∧ s.dlen = 1 ∧ s.dmem.read 0 = 0x02) :=
  ⟨⟨withMessage [0x48, 0x69] { tiny with bb := 65537, bm := 60491 }, 251, 241, 33473, by decide, by decide,
      fun b => by cases b <;> decide, by decide, by norm_num, by norm_num, by decide, by decide, by decide, by decide,
      fun _ => by decide⟩,
    ⟨{ tiny with bm := 1, bb := 1 }, 1, by decide, by decide, by decide, by decide⟩,
    ⟨withMessage [0x02] { tiny with bb := 65537, bm := 9 }, by decide⟩⟩

theorem witness_LdblkLoadsTheBlock :
    tiny.cfg.Valid ∧ tiny.status.busy = false ∧ tiny.events = [] ∧ (hex 16 7).length = 16 := by decide

/-- The key of V28 and its structure meet the hypotheses. -/
theorem witness_StructureRoundTripsToStrings :
    ((∀ m, host.hex.parse (host.hex.render m) = some m) ∧ Nat.Prime 251 ∧ Nat.Prime 241 ∧ 251 ≠ 241 ∧
      60491 = 251 * 241 ∧ 60491 ≤ 2 ^ 64 ∧ (65537 * 33473) % ((251 - 1) * (241 - 1)) = 1 % ((251 - 1) * (241 - 1)) ∧
      encryptStructure host 65537 60491 nested = .ok nestedCipher) ∧
    (host.toBytes ['A']).head? ≠ some 0 :=
  ⟨⟨plainHex_render false, by norm_num, by norm_num, by decide, by decide, by decide, by decide, rfl⟩, by decide⟩

end Sys2Proof.Tests
end

/-! PROOFS of the statements on the step, the invariant, failed commands, operands read, and byte strings. Two ideas carry
them: `exec_leaves` says once in which six ways a command's step can end, and `SameAnswers` compares two runs of one command. -/

namespace Sys2Proof.Machine

/-! ### The engine's turn -/

/-- When the engine moves, the step is its turn at the state with that turn taken off (00 R13; log 3). -/
theorem step_of_engineIsNext {s : State} (h : EngineIsNext s) : step s = engineTurn s.takeTurn := by
  obtain ⟨cfg, status, oplatch, kbits, keylen, key, blk, w, dlen, dmem, ntbits, ntrounds, ba, bb, bm, br, bx, bY,
    srch, rng, events, replies⟩ := s
  rcases h with h | h
  · cases h
    rfl
  · cases events with
    | nil => cases h
    | cons e es =>
      cases h
      rfl

theorem engineTurn_of_idle {s : State} (h : s.status.busy = false) : engineTurn s = .next s := by
  simp [engineTurn, h]

theorem engineTurn_of_decode {s : State} {i : Instr} (hb : s.status.busy = true) (hd : decode s.oplatch = .ok i) :
    engineTurn s = exec i s := by
  simp [engineTurn, runCommand, State.fetch, hb, hd]

theorem tableWord_toNat (c : Word) : tableWord 32 c.toNat = c := by
  simp [tableWord, Nat.mod_eq_of_lt c.isLt]

theorem withFetchWord_toNat (s : State) (c : Word) : s.withFetchWord 32 c.toNat = s.withCommand c := by
  rw [State.withFetchWord, tableWord_toNat]

theorem engineIsNext_withCommand (s : State) (c : Word) : EngineIsNext (s.withCommand c) := .inr rfl

@[simp] theorem takeTurn_withCommand (s : State) (c : Word) : (s.withCommand c).takeTurn = s.start c := rfl

/-- Settles O5, from the engine's turn; `withFetchWord` puts an engine turn first. -/
theorem stepRunsTheDecodedCommand : Obligations.StepRunsTheDecodedCommand := by
  refine ⟨fun s i he hb hd => ?_, fun s he hb => ?_, fun s c i hd => ?_⟩
  · exact (step_of_engineIsNext he).trans (engineTurn_of_decode (s := s.takeTurn) hb hd)
  · exact (step_of_engineIsNext he).trans (engineTurn_of_idle (s := s.takeTurn) hb)
  · rw [withFetchWord_toNat, step_of_engineIsNext (engineIsNext_withCommand s c), takeTurn_withCommand,
      engineTurn_of_decode (s := s.start c) rfl hd]

/-! ### Byte strings and naturals -/

theorem beInt_nil : beInt [] = 0 := rfl

theorem beInt_concat (bs : List Byte) (b : Byte) : beInt (bs ++ [b]) = 256 * beInt bs + b.toNat := by
  rw [beInt_append, beInt_cons, beInt_nil, List.length_singleton, List.length_nil]
  ring

theorem toNat_append_byte {n : Nat} (x : BitVec n) (b : Byte) : (x ++ b).toNat = x.toNat * 2 ^ 8 + b.toNat := by
  rw [BitVec.toNat_append, ← Nat.shiftLeft_add_eq_or_of_lt b.isLt, Nat.shiftLeft_eq]

theorem toNat_beWord (b0 b1 b2 b3 : Byte) : (beWord b0 b1 b2 b3).toNat =
    b0.toNat * 2 ^ 24 + b1.toNat * 2 ^ 16 + b2.toNat * 2 ^ 8 + b3.toNat := by
  rw [beWord, toNat_append_byte, toNat_append_byte, toNat_append_byte]
  ring

theorem bitLen_zero : bitLen 0 = 0 := rfl

/-- `ceil(bitlen(n) / 8)` bytes are the fewest that hold `n`. -/
theorem bytesFor_bitLen_le_iff (n k : Nat) : bytesFor (bitLen n) ≤ k ↔ n < 256 ^ k := by
  rw [show (256 : Nat) = 2 ^ 8 by rfl, ← Nat.pow_mul, ← bitLen_le_iff, bytesFor]
  omega

theorem length_beBytes (n : Nat) : (beBytes n).length = bytesFor (bitLen n) := length_beBytesN _ _

theorem beInt_beBytes (n : Nat) : beInt (beBytes n) = n := by
  rw [beBytes, beInt_beBytesN, Nat.mod_eq_of_lt ((bytesFor_bitLen_le_iff n _).1 le_rfl)]

theorem beInt_zero_cons (bs : List Byte) : beInt (0 :: bs) = beInt bs := by
  simp [beInt_cons]

/-- A byte string that does not begin with a zero byte has the fewest bytes that hold its natural. -/
theorem bytesFor_bitLen_beInt (bs : List Byte) (h : bs.head? ≠ some 0) :
    bytesFor (bitLen (beInt bs)) = bs.length := by
  refine le_antisymm ((bytesFor_bitLen_le_iff _ _).2 (beInt_lt bs)) ?_
  cases bs with
  | nil => exact Nat.zero_le _
  | cons b bs =>
    have hb : 1 ≤ b.toNat := by
      by_contra h0
      exact h (congrArg some (BitVec.eq_of_toNat_eq (by simpa using h0)))
    have hlow : ¬ beInt (b :: bs) < 256 ^ bs.length := by
      rw [beInt_cons, Nat.not_lt]
      exact le_add_right (Nat.le_mul_of_pos_left _ hb)
    rw [← bytesFor_bitLen_le_iff] at hlow
    rw [List.length_cons]
    omega

/-- Bytes above the low `k` do not matter to them. -/
theorem beBytesN_mul_add (k c n : Nat) : beBytesN k (c * 256 ^ k + n) = beBytesN k n := by
  induction k generalizing c with
  | zero => rfl
  | succ k ih =>
    have hc : c * 256 ^ (k + 1) = 256 * c * 256 ^ k := by ring
    have hq : (256 * c * 256 ^ k + n) / 256 ^ k = 256 * c + n / 256 ^ k := by
      rw [Nat.add_comm, Nat.add_mul_div_right _ _ (by positivity), Nat.add_comm]
    rw [beBytesN, beBytesN, hc, ih, hq]
    congr 1
    apply BitVec.eq_of_toNat_eq
    rw [BitVec.toNat_ofNat, BitVec.toNat_ofNat, Nat.mul_add_mod]

theorem beBytesN_length_beInt (bs : List Byte) : beBytesN bs.length (beInt bs) = bs := by
  induction bs with
  | nil => rfl
  | cons b bs ih =>
    have hq : (b.toNat * 256 ^ bs.length + beInt bs) / 256 ^ bs.length = b.toNat := by
      rw [Nat.add_comm, Nat.add_mul_div_right _ _ (by positivity), Nat.div_eq_of_lt (beInt_lt bs), Nat.zero_add]
    rw [List.length_cons, beBytesN, beInt_cons, beBytesN_mul_add, ih, hq, BitVec.ofNat_toNat, BitVec.setWidth_eq]

theorem beBytes_beInt_of_head (bs : List Byte) (h : bs.head? ≠ some 0) : beBytes (beInt bs) = bs := by
  rw [beBytes, bytesFor_bitLen_beInt bs h, beBytesN_length_beInt]

theorem beBytes_beInt (bs : List Byte) : beBytes (beInt bs) = bs.dropWhile (fun x => x == 0) := by
  induction bs with
  | nil => rfl
  | cons b bs ih =>
    by_cases hb : b = 0
    · rw [hb, beInt_zero_cons, ih, List.dropWhile_cons_of_pos (by rfl)]
    · rw [beBytes_beInt_of_head _ (by simpa using hb), List.dropWhile_cons_of_neg (by simpa using hb)]

theorem head_beBytes_ne_zero (n : Nat) : (beBytes n).head? ≠ some 0 := by
  have hfix := beBytes_beInt (beBytes n)
  rw [beInt_beBytes] at hfix
  intro h
  rw [hfix] at h
  have hnot := List.head?_dropWhile_not (fun x : Byte => x == 0) (beBytes n)
  rw [h] at hnot
  exact Bool.noConfusion hnot

/-- Settles O55. -/
theorem bytesOfANaturalAreShortest : Obligations.BytesOfANaturalAreShortest :=
  ⟨⟨beInt_nil, beInt_concat⟩, toNat_beWord,
    fun n => ⟨lt_two_pow_bitLen n, fun h => h ▸ bitLen_zero, two_pow_le_of_bitLen n⟩,
    fun n => ⟨beInt_beBytes n, length_beBytes n, head_beBytes_ne_zero n⟩, beBytes_beInt⟩

/-! ### Which errors the shared functions give -/

theorem checkKeySize_error {kbits keylen : Nat} {e : ErrCode} (h : checkKeySize kbits keylen = .error e) :
    e = .invalidKeySize := by
  unfold checkKeySize at h
  split at h
  · cases h
    rfl
  split at h
  · cases h
    rfl
  · cases h

theorem checkKeySize_ok {kbits keylen nk nr : Nat} (h : checkKeySize kbits keylen = .ok (nk, nr)) :
    (nk = 4 ∨ nk = 6 ∨ nk = 8) ∧ nr = nk + 6 := by
  unfold checkKeySize at h
  split at h
  · cases h
  split at h
  · cases h
  · rename_i hlegal
    cases h
    simp only [legalKeyBits, Bool.not_eq_true', Bool.not_eq_false, Bool.or_eq_true, beq_iff_eq] at hlegal
    omega

theorem removePadding_error {b : List Byte} {e : ErrCode} (h : removePadding b = .error e) : e = .invalidPadding := by
  unfold removePadding at h
  split at h
  · cases h
    rfl
  dsimp only at h
  split at h
  · cases h
    rfl
  split at h
  · cases h
  · cases h
    rfl

theorem encryptMessage_error {m key : List Byte} {kbits keylen : Nat} {e : ErrCode}
    (h : encryptMessage m key kbits keylen = .error e) : e = .invalidKeySize := by
  unfold encryptMessage at h
  split at h
  · rename_i hk
    cases h
    exact checkKeySize_error hk
  · cases h

theorem decryptMessage_error {c key : List Byte} {kbits keylen : Nat} {e : ErrCode}
    (h : decryptMessage c key kbits keylen = .error e) :
    e = .invalidCiphertextLength ∨ e = .invalidKeySize ∨ e = .invalidPadding := by
  unfold decryptMessage at h
  split at h
  · cases h
    exact .inl rfl
  split at h
  · rename_i hk
    cases h
    exact .inr (.inl (checkKeySize_error hk))
  dsimp only at h
  split at h
  · rename_i hp
    cases h
    exact .inr (.inr (removePadding_error hp))
  · cases h

theorem modInverse_error {a n : Nat} {e : ErrCode} (h : modInverse a n = .error e) : e = .noInverseExists := by
  unfold modInverse at h
  split at h
  split at h
  · cases h
  · cases h
    rfl

/-! ### What a command that answers has done -/

/-- `u` holds what `i`, run from `s`, writes on success (30 R95); its completion step is still to come. The hypotheses are
the checks the command has passed and the results it has found. -/
inductive Completed (s : State) : Instr → State → Prop
  | kexp {nk nr : Nat} (h : checkKeySize s.kbits.toNat s.keylen.toNat = .ok (nk, nr)) :
      Completed s .kexp { s with
        w := scheduleReg (expandKey (s.keyBytes.take (4 * nk)) nk nr)
        status := s.status.setSchedule nr }
  | rkey {bytes : List Byte} {g : Rng} (h : s.rng.draw (s.kbits.toNat / 8) = (some bytes, g)) :
      Completed s .rkey { s.afterDraws g with
        key := bufOfList 32 bytes
        keylen := BitVec.ofNat 8 (s.kbits.toNat / 8) }
  | block {i : Instr} (h : writesOf i = [.blk]) (b : Block) : Completed s i { s with blk := b }
  | pad (h : s.msgLen + padCount s.msgLen ≤ s.cfg.dmemBytes) :
      Completed s .pad ({ s with dmem := s.dmem.writeBytes s.msgLen (padBytes s.msgLen) }.withLen
        (s.msgLen + padCount s.msgLen))
  | unpad {m : List Byte} (h : removePadding s.message = .ok m) : Completed s .unpad (s.withLen m.length)
  | encm {c : List Byte} (hfit : s.msgLen + padCount s.msgLen ≤ s.cfg.dmemBytes)
      (h : encryptMessage s.message s.keyBytes s.kbits.toNat s.keylen.toNat = .ok c) :
      Completed s .encm ({ s with dmem := s.dmem.writeBytes 0 c }.withLen c.length)
  | decm {p m : List Byte} (hfit : s.msgLen ≤ s.cfg.dmemBytes)
      (h : decryptMessage s.message s.keyBytes s.kbits.toNat s.keylen.toNat = .ok (p, m)) :
      Completed s .decm ({ s with dmem := s.dmem.writeBytes 0 p }.withLen m.length)
  | egcd {g : Nat} {x y : Int} (h : extEuclid s.ba s.bb = (g, x, y)) :
      Completed s .egcd { s with br := g, bx := x.natAbs, bY := y.natAbs, status := s.status.setSigns x y }
  | minv {v : Nat} (hm : s.bm ≠ 0) (h : modInverse s.ba s.bm = .ok v) : Completed s .minv { s with br := v }
  | ptst {v : Bool} {g : Rng} (h : probablyPrime s.ba s.ntrounds.toNat s.rng = (some v, g)) :
      Completed s .ptst { s.afterDraws g with status := s.status.setPrime v }
  | pgen {v : Nat} (hfit : s.ntbits.toNat ≤ s.cfg.bnBits) (h : s.srch = .found v) :
      Completed s .pgen { s with br := v }
  | mexp (hm : s.bm ≠ 0) : Completed s .mexp { s with br := modExp s.ba s.bb s.bm }
  | kgen {p q d : Nat} (hfit : 2 * s.ntbits.toNat ≤ s.cfg.bnBits) (h : s.srch = .foundPair p q)
      (hd : modInverse pubExp ((p - 1) * (q - 1)) = .ok d) :
      Completed s .kgen { s with bm := p * q, bb := pubExp, br := d }
  | renc (h : beInt s.message < s.bm) : Completed s .renc { s with br := modExp (beInt s.message) s.bb s.bm }
  | rdec (hm : s.bm ≠ 0) :
      Completed s .rdec ({ s with
        br := modExp s.ba s.bb s.bm
        dmem := s.dmem.writeBytes 0 (beBytes (modExp s.ba s.bb s.bm)) }.withLen
          (beBytes (modExp s.ba s.bb s.bm)).length)

/-- The progress a search command makes of an accepted candidate (44 R229, R230, 45 R262). -/
inductive SearchHit (s : State) : Instr → (Nat → Search) → Prop
  | pgen : SearchHit s .pgen .found
  | kgenP : SearchHit s .kgen .searchingQ
  | kgenQ {p : Nat} (h : s.srch = .searchingQ p) : SearchHit s .kgen (.foundPair p)

/-- The states one engine step of `i` can leave when run from `s` (00 R12, 44 R230, 60 R311). -/
inductive Leaves (s : State) (i : Instr) : State → Prop
  | failed {e : ErrCode} (he : e ≠ .noError) : Leaves s i (s.endWith e)
  | failedAfterDraws {e : ErrCode} {g : Rng} (he : e ≠ .noError) (hw : Part.rng ∈ writesOf i) :
      Leaves s i ((s.afterDraws g).endWith e)
  | completed {u : State} (h : Completed s i u) : Leaves s i (u.endWith .noError)
  | rejected {hit : Nat → Search} {g : Rng} (hi : SearchHit s i hit) : Leaves s i { s with rng := g }
  | accepted {hit : Nat → Search} {v : Nat} {g : Rng} (hi : SearchHit s i hit) (hn : s.ntbits ≠ 0)
      (h : searchOnce s.ntbits.toNat s.ntrounds.toNat s.rng = (.accepted v, g)) :
      Leaves s i { s with srch := hit v, rng := g }
  | drawFailed {hit : Nat → Search} {g : Rng} (hi : SearchHit s i hit) :
      Leaves s i { s with srch := .drawFailed, rng := g }

/-- The result is a next state that `i` can leave from `s`. -/
def Answers (s : State) (i : Instr) (r : Result) : Prop := ∃ t, r = .next t ∧ Leaves s i t

section
variable {s : State} {i : Instr}

theorem answers_raise {e : ErrCode} (he : e ≠ .noError) : Answers s i (raise e s) := ⟨_, rfl, .failed he⟩

theorem answers_raise_afterDraws {e : ErrCode} {g : Rng} (he : e ≠ .noError) (hw : Part.rng ∈ writesOf i) :
    Answers s i (raise e (s.afterDraws g)) := ⟨_, rfl, .failedAfterDraws he hw⟩

theorem answers_complete {u : State} (h : Completed s i u) : Answers s i (complete u) := ⟨_, rfl, .completed h⟩

theorem answers_completeBlock (h : writesOf i = [.blk]) (b : Block) : Answers s i (completeBlock s b) :=
  answers_complete (.block h b)

theorem answers_searchStep {hit : Nat → Search} (hi : SearchHit s i hit) (hn : s.ntbits ≠ 0) :
    Answers s i (searchStep hit s) := by
  rcases searchStep_cases hit s with ⟨g, -, hs⟩ | ⟨v, g, ho, hs⟩ | ⟨g, -, hs⟩
  · exact ⟨_, hs, .rejected hi⟩
  · exact ⟨_, hs, .accepted hi hn ho⟩
  · exact ⟨_, hs, .drawFailed hi⟩

end

section
variable (s : State)

theorem answers_kexp : Answers s .kexp (execKexp s) := by
  unfold execKexp
  split
  · rename_i e he
    exact answers_raise (checkKeySize_error he ▸ by decide)
  · rename_i nk nr hk
    exact answers_complete (.kexp hk)

theorem answers_rkey : Answers s .rkey (execRkey s) := by
  unfold execRkey
  split
  · exact answers_raise (by decide)
  split
  · exact answers_raise_afterDraws (by decide) (by decide)
  · rename_i bytes g hd
    exact answers_complete (.rkey hd)

theorem answers_ark (rnd : Nat) : Answers s (.ark rnd) (execArk rnd s) := by
  unfold execArk
  split
  · exact answers_raise (by decide)
  split
  · exact answers_raise (by decide)
  · exact answers_completeBlock rfl _

/-- A transform of `S` by the schedule, as in ENCB and DECB. -/
theorem answers_scheduledBlock {i : Instr} (h : writesOf i = [.blk]) (b : Block) :
    Answers s i (if !s.status.kvalid then raise .keyScheduleInvalid s else completeBlock s b) := by
  split
  · exact answers_raise (by decide)
  · exact answers_completeBlock h b

theorem answers_pad : Answers s .pad (execPad s) := by
  unfold execPad
  split
  · exact answers_raise (by decide)
  split
  · exact answers_raise (by decide)
  · rename_i hfit
    exact answers_complete (.pad (Nat.not_lt.1 hfit))

theorem answers_unpad : Answers s .unpad (execUnpad s) := by
  unfold execUnpad
  split
  · exact answers_raise (by decide)
  split
  · rename_i e he
    exact answers_raise (removePadding_error he ▸ by decide)
  · rename_i m hm
    exact answers_complete (.unpad hm)

theorem answers_encm : Answers s .encm (execEncm s) := by
  unfold execEncm
  split
  · exact answers_raise (by decide)
  split
  · exact answers_raise (by decide)
  rename_i hfit
  split
  · rename_i e he
    exact answers_raise (encryptMessage_error he ▸ by decide)
  · rename_i c hc
    exact answers_complete (.encm (Nat.not_lt.1 hfit) hc)

theorem answers_decm : Answers s .decm (execDecm s) := by
  unfold execDecm
  split
  · exact answers_raise (by decide)
  rename_i hfit
  split
  · rename_i e he
    refine answers_raise ?_
    rcases decryptMessage_error he with rfl | rfl | rfl <;> decide
  · rename_i p m hp
    exact answers_complete (.decm (by simpa [State.msgFits] using hfit) hp)

theorem answers_egcd : Answers s .egcd (execEgcd s) := answers_complete (.egcd rfl)

theorem answers_minv : Answers s .minv (execMinv s) := by
  unfold execMinv
  split
  · exact answers_raise (by decide)
  rename_i hm
  split
  · rename_i e he
    exact answers_raise (modInverse_error he ▸ by decide)
  · rename_i v hv
    exact answers_complete (.minv hm hv)

theorem answers_ptst : Answers s .ptst (execPtst s) := by
  unfold execPtst
  split
  · exact answers_raise_afterDraws (by decide) (by decide)
  · rename_i v g hv
    exact answers_complete (.ptst hv)

theorem answers_pgen : Answers s .pgen (execPgen s) := by
  unfold execPgen
  split
  · exact answers_raise (by decide)
  rename_i hn
  split
  · exact answers_raise (by decide)
  rename_i hfit
  split
  · rename_i v hv
    exact answers_complete (.pgen (Nat.not_lt.1 hfit) hv)
  · exact answers_raise (by decide)
  all_goals exact answers_searchStep .pgen hn

theorem answers_mexp : Answers s .mexp (execMexp s) := by
  unfold execMexp
  split
  · exact answers_raise (by decide)
  · rename_i hm
    exact answers_complete (.mexp hm)

theorem answers_kgen : Answers s .kgen (execKgen s) := by
  unfold execKgen
  split
  · exact answers_raise (by decide)
  rename_i hn
  split
  · exact answers_raise (by decide)
  rename_i hfit
  split
  · rename_i p q hpq
    unfold finishKeyGen
    split
    · exact answers_raise (by decide)
    · rename_i d hd
      exact answers_complete (.kgen (Nat.not_lt.1 hfit) hpq hd)
  · exact answers_raise (by decide)
  · exact answers_searchStep .kgenP hn
  · rename_i p hp
    exact answers_searchStep (.kgenQ hp) hn
  · exact answers_searchStep .kgenP hn

theorem answers_renc : Answers s .renc (execRenc s) := by
  unfold execRenc
  split
  · exact answers_raise (by decide)
  split
  · exact answers_raise (by decide)
  · rename_i hm
    exact answers_complete (.renc (Nat.not_le.1 hm))

theorem answers_rdec : Answers s .rdec (execRdec s) := by
  unfold execRdec
  split
  · exact answers_raise (by decide)
  · rename_i hm
    exact answers_complete (.rdec hm)

/-- Every command answers, and what it leaves is one of the six ends of a command's step. -/
theorem exec_answers (i : Instr) : Answers s i (exec i s) := by
  cases i with
  | kexp => exact answers_kexp s
  | rkey => exact answers_rkey s
  | ark rnd => exact answers_ark s rnd
  | subb | shrow | mixc | isubb | ishrow | imixc => exact answers_completeBlock rfl _
  | encb | decb => exact answers_scheduledBlock s rfl _
  | pad => exact answers_pad s
  | unpad => exact answers_unpad s
  | encm => exact answers_encm s
  | decm => exact answers_decm s
  | egcd => exact answers_egcd s
  | minv => exact answers_minv s
  | ptst => exact answers_ptst s
  | pgen => exact answers_pgen s
  | mexp => exact answers_mexp s
  | kgen => exact answers_kgen s
  | renc => exact answers_renc s
  | rdec => exact answers_rdec s

end

theorem exec_leaves {i : Instr} {s t : State} (h : exec i s = .next t) : Leaves s i t := by
  obtain ⟨u, hu, hl⟩ := exec_answers s i
  cases hu.symm.trans h
  exact hl

/-! ### Frames of the shared operations -/

@[simp] theorem Part.same_refl (p : Part) (s : State) : p.same s s := by cases p <;> simp [Part.same]

@[simp] theorem Part.same_endWith_right (p : Part) (s t : State) (e : ErrCode) :
    p.same s (t.endWith e) ↔ p.same s t := by
  cases p <;> rfl

@[simp] theorem Part.same_endWith_left (p : Part) (s t : State) (e : ErrCode) :
    p.same (s.endWith e) t ↔ p.same s t := by
  cases p <;> rfl

theorem Part.same_afterDraws (p : Part) (hp : p ≠ .rng) (s : State) (g : Rng) : p.same s (s.afterDraws g) := by
  have hs := Part.same_refl p s
  cases p
  case rng => exact absurd rfl hp
  all_goals exact hs

theorem OnlyWrites.mono {written written' : List Part} {s t : State} (h : OnlyWrites written s t)
    (hsub : ∀ p ∈ written, p ∈ written') : OnlyWrites written' s t := by
  obtain ⟨hcfg, hev, hre, hp⟩ := h
  exact ⟨hcfg, hev, hre, fun p hn => hp p fun hw => hn (hsub p hw)⟩

theorem onlyWrites_endWith (s : State) (e : ErrCode) : OnlyWrites [] s (s.endWith e) :=
  ⟨rfl, rfl, rfl, fun p _ => by simp⟩

theorem onlyWrites_afterDraws_endWith (s : State) (g : Rng) (e : ErrCode) :
    OnlyWrites [.rng] s ((s.afterDraws g).endWith e) :=
  ⟨rfl, rfl, rfl, fun p hp => (Part.same_endWith_right ..).2 (Part.same_afterDraws p (by simpa using hp) s g)⟩

theorem ended_endWith (s : State) (e : ErrCode) : Ended e (s.endWith e) := ⟨rfl, rfl, rfl⟩

/-- Settles O23: of the six ends of a command's step only the two failing ones put a code in `ERR`. -/
theorem failedCommandCommitsNothing : Obligations.FailedCommandCommitsNothing := by
  intro i s t ht hs hfail
  cases exec_leaves ht with
  | failed he =>
    exact ⟨ended_endWith .., fun _ => onlyWrites_endWith .., (onlyWrites_endWith ..).mono (by simp)⟩
  | failedAfterDraws he hw =>
    exact ⟨ended_endWith .., fun hn => absurd hw hn, onlyWrites_afterDraws_endWith ..⟩
  | completed h => exact absurd rfl hfail
  | rejected hi | accepted hi hn h | drawFailed hi => exact absurd hs hfail

/-! ### `ExtEuclid`: the recurrence and the bounds (44 R221) -/

/-- More fuel than the remainder needs changes nothing. -/
theorem euclidLoop_fuel {fuel fuel' : Nat} (r0 r1 : Nat) (s0 s1 t0 t1 : Int) (h : r1 < fuel) (h' : r1 < fuel') :
    euclidLoop fuel r0 r1 s0 s1 t0 t1 = euclidLoop fuel' r0 r1 s0 s1 t0 t1 := by
  induction fuel generalizing fuel' r0 r1 s0 s1 t0 t1 with
  | zero => omega
  | succ fuel ih =>
    obtain ⟨fuel', rfl⟩ : ∃ k, fuel' = k + 1 := ⟨fuel' - 1, by omega⟩
    rw [euclidLoop, euclidLoop]
    by_cases h0 : r1 = 0
    · rw [if_pos h0, if_pos h0]
    · have hr : r0 - r0 / r1 * r1 < r1 := by
        rw [← Nat.mod_eq_sub_div_mul]
        exact Nat.mod_lt _ (by omega)
      rw [if_neg h0, if_neg h0]
      exact ih _ _ _ _ _ _ (by omega) (by omega)

/-- The loop's coefficients are linear in the ones it starts from. -/
theorem euclidLoop_linear (fuel r0 r1 : Nat) (s0 s1 t0 t1 : Int) :
    euclidLoop fuel r0 r1 s0 s1 t0 t1 =
      ((euclidLoop fuel r0 r1 1 0 0 1).1,
       s0 * (euclidLoop fuel r0 r1 1 0 0 1).2.1 + s1 * (euclidLoop fuel r0 r1 1 0 0 1).2.2,
       t0 * (euclidLoop fuel r0 r1 1 0 0 1).2.1 + t1 * (euclidLoop fuel r0 r1 1 0 0 1).2.2) := by
  induction fuel generalizing r0 r1 s0 s1 t0 t1 with
  | zero => simp [euclidLoop]
  | succ fuel ih =>
    rw [euclidLoop, euclidLoop]
    by_cases h0 : r1 = 0
    · simp [h0]
    · rw [if_neg h0, if_neg h0, ih, ih _ _ 0 (1 - _ * 0)]
      refine Prod.ext rfl (Prod.ext ?_ ?_) <;> ring

theorem extEuclid_zero (a : Nat) : extEuclid a 0 = (a, 1, 0) := rfl

/-- One iteration takes `(a, b)` to `(b, a mod b)` with quotient `a div b`. -/
theorem extEuclid_of_pos (a b : Nat) (hb : 0 < b) :
    extEuclid a b = ((extEuclid b (a % b)).1, (extEuclid b (a % b)).2.2,
      (extEuclid b (a % b)).2.1 - ((a / b : Nat) : Int) * (extEuclid b (a % b)).2.2) := by
  have hfuel := euclidLoop_fuel b (a % b) 1 0 0 1 (Nat.mod_lt a hb) (Nat.lt_succ_self _)
  rw [extEuclid, euclidLoop, if_neg (by omega), ← Nat.mod_eq_sub_div_mul, euclidLoop_linear, hfuel]
  refine Prod.ext rfl (Prod.ext ?_ ?_) <;> simp only [extEuclid] <;> ring

theorem extEuclid_fst (a b : Nat) : (extEuclid a b).1 = Nat.gcd a b := by
  induction b using Nat.strong_induction_on generalizing a with
  | _ b ih =>
    rcases Nat.eq_zero_or_pos b with rfl | hb
    · simp [extEuclid_zero]
    · rw [extEuclid_of_pos a b hb, ih _ (Nat.mod_lt a hb), Nat.gcd_comm b, ← Nat.gcd_rec, Nat.gcd_comm]

/-- The coefficients are no greater than the other operand. -/
theorem extEuclid_natAbs_le (a b : Nat) :
    (extEuclid a b).2.1.natAbs ≤ max b 1 ∧ (extEuclid a b).2.2.natAbs ≤ max a 1 := by
  induction b using Nat.strong_induction_on generalizing a with
  | _ b ih =>
    rcases Nat.eq_zero_or_pos b with rfl | hb
    · simp [extEuclid_zero]
    rw [extEuclid_of_pos a b hb]
    rcases Nat.eq_zero_or_pos (a % b) with hr | hr
    · simp [hr, extEuclid_zero]
    obtain ⟨hx, hy⟩ := ih _ (Nat.mod_lt a hb) b
    rw [max_eq_left hr] at hx
    rw [max_eq_left hb] at hy
    generalize extEuclid b (a % b) = e at hx hy
    obtain ⟨g, x, y⟩ := e
    refine ⟨hy.trans (le_max_left _ _), ?_⟩
    calc (x - ((a / b : Nat) : Int) * y).natAbs
        ≤ x.natAbs + (((a / b : Nat) : Int) * y).natAbs := Int.natAbs_sub_le _ _
      _ = x.natAbs + a / b * y.natAbs := by rw [Int.natAbs_mul, Int.natAbs_natCast]
      _ ≤ a % b + a / b * b := Nat.add_le_add hx (Nat.mul_le_mul_left _ hy)
      _ = a := by rw [Nat.mul_comm, Nat.mod_add_div]
      _ ≤ max a 1 := le_max_left _ _

/-- The gcd and the coefficients fit where both operands do. -/
theorem extEuclid_lt {a b bound g : Nat} {x y : Int} (ha : a < bound) (hb : b < bound) (hbound : 1 < bound)
    (h : extEuclid a b = (g, x, y)) : g < bound ∧ x.natAbs < bound ∧ y.natAbs < bound := by
  have hg := extEuclid_fst a b
  have hxy := extEuclid_natAbs_le a b
  rw [h] at hg hxy
  obtain ⟨hx, hy⟩ := hxy
  refine ⟨?_, hx.trans_lt (max_lt hb hbound), hy.trans_lt (max_lt ha hbound)⟩
  rcases Nat.eq_zero_or_pos a with rfl | h0
  · rw [Nat.gcd_zero_left] at hg
    exact hg.trans_lt hb
  · exact hg.trans_lt ((Nat.gcd_le_left _ h0).trans_lt ha)

/-! ### Values the number units write -/

theorem modInverse_lt {a n v : Nat} (h : modInverse a n = .ok v) (hn : n ≠ 0) : v < n := by
  unfold modInverse at h
  split at h
  rename_i g x y hg
  split at h
  · cases h
    have h1 := Int.emod_lt_of_pos x (show (0 : Int) < n by omega)
    omega
  · cases h

theorem modExpLoop_lt (b e m i r : Nat) (hm : 0 < m) (hr : r < m) : modExpLoop b e m i r < m := by
  induction i generalizing r with
  | zero => exact hr
  | succ i ih =>
    rw [modExpLoop]
    apply ih
    split <;> exact Nat.mod_lt _ hm

theorem modExp_lt (b e m : Nat) (hm : m ≠ 0) : modExp b e m < m :=
  have hm := Nat.pos_of_ne_zero hm
  modExpLoop_lt b e m _ _ hm (Nat.mod_lt _ hm)

theorem two_le_of_probablyPrime {n rounds : Nat} {g g' : Rng} (h : probablyPrime n rounds g = (some true, g')) :
    2 ≤ n := by
  by_contra hlt
  rw [probablyPrime, if_pos (by omega)] at h
  cases h

theorem candidateOf_lt (bits : Nat) (bytes : List Byte) (h : bits ≠ 0) : candidateOf bits bytes < 2 ^ bits :=
  Nat.or_lt_two_pow (Nat.mod_lt _ (by positivity)) (Nat.pow_lt_pow_right (by decide) (by omega))

/-- A search accepts only what fits in the bits searched for (44 R228, R229). -/
theorem primeRange_of_searchOnce {bits rounds v : Nat} {g g' : Rng} (hb : bits ≠ 0)
    (h : searchOnce bits rounds g = (.accepted v, g')) : PrimeRange bits v := by
  unfold searchOnce at h
  split at h
  · cases h
  rename_i c g1 hc
  split at h
  · cases h
  · rename_i g2 hp
    cases h
    unfold drawCandidate at hc
    split at hc
    · cases hc
    · cases hc
      exact ⟨two_le_of_probablyPrime hp, candidateOf_lt _ _ hb⟩
  · cases h

/-! ### Lengths the message unit writes -/

theorem length_applyPadding (b : List Byte) : (applyPadding b).length = b.length + padCount b.length := by
  simp [applyPadding, padBytes]

theorem length_padBytes (len : Nat) : (padBytes len).length = padCount len := List.length_replicate

theorem length_message (s : State) : s.message.length = s.msgLen := Memory.length_readBytes _ _ _

theorem length_encryptMessage {m key c : List Byte} {kbits keylen : Nat}
    (h : encryptMessage m key kbits keylen = .ok c) : c.length = m.length + padCount m.length := by
  unfold encryptMessage at h
  split at h
  · cases h
  · cases h
    rw [length_mapBlocks, length_applyPadding, padCount]
    omega

theorem length_decryptMessage_le {c key p m : List Byte} {kbits keylen : Nat}
    (h : decryptMessage c key kbits keylen = .ok (p, m)) : p.length ≤ c.length := by
  unfold decryptMessage at h
  split at h
  · cases h
  split at h
  · cases h
  dsimp only at h
  split at h
  · cases h
  · cases h
    rw [length_mapBlocks]
    omega

/-- The shortest bytes of a natural below `2^BN_BITS` fit in the data buffer (00 R7). -/
theorem length_beBytes_le_dmemBytes {c : Config} {n : Nat} (hc : c.Valid) (hn : n < 2 ^ c.bnBits) :
    (beBytes n).length ≤ c.dmemBytes := by
  have hbits := (bitLen_le_iff n _).2 hn
  obtain ⟨h32, -, -, -, -, hcap, -⟩ := hc
  rw [length_beBytes, bytesFor]
  omega

/-! ### The address map -/

theorem mapped_of_regAt {c : Config} {off : Nat} {r : Reg} (h : regAt c off = some r) : r.mapped c = true := by
  unfold regAt at h
  split at h
  · split at h
    · rename_i hm
      cases h
      exact hm
    · cases h
  · cases h

/-! ### Operations on single parts keep their part of the invariant -/

theorem BigInv.setBig {s : State} (h : BigInv s) (b : BigReg) {v : Nat} (hv : v < 2 ^ s.cfg.bnBits) :
    BigInv (s.setBig b v) := by
  intro c
  rw [State.setBig_cfg]
  by_cases hc : c = b
  · rw [hc, State.getBig_setBig_same]
    exact hv
  · rw [State.getBig_setBig_other s v hc]
    exact h c

theorem MemInv.writeBytes {s : State} (h : MemInv s) {a : Nat} {bs : List Byte}
    (hfit : a + bs.length ≤ s.cfg.dmemBytes) : MemInv { s with dmem := s.dmem.writeBytes a bs } :=
  ⟨Memory.wf_writeBytes _ _ _ h.1, Memory.below_writeBytes _ _ _ _ h.2 hfit⟩

theorem MemInv.setWord {s : State} (h : MemInv s) {k : Nat} (v : Word) (hk : 4 * k + 4 ≤ s.cfg.dmemBytes) :
    MemInv { s with dmem := s.dmem.setWord k v } :=
  h.writeBytes (a := 4 * k) (bs := [wordByte v 0, wordByte v 1, wordByte v 2, wordByte v 3]) hk

/-- The parts of the invariant that do not speak of the running command. -/
structure StoreInv (s : State) : Prop where
  config : s.cfg.Valid
  schedule : ScheduleInv s
  big : BigInv s
  mem : MemInv s

theorem Inv.store {s : State} (h : Inv s) : StoreInv s := ⟨h.config, h.schedule, h.big, h.mem⟩

theorem StoreInv.afterDraws {s : State} (h : StoreInv s) (g : Rng) : StoreInv (s.afterDraws g) :=
  ⟨h.config, h.schedule, h.big, h.mem⟩

theorem StoreInv.withBuffers {s : State} (h : StoreInv s) (key : Vector Byte 32) (blk : Block) :
    StoreInv { s with key := key, blk := blk } :=
  ⟨h.config, h.schedule, h.big, h.mem⟩

theorem storeInv_doReset {s : State} (h : s.cfg.Valid) : StoreInv s.doReset :=
  ⟨h, ⟨rfl, rfl⟩, fun b => by cases b <;> exact Nat.two_pow_pos _, ⟨List.Pairwise.nil, by simp⟩, by simp⟩

/-- Where nothing runs and nothing is searched, that is all of the invariant. -/
theorem StoreInv.inv_of_idle {s : State} (h : StoreInv s) (hb : s.status.busy = false)
    (hs : s.srch = .searchingP) : Inv s :=
  ⟨h.config, h.schedule, h.big, h.mem, by simp [SearchInv, hs], by simp [LifeInv, hb, hs]⟩

theorem StoreInv.inv_endWith {s : State} (h : StoreInv s) (e : ErrCode) : Inv (s.endWith e) :=
  StoreInv.inv_of_idle ⟨h.config, h.schedule, h.big, h.mem⟩ rfl rfl

theorem StoreInv.inv_start {s : State} (h : StoreInv s) (c : Word) : Inv (s.start c) :=
  ⟨h.config, h.schedule, h.big, h.mem, trivial, rfl, rfl⟩

/-! ### The host's accesses keep the invariant -/

theorem Inv.setBav {s : State} (h : Inv s) : Inv s.setBav :=
  ⟨h.config, h.schedule, h.big, h.mem, h.search, h.life⟩

theorem inv_writeStatus {s : State} (h : Inv s) (v : Word) : Inv (writeStatus v s) := by
  unfold writeStatus
  split
  · exact ⟨h.config, h.schedule, h.big, h.mem, h.search, h.life⟩
  · exact h

theorem Inv.takeTurn {s : State} (h : Inv s) : Inv s.takeTurn :=
  ⟨h.config, h.schedule, h.big, h.mem, h.search, h.life⟩

theorem Inv.withReplies {s : State} (h : Inv s) (rs : List Reply) : Inv { s with replies := rs } :=
  ⟨h.config, h.schedule, h.big, h.mem, h.search, h.life⟩

/-- A store keeps the bounds: a limb lies inside its register, a word of `DMEM` inside the capacity. -/
theorem StoreInv.storeReg {s : State} (h : StoreInv s) {r : Reg} (hr : r.mapped s.cfg = true) (v : Word) :
    StoreInv (s.storeReg r v) := by
  cases r with
  | big b j =>
    have hj : j < s.cfg.bnBits / 32 := of_decide_eq_true hr
    have hbig : BigInv (s.storeReg (.big b j) v) := h.big.setBig b (setLimb_lt _ _ _ _ (h.big b) (by omega))
    cases b <;> exact ⟨h.config, h.schedule, hbig, h.mem⟩
  | dmem k =>
    have hk : k < s.cfg.dmemBytes / 4 := of_decide_eq_true hr
    exact ⟨h.config, h.schedule, h.big, h.mem.setWord v (by omega)⟩
  | key j => exact h.withBuffers (setBufWord s.key j v) s.blk
  | blk c => exact h.withBuffers s.key (setBufWord s.blk c v)
  | ctrl | status | cmd | kbits | keylen | dlen | ntbits | ntrounds | w _ =>
    exact ⟨h.config, h.schedule, h.big, h.mem⟩

theorem storeReg_status (s : State) (r : Reg) (v : Word) : (s.storeReg r v).status = s.status := by
  cases r <;> simp [State.storeReg]

theorem storeReg_srch (s : State) (r : Reg) (v : Word) : (s.storeReg r v).srch = s.srch := by
  cases r <;> simp [State.storeReg]

theorem Inv.srch_of_idle {s : State} (h : Inv s) (hb : s.status.busy = false) : s.srch = .searchingP := by
  simpa [LifeInv, hb] using h.life

theorem inv_writeReg {s : State} (h : Inv s) {r : Reg} (hr : r.mapped s.cfg = true) (v : Word) :
    Inv (writeReg r v s) := by
  rcases writeReg_cases r v s with ⟨-, -, e⟩ | ⟨-, -, -, -, e⟩ | ⟨-, -, -, e⟩ | ⟨-, e⟩ | ⟨-, -, -, e⟩ | ⟨-, -, e⟩ |
    ⟨-, -, -, hb, e⟩ <;> rw [e]
  · exact (storeInv_doReset h.config).inv_of_idle rfl rfl
  · exact h.store.inv_endWith .aborted
  · exact h
  · exact inv_writeStatus h v
  · exact h.setBav
  · exact h.store.inv_start v
  · exact (h.store.storeReg hr v).inv_of_idle ((congrArg _ (storeReg_status s r v)).trans hb)
      ((storeReg_srch s r v).trans (h.srch_of_idle hb))

theorem inv_of_hostRead {off width : Nat} {s t : State} {r : Reply} (h : Inv s)
    (hr : hostRead off width s = .answered r t) : Inv t := by
  obtain ⟨reg, -, -, ⟨-, -, -, rfl⟩ | ⟨-, -, rfl⟩⟩ := hostRead_cases hr
  · exact h.setBav
  · exact h

theorem inv_of_hostWrite {off width : Nat} {v : Word} {s t : State} {r : Reply} (h : Inv s)
    (hw : hostWrite off width v s = .answered r t) : Inv t := by
  obtain ⟨reg, hreg, -, -, -, rfl⟩ := hostWrite_cases hw
  exact inv_writeReg h (mapped_of_regAt hreg) v

/-! ### Commands keep the invariant -/

/-- KEXP's schedule is that of some key of a legal size (10 R32, 41 R134). -/
theorem scheduleInv_kexp {s u : State} {nk nr : Nat}
    (hk : checkKeySize s.kbits.toNat s.keylen.toNat = .ok (nk, nr))
    (hw : u.w = scheduleReg (expandKey (s.keyBytes.take (4 * nk)) nk nr))
    (hst : u.status = s.status.setSchedule nr) : ScheduleInv u := by
  obtain ⟨hnk, rfl⟩ := checkKeySize_ok hk
  have hlen : s.keyBytes.length = 32 := Vector.length_toList
  unfold ScheduleInv State.rounds
  rw [hst, hw, Status.setSchedule_kvalid, if_pos rfl, Status.setSchedule_nr, BitVec.toNat_ofNat]
  exact ⟨nk, _, hnk, by rw [List.length_take]; omega, by omega, rfl⟩

/-- The primes of KGEN make a modulus and an exponent that fit (45 R262). -/
theorem keyPair_lt {bits bound p q d : Nat} (hfit : 2 * bits ≤ bound) (hp : PrimeRange bits p) (hq : PrimeRange bits q)
    (hd : modInverse pubExp ((p - 1) * (q - 1)) = .ok d) : p * q < 2 ^ bound ∧ d < 2 ^ bound := by
  obtain ⟨hp2, hp⟩ := hp
  obtain ⟨hq2, hq⟩ := hq
  have hn : p * q < 2 ^ bound := by
    calc p * q < 2 ^ bits * 2 ^ bits := Nat.mul_lt_mul'' hp hq
      _ = 2 ^ (2 * bits) := by rw [← Nat.pow_add, Nat.two_mul]
      _ ≤ 2 ^ bound := Nat.pow_le_pow_right (by decide) hfit
  have hphi : (p - 1) * (q - 1) ≠ 0 := Nat.mul_ne_zero (by omega) (by omega)
  have hle : (p - 1) * (q - 1) ≤ p * q := Nat.mul_le_mul (Nat.sub_le _ _) (Nat.sub_le _ _)
  exact ⟨hn, (modInverse_lt hd hphi).trans_le (hle.trans hn.le)⟩

/-- The widest constants a command writes fit in a big-number register (00 R7). -/
theorem two_pow_sixtyFour_le {c : Config} (h : c.Valid) : 2 ^ 64 ≤ 2 ^ c.bnBits := by
  obtain ⟨-, h64, -⟩ := h
  exact Nat.pow_le_pow_right (by decide) h64

/-- What a command writes on success keeps the bounds. -/
theorem Completed.storeInv {s u : State} {i : Instr} (hc : Completed s i u) (h : Inv s) : StoreInv u := by
  obtain ⟨hconfig, hsched, hbig, hmem, hsearch, -⟩ := h
  have hwide := two_pow_sixtyFour_le hconfig
  cases hc with
  | kexp hk => exact ⟨hconfig, scheduleInv_kexp hk rfl rfl, hbig, hmem⟩
  | rkey | block | unpad | ptst => exact ⟨hconfig, hsched, hbig, hmem⟩
  | pad hfit =>
    exact ⟨hconfig, hsched, hbig, hmem.writeBytes (by rw [length_padBytes]; exact hfit)⟩
  | encm hfit he =>
    have hlen := length_encryptMessage he
    rw [length_message] at hlen
    exact ⟨hconfig, hsched, hbig, hmem.writeBytes (by omega)⟩
  | decm hfit hd =>
    have hlen := length_decryptMessage_le hd
    rw [length_message] at hlen
    exact ⟨hconfig, hsched, hbig, hmem.writeBytes (by omega)⟩
  | egcd he =>
    obtain ⟨hg, hx, hy⟩ := extEuclid_lt (hbig .ba) (hbig .bb) (lt_of_lt_of_le (by decide) hwide) he
    exact ⟨hconfig, hsched, ((hbig.setBig .br hg).setBig .bx hx).setBig .bY hy, hmem⟩
  | minv hm hv =>
    exact ⟨hconfig, hsched, hbig.setBig .br ((modInverse_lt hv hm).trans (hbig .bm)), hmem⟩
  | pgen hfit hv =>
    rw [SearchInv, hv] at hsearch
    exact ⟨hconfig, hsched,
      hbig.setBig .br (hsearch.2.trans_le (Nat.pow_le_pow_right (by decide) hfit)), hmem⟩
  | mexp hm => exact ⟨hconfig, hsched, hbig.setBig .br ((modExp_lt _ _ _ hm).trans (hbig .bm)), hmem⟩
  | kgen hfit hpq hd =>
    rw [SearchInv, hpq] at hsearch
    obtain ⟨hp, hq⟩ := hsearch
    obtain ⟨hn, hd⟩ := keyPair_lt hfit hp hq hd
    exact ⟨hconfig, hsched, ((hbig.setBig .bm hn).setBig .bb (v := pubExp)
      (lt_of_lt_of_le (by decide) hwide)).setBig .br hd, hmem⟩
  | renc hm =>
    exact ⟨hconfig, hsched, hbig.setBig .br ((modExp_lt _ _ _ (by omega)).trans (hbig .bm)), hmem⟩
  | rdec hm =>
    have hr := (modExp_lt s.ba s.bb s.bm hm).trans (hbig .bm)
    exact ⟨hconfig, hsched, hbig.setBig .br hr, hmem.writeBytes
      (by rw [Nat.zero_add]; exact length_beBytes_le_dmemBytes hconfig hr)⟩

/-- An accepted candidate is recorded in range (44 R229, R230). -/
theorem SearchHit.searchInv {s : State} {i : Instr} {hit : Nat → Search} {v : Nat} (hi : SearchHit s i hit) (g : Rng)
    (h : SearchInv s) (hv : PrimeRange s.ntbits.toNat v) : SearchInv { s with srch := hit v, rng := g } := by
  cases hi with
  | pgen => exact hv
  | kgenP => exact hv
  | kgenQ hp =>
    rw [SearchInv, hp] at h
    exact ⟨h, hv⟩

/-- What a search step leaves keeps the invariant where the progress it records is in range. -/
theorem Inv.searching {s : State} (h : Inv s) (hb : s.status.busy = true) (p : Search) (g : Rng)
    (hp : SearchInv { s with srch := p, rng := g }) : Inv { s with srch := p, rng := g } := by
  refine ⟨h.config, h.schedule, h.big, h.mem, hp, ?_⟩
  simpa [LifeInv, hb] using h.life

theorem inv_of_exec {s t : State} {i : Instr} (h : Inv s) (hb : s.status.busy = true) (ht : exec i s = .next t) :
    Inv t := by
  cases exec_leaves ht with
  | failed => exact h.store.inv_endWith _
  | failedAfterDraws => exact (h.store.afterDraws _).inv_endWith _
  | completed hc => exact (hc.storeInv h).inv_endWith _
  | rejected => exact h.searching hb s.srch _ h.search
  | accepted hi hn hv =>
    refine h.searching hb _ _ (hi.searchInv _ h.search (primeRange_of_searchOnce ?_ hv))
    exact fun h0 => hn (BitVec.eq_of_toNat_eq h0)
  | drawFailed => exact h.searching hb _ _ trivial

theorem inv_of_engineTurn {s t : State} (h : Inv s) (ht : engineTurn s = .next t) : Inv t := by
  rcases engineTurn_cases ht with ⟨-, rfl⟩ | ⟨hb, i, -, he⟩ | ⟨-, r, -, rfl⟩
  · exact h
  · exact inv_of_exec h hb he
  · exact h.store.inv_endWith _

/-- Settles O8, by the agent that moves. -/
theorem everyStepKeepsTheInvariant : Obligations.EveryStepKeepsTheInvariant := by
  intro s t h ht
  have hturn : Inv s.takeTurn := h.takeTurn
  rcases step_cases ht with ⟨-, he⟩ | ⟨off, width, u, r, -, hu, rfl⟩ | ⟨off, width, v, u, r, -, hu, rfl⟩ | ⟨-, rfl⟩
  · exact inv_of_engineTurn hturn he
  · exact (inv_of_hostRead hturn hu).withReplies _
  · exact (inv_of_hostWrite hturn hu).withReplies _
  · exact (storeInv_doReset hturn.config).inv_of_idle rfl rfl

/-! ### Two runs of one command -/

/-- Two states with a command running that agree on what `i` may read (30 R95): the parameters, the progress of the search
and the listed operands. -/
structure Alike (i : Instr) (s s' : State) : Prop where
  busy : s.status.busy = true
  busy' : s'.status.busy = true
  err : s'.status.err = s.status.err
  cfg : s'.cfg = s.cfg
  valid : s.cfg.Valid
  mem : MemInv s
  mem' : MemInv s'
  big : BigInv s
  srch : s'.srch = s.srch
  reads : ∀ p ∈ readsOf i, p.same s s'

/-- Both results are next states that end (or go on) alike with the same written values; of RDEC the message is compared. -/
def SameAnswers (i : Instr) (r r' : Result) : Prop :=
  ∃ t t', r = .next t ∧ r' = .next t' ∧
    t.status.busy = t'.status.busy ∧ t.status.err = t'.status.err ∧ t.srch = t'.srch ∧
    (Part.rng ∈ readsOf i → t.rng = t'.rng) ∧
    (Ended .noError t → ∀ p ∈ writesOf i, ¬ (p = .dmem ∧ i = .rdec) → p.same t t') ∧
    (Ended .noError t → i = .rdec → t.message = t'.message)

theorem rng_mem_writesOf {i : Instr} (h : Part.rng ∈ readsOf i) : Part.rng ∈ writesOf i := by
  cases i
  case rkey | ptst | pgen | kgen => decide
  all_goals exact absurd h (by simp [readsOf])

section
variable {i : Instr} {s s' : State} (h : Alike i s s')
include h

theorem Alike.rng (hr : Part.rng ∈ readsOf i) : s'.rng = s.rng := h.reads .rng hr

theorem Alike.msgLen (hr : Part.dlen ∈ readsOf i) : s'.msgLen = s.msgLen := by
  rw [State.msgLen, h.reads .dlen hr, State.msgLen]

theorem Alike.msgFits (hr : Part.dlen ∈ readsOf i) : s'.msgFits = s.msgFits := by
  rw [State.msgFits, h.msgLen hr, h.cfg, State.msgFits]

theorem Alike.message (hr : Part.dlen ∈ readsOf i) (hd : Part.dmem ∈ readsOf i) : s'.message = s.message := by
  rw [State.message, h.msgLen hr, State.message]
  exact Memory.readBytes_congr _ _ _ _ fun a _ => h.reads .dmem hd (0 + a)

theorem Alike.keyBytes (hr : Part.key ∈ readsOf i) : s'.keyBytes = s.keyBytes :=
  congrArg Vector.toList (h.reads .key hr)

theorem Alike.schedule (hr : Part.w ∈ readsOf i) : s'.schedule = s.schedule :=
  congrArg Vector.toList (h.reads .w hr)

theorem Alike.rounds (hr : Part.nr ∈ readsOf i) : s'.rounds = s.rounds :=
  congrArg BitVec.toNat (h.reads .nr hr)

theorem sameAnswers_raise {e : ErrCode} (he : e ≠ .noError) : SameAnswers i (raise e s) (raise e s') :=
  ⟨_, _, rfl, rfl, rfl, rfl, rfl, fun hr => (h.rng hr).symm, fun hend => absurd hend.2.2 he,
    fun hend => absurd hend.2.2 he⟩

omit h in
theorem sameAnswers_raise_afterDraws {e : ErrCode} (he : e ≠ .noError) (g : Rng) :
    SameAnswers i (raise e (s.afterDraws g)) (raise e (s'.afterDraws g)) :=
  ⟨_, _, rfl, rfl, rfl, rfl, rfl, fun _ => rfl, fun hend => absurd hend.2.2 he, fun hend => absurd hend.2.2 he⟩

omit h in
theorem sameAnswers_complete {u u' : State} (hi : i ≠ .rdec) (hw : ∀ p ∈ writesOf i, p.same u u') :
    SameAnswers i (complete u) (complete u') :=
  ⟨_, _, rfl, rfl, rfl, rfl, rfl, fun hr => (hw .rng (rng_mem_writesOf hr)).symm,
    fun _ p hp _ => (Part.same_endWith_right ..).2 ((Part.same_endWith_left ..).2 (hw p hp)), fun _ hi' => absurd hi' hi⟩

omit h in
theorem sameAnswers_completeBlock (hi : writesOf i = [.blk]) (b : Block) :
    SameAnswers i (completeBlock s b) (completeBlock s' b) := by
  refine sameAnswers_complete (fun hr => by rw [hr] at hi; cases hi) ?_
  rw [hi]
  simp [Part.same]

theorem sameAnswers_continueSearch (p : Search) (g : Rng) :
    SameAnswers i (continueSearch s p g) (continueSearch s' p g) := by
  have running : ¬ Ended .noError { s with srch := p, rng := g } := fun hend => by
    simpa [h.busy] using hend.1
  exact ⟨_, _, rfl, rfl, h.busy.trans h.busy'.symm, h.err.symm, rfl, fun _ => rfl,
    fun hend => absurd hend running, fun hend => absurd hend running⟩

theorem sameAnswers_searchStep (hr : readsOf i = [.ntbits, .ntrounds, .rng]) (hit : Nat → Search) :
    SameAnswers i (searchStep hit s) (searchStep hit s') := by
  have hbits : s'.ntbits = s.ntbits := h.reads .ntbits (by simp [hr])
  have hrounds : s'.ntrounds = s.ntrounds := h.reads .ntrounds (by simp [hr])
  unfold searchStep
  rw [hbits, hrounds, h.rng (by simp [hr]), h.srch]
  split
  all_goals exact sameAnswers_continueSearch h _ _

end

/-- What a byte string leaves in two buffers that read alike reads alike. -/
theorem Memory.read_writeBytes_congr {m m' : Memory} (hm : m.wf) (hm' : m'.wf) (h : ∀ a, m'.read a = m.read a)
    (a : Nat) (bs : List Byte) (b : Nat) : (m'.writeBytes a bs).read b = (m.writeBytes a bs).read b := by
  by_cases hb : b < a ∨ a + bs.length ≤ b
  · rw [Memory.read_writeBytes_outside _ _ _ _ hb, Memory.read_writeBytes_outside _ _ _ _ hb, h]
  · obtain ⟨k, rfl⟩ := Nat.exists_eq_add_of_le (show a ≤ b by omega)
    have hk : k < bs.length := by omega
    exact Option.some.inj ((Memory.read_writeBytes_inside m' a bs k hm' hk).trans
      (Memory.read_writeBytes_inside m a bs k hm hk).symm)

/-- Two ends of a message command that write the same bytes at the same place, and the same length (43 R191, R195, R197). -/
theorem sameAnswers_completeMessage {i : Instr} {s s' u u' : State} (h : Alike i s s')
    (hi : writesOf i = [.dmem, .dlen]) (hr : Part.dmem ∈ readsOf i) {a : Nat} {bs : List Byte}
    (hu : u.dmem = s.dmem.writeBytes a bs) (hu' : u'.dmem = s'.dmem.writeBytes a bs) (hlen : u'.dlen = u.dlen) :
    SameAnswers i (complete u) (complete u') := by
  refine sameAnswers_complete (fun hr => by rw [hr] at hi; cases hi) ?_
  rw [hi]
  simpa [Part.same, hu, hu', hlen] using Memory.read_writeBytes_congr h.mem.1 h.mem'.1 (h.reads .dmem hr) a bs

/-! ### Each command reads only what the table lists for it -/

section
variable {s s' : State}

theorem sameAnswers_kexp (h : Alike .kexp s s') : SameAnswers .kexp (execKexp s) (execKexp s') := by
  have hkbits : s'.kbits = s.kbits := h.reads .kbits (by decide)
  have hkeylen : s'.keylen = s.keylen := h.reads .keylen (by decide)
  unfold execKexp
  rw [hkbits, hkeylen, h.keyBytes (by decide)]
  split
  · rename_i e he
    exact sameAnswers_raise h (checkKeySize_error he ▸ by decide)
  · exact sameAnswers_complete (by decide) (by simp [writesOf, Part.same])

theorem sameAnswers_rkey (h : Alike .rkey s s') : SameAnswers .rkey (execRkey s) (execRkey s') := by
  have hkbits : s'.kbits = s.kbits := h.reads .kbits (by decide)
  unfold execRkey
  rw [hkbits, h.rng (by decide)]
  split
  · exact sameAnswers_raise h (by decide)
  split
  · exact sameAnswers_raise_afterDraws (by decide) _
  · exact sameAnswers_complete (by decide) (by simp [writesOf, Part.same])

theorem sameAnswers_ark {rnd : Nat} (h : Alike (.ark rnd) s s') :
    SameAnswers (.ark rnd) (execArk rnd s) (execArk rnd s') := by
  have hkvalid : s'.status.kvalid = s.status.kvalid := h.reads .kvalid (by simp [readsOf])
  have hblk : s'.blk = s.blk := h.reads .blk (by simp [readsOf])
  unfold execArk
  rw [hkvalid, hblk, h.rounds (by simp [readsOf]), h.schedule (by simp [readsOf])]
  split
  · exact sameAnswers_raise h (by decide)
  split
  · exact sameAnswers_raise h (by decide)
  · exact sameAnswers_completeBlock rfl _

/-- The round steps without an operand read `S` alone. -/
theorem sameAnswers_blockStep {i : Instr} (h : Alike i s s') (hr : readsOf i = [.blk]) (hw : writesOf i = [.blk])
    (f : Block → Block) : SameAnswers i (completeBlock s (f s.blk)) (completeBlock s' (f s'.blk)) := by
  have hblk : s'.blk = s.blk := h.reads .blk (by simp [hr])
  rw [hblk]
  exact sameAnswers_completeBlock hw _

/-- A transform of `S` by the schedule reads what the table lists for ENCB and DECB. -/
theorem sameAnswers_scheduledBlock {i : Instr} (h : Alike i s s') (hr : readsOf i = [.kvalid, .nr, .w, .blk])
    (hw : writesOf i = [.blk]) (f : List Word → Nat → Block → Block) :
    SameAnswers i
      (if !s.status.kvalid then raise .keyScheduleInvalid s else completeBlock s (f s.schedule s.rounds s.blk))
      (if !s'.status.kvalid then raise .keyScheduleInvalid s' else completeBlock s' (f s'.schedule s'.rounds s'.blk)) := by
  have hkvalid : s'.status.kvalid = s.status.kvalid := h.reads .kvalid (by simp [hr])
  have hblk : s'.blk = s.blk := h.reads .blk (by simp [hr])
  rw [hkvalid, hblk, h.rounds (by simp [hr]), h.schedule (by simp [hr])]
  split
  · exact sameAnswers_raise h (by decide)
  · exact sameAnswers_completeBlock hw _

theorem sameAnswers_pad (h : Alike .pad s s') : SameAnswers .pad (execPad s) (execPad s') := by
  unfold execPad
  rw [h.msgFits (by decide), h.msgLen (by decide), h.cfg]
  split
  · exact sameAnswers_raise h (by decide)
  split
  · exact sameAnswers_raise h (by decide)
  · exact sameAnswers_completeMessage h rfl (by decide) rfl rfl rfl

theorem sameAnswers_unpad (h : Alike .unpad s s') : SameAnswers .unpad (execUnpad s) (execUnpad s') := by
  unfold execUnpad
  rw [h.msgFits (by decide), h.message (by decide) (by decide)]
  split
  · exact sameAnswers_raise h (by decide)
  split
  · rename_i e he
    exact sameAnswers_raise h (removePadding_error he ▸ by decide)
  · exact sameAnswers_complete (by decide) (by simp [writesOf, Part.same])

theorem sameAnswers_encm (h : Alike .encm s s') : SameAnswers .encm (execEncm s) (execEncm s') := by
  have hkbits : s'.kbits = s.kbits := h.reads .kbits (by decide)
  have hkeylen : s'.keylen = s.keylen := h.reads .keylen (by decide)
  unfold execEncm
  rw [h.msgFits (by decide), h.msgLen (by decide), h.cfg, h.message (by decide) (by decide), h.keyBytes (by decide),
    hkbits, hkeylen]
  split
  · exact sameAnswers_raise h (by decide)
  split
  · exact sameAnswers_raise h (by decide)
  split
  · rename_i e he
    exact sameAnswers_raise h (encryptMessage_error he ▸ by decide)
  · exact sameAnswers_completeMessage h rfl (by decide) rfl rfl rfl

theorem sameAnswers_decm (h : Alike .decm s s') : SameAnswers .decm (execDecm s) (execDecm s') := by
  have hkbits : s'.kbits = s.kbits := h.reads .kbits (by decide)
  have hkeylen : s'.keylen = s.keylen := h.reads .keylen (by decide)
  unfold execDecm
  rw [h.msgFits (by decide), h.message (by decide) (by decide), h.keyBytes (by decide), hkbits, hkeylen]
  split
  · exact sameAnswers_raise h (by decide)
  split
  · rename_i e he
    refine sameAnswers_raise h ?_
    rcases decryptMessage_error he with rfl | rfl | rfl <;> decide
  · exact sameAnswers_completeMessage h rfl (by decide) rfl rfl rfl

theorem sameAnswers_egcd (h : Alike .egcd s s') : SameAnswers .egcd (execEgcd s) (execEgcd s') := by
  have hba : s'.ba = s.ba := h.reads .ba (by decide)
  have hbb : s'.bb = s.bb := h.reads .bb (by decide)
  unfold execEgcd
  rw [hba, hbb]
  exact sameAnswers_complete (by decide) (by simp [writesOf, Part.same])

theorem sameAnswers_minv (h : Alike .minv s s') : SameAnswers .minv (execMinv s) (execMinv s') := by
  have hba : s'.ba = s.ba := h.reads .ba (by decide)
  have hbm : s'.bm = s.bm := h.reads .bm (by decide)
  unfold execMinv
  rw [hba, hbm]
  split
  · exact sameAnswers_raise h (by decide)
  split
  · rename_i e he
    exact sameAnswers_raise h (modInverse_error he ▸ by decide)
  · exact sameAnswers_complete (by decide) (by simp [writesOf, Part.same])

theorem sameAnswers_ptst (h : Alike .ptst s s') : SameAnswers .ptst (execPtst s) (execPtst s') := by
  have hba : s'.ba = s.ba := h.reads .ba (by decide)
  have hrounds : s'.ntrounds = s.ntrounds := h.reads .ntrounds (by decide)
  unfold execPtst
  rw [hba, hrounds, h.rng (by decide)]
  split
  · exact sameAnswers_raise_afterDraws (by decide) _
  · exact sameAnswers_complete (by decide) (by simp [writesOf, Part.same])

theorem sameAnswers_pgen (h : Alike .pgen s s') : SameAnswers .pgen (execPgen s) (execPgen s') := by
  have hbits : s'.ntbits = s.ntbits := h.reads .ntbits (by decide)
  unfold execPgen
  rw [hbits, h.cfg, h.srch]
  split
  · exact sameAnswers_raise h (by decide)
  split
  · exact sameAnswers_raise h (by decide)
  split
  · exact sameAnswers_complete (by decide) (by simp [writesOf, Part.same, h.rng (by decide)])
  · exact sameAnswers_raise h (by decide)
  all_goals exact sameAnswers_searchStep h rfl _

theorem sameAnswers_mexp (h : Alike .mexp s s') : SameAnswers .mexp (execMexp s) (execMexp s') := by
  have hba : s'.ba = s.ba := h.reads .ba (by decide)
  have hbb : s'.bb = s.bb := h.reads .bb (by decide)
  have hbm : s'.bm = s.bm := h.reads .bm (by decide)
  unfold execMexp
  rw [hba, hbb, hbm]
  split
  · exact sameAnswers_raise h (by decide)
  · exact sameAnswers_complete (by decide) (by simp [writesOf, Part.same])

theorem sameAnswers_kgen (h : Alike .kgen s s') : SameAnswers .kgen (execKgen s) (execKgen s') := by
  have hbits : s'.ntbits = s.ntbits := h.reads .ntbits (by decide)
  unfold execKgen
  rw [hbits, h.cfg, h.srch]
  split
  · exact sameAnswers_raise h (by decide)
  split
  · exact sameAnswers_raise h (by decide)
  split
  · unfold finishKeyGen
    split
    · exact sameAnswers_raise h (by decide)
    · exact sameAnswers_complete (by decide) (by simp [writesOf, Part.same, h.rng (by decide)])
  · exact sameAnswers_raise h (by decide)
  all_goals exact sameAnswers_searchStep h rfl _

theorem sameAnswers_renc (h : Alike .renc s s') : SameAnswers .renc (execRenc s) (execRenc s') := by
  have hbb : s'.bb = s.bb := h.reads .bb (by decide)
  have hbm : s'.bm = s.bm := h.reads .bm (by decide)
  unfold execRenc
  rw [h.msgFits (by decide), h.message (by decide) (by decide), hbb, hbm]
  split
  · exact sameAnswers_raise h (by decide)
  split
  · exact sameAnswers_raise h (by decide)
  · exact sameAnswers_complete (by decide) (by simp [writesOf, Part.same])

/-- A byte string written to the front of the buffer with its length is the message. -/
theorem message_of_writeBytes {u : State} {m : Memory} {bs : List Byte} (hm : m.wf) (hlen : bs.length < 2 ^ 32)
    (hdmem : u.dmem = m.writeBytes 0 bs) (hdlen : u.dlen = BitVec.ofNat 32 bs.length) : u.message = bs := by
  rw [State.message, State.msgLen, hdmem, hdlen, BitVec.toNat_ofNat, Nat.mod_eq_of_lt hlen,
    Memory.readBytes_writeBytes m 0 bs hm]

theorem sameAnswers_rdec (h : Alike .rdec s s') : SameAnswers .rdec (execRdec s) (execRdec s') := by
  have hba : s'.ba = s.ba := h.reads .ba (by decide)
  have hbb : s'.bb = s.bb := h.reads .bb (by decide)
  have hbm : s'.bm = s.bm := h.reads .bm (by decide)
  unfold execRdec
  rw [hba, hbb, hbm]
  split
  · exact sameAnswers_raise h (by decide)
  rename_i hm
  have hfit := length_beBytes_le_dmemBytes h.valid ((modExp_lt s.ba s.bb s.bm hm).trans (h.big .bm))
  have hlen : (beBytes (modExp s.ba s.bb s.bm)).length < 2 ^ 32 := by
    obtain ⟨-, -, -, -, -, -, hcap⟩ := h.valid
    omega
  refine ⟨_, _, rfl, rfl, rfl, rfl, rfl, fun hr => absurd hr (by decide), fun _ => by simp [writesOf, Part.same], ?_⟩
  intro _ _
  exact (message_of_writeBytes h.mem.1 hlen rfl rfl).trans (message_of_writeBytes h.mem'.1 hlen rfl rfl).symm

end

theorem sameAnswers_exec {i : Instr} {s s' : State} (h : Alike i s s') : SameAnswers i (exec i s) (exec i s') := by
  cases i with
  | kexp => exact sameAnswers_kexp h
  | rkey => exact sameAnswers_rkey h
  | ark rnd => exact sameAnswers_ark h
  | subb | shrow | mixc | isubb | ishrow | imixc => exact sameAnswers_blockStep h rfl rfl _
  | encb => exact sameAnswers_scheduledBlock h rfl rfl encryptBlock
  | decb => exact sameAnswers_scheduledBlock h rfl rfl decryptBlock
  | pad => exact sameAnswers_pad h
  | unpad => exact sameAnswers_unpad h
  | encm => exact sameAnswers_encm h
  | decm => exact sameAnswers_decm h
  | egcd => exact sameAnswers_egcd h
  | minv => exact sameAnswers_minv h
  | ptst => exact sameAnswers_ptst h
  | pgen => exact sameAnswers_pgen h
  | mexp => exact sameAnswers_mexp h
  | kgen => exact sameAnswers_kgen h
  | renc => exact sameAnswers_renc h
  | rdec => exact sameAnswers_rdec h

/-- Settles O25, command by command. -/
theorem commandsReadOnlyWhatTheTableLists : Obligations.CommandsReadOnlyWhatTheTableLists := by
  intro i s s' hbusy hbusy' herr hcfg hvalid hmem hmem' hbig hsrch hreads
  exact sameAnswers_exec ⟨hbusy, hbusy', herr.symm, hcfg.symm, hvalid, hmem, hmem', hbig, hsrch.symm, hreads⟩

end Sys2Proof.Machine

/-! PROOFS of the statements on the state's registers: what a read answers, what a write leaves, reset, `STATUS`, the schedule,
EGCD and the loading of a block. `step_of_read` and `step_of_write` say once what the step of a host access to a register is;
the statements about single registers are uses of them. -/

namespace Sys2Proof.Machine

/-! ### The step of an access and of a reset -/

theorem step_of_hostRead {s : State} {off width : Nat} (h : HostReads s off width) :
    step s = portStep (hostRead off width s.takeTurn) := by
  obtain ⟨es, hes⟩ := List.head?_eq_some_iff.1 h
  simp only [step, takeStep, State.takeTurn, hes, List.tail_cons]

theorem step_of_hostWrite {s : State} {off width : Nat} {v : Word} (h : HostWrites s off width v) :
    step s = portStep (hostWrite off width v s.takeTurn) := by
  obtain ⟨es, hes⟩ := List.head?_eq_some_iff.1 h
  simp only [step, takeStep, State.takeTurn, hes, List.tail_cons]

theorem step_of_hardReset {s : State} (h : s.events.head? = some .hardReset) : step s = .next s.takeTurn.doReset := by
  obtain ⟨es, hes⟩ := List.head?_eq_some_iff.1 h
  simp only [step, takeStep, State.takeTurn, hes, List.tail_cons]

theorem alignedWord_of_mod {off : Nat} (h : off % 4 = 0) : alignedWord off 32 = true := by
  simp [alignedWord, h]

theorem readReg_takeTurn (s : State) (r : Reg) : s.takeTurn.readReg r = s.readReg r := by
  cases r with
  | big b j => cases b <;> rfl
  | _ => rfl

theorem storeReg_replies (s : State) (r : Reg) (v : Word) : (s.storeReg r v).replies = s.replies := by
  cases r <;> simp [State.storeReg]

/-- A store acts alike whatever the port has answered before. -/
theorem storeReg_withReplies (s : State) (r : Reg) (v : Word) (rs : List Reply) :
    ({ s with replies := rs } : State).storeReg r v = { s.storeReg r v with replies := rs } := by
  cases r with
  | big b j => cases b <;> rfl
  | _ => rfl

/-- Recording the answer after a write or before it is the same. -/
theorem writeReg_recorded (r : Reg) (v : Word) (s : State) (a : Reply) :
    { writeReg r v s with replies := a :: (writeReg r v s).replies } =
      writeReg r v { s with replies := a :: s.replies } := by
  unfold writeReg writeCtrl writeStatus
  split_ifs -- all but the last branch, the store, are updates of fields by name
  iterate 7 rfl
  rw [storeReg_replies]
  exact (storeReg_withReplies s r v _).symm

section
variable {s : State} {off : Nat} {r : Reg} (hoff : off % 4 = 0) (hreg : regAt s.cfg off = some r)
include hoff hreg

theorem hostRead_answers_word (hb : s.status.busy = false ∨ r = .status) :
    hostRead off 32 s = .answered (.word (s.readReg r)) s := by
  have hallowed : (s.status.busy && r != .status) = false := by
    rcases hb with hb | rfl
    · simp [hb]
    · simp
  simp only [hostRead, alignedWord_of_mod hoff, hreg, hallowed, Bool.not_true, Bool.false_eq_true, ↓reduceIte]

theorem hostRead_busy (hb : s.status.busy = true) (hr : r ≠ .status) :
    hostRead off 32 s = .answered (.word 0) s.setBav := by
  simp [hostRead, alignedWord_of_mod hoff, hreg, hb, hr]

theorem hostWrite_answers_ok (v : Word) (hr : r.readOnly = false) :
    hostWrite off 32 v s = .answered .ok (writeReg r v s) := by
  simp [hostWrite, alignedWord_of_mod hoff, hreg, hr]

/-- A read of `STATUS`, and of any register while no command runs, answers the register's word (20 R69, R71). -/
theorem step_of_read (h : HostReads s off 32) (hb : s.status.busy = false ∨ r = .status) :
    step s = .next (s.answered (.word (s.readReg r))) := by
  rw [step_of_hostRead h, hostRead_answers_word (s := s.takeTurn) hoff hreg hb, readReg_takeTurn]
  rfl

/-- While a command runs a read of another register answers 0 and sets `BAV` (20 R71 (c)). -/
theorem step_of_busy_read (h : HostReads s off 32) (hb : s.status.busy = true) (hr : r ≠ .status) :
    step s = .next (s.setBav.answered (.word 0)) := by
  rw [step_of_hostRead h, hostRead_busy (s := s.takeTurn) hoff hreg hb hr]
  rfl

/-- A write to a register that is not read-only is answered and acts on it (20 R70, R71). -/
theorem step_of_write {v : Word} (h : HostWrites s off 32 v) (hr : r.readOnly = false) :
    step s = .next (writeReg r v (s.answered .ok)) := by
  rw [step_of_hostWrite h, hostWrite_answers_ok (s := s.takeTurn) hoff hreg v hr, portStep, writeReg_recorded]
  rfl

end

/-! ### What a write to a register does, and its frame -/

theorem writeReg_ctrl_reset {v : Word} (h : v.getLsbD 0 = true) (s : State) : writeReg .ctrl v s = s.doReset := by
  simp only [writeReg, writeCtrl, h, ↓reduceIte]

theorem writeReg_ctrl_abort {v : Word} {s : State} (h0 : v.getLsbD 0 = false) (h1 : v.getLsbD 1 = true)
    (hb : s.status.busy = true) : writeReg .ctrl v s = s.abort := by
  simp only [writeReg, writeCtrl, h0, h1, hb, Bool.and_self, Bool.false_eq_true, ↓reduceIte]

theorem writeReg_ctrl_none {v : Word} {s : State} (h0 : v.getLsbD 0 = false)
    (h : v.getLsbD 1 = false ∨ s.status.busy = false) : writeReg .ctrl v s = s := by
  have h : (v.getLsbD 1 && s.status.busy) = false := Bool.and_eq_false_iff.2 h
  simp only [writeReg, writeCtrl, h0, h, Bool.false_eq_true, ↓reduceIte]

/-- A write to `STATUS` keeps `BAV` exactly where bit 6 of the word is 0 (10 R22). -/
theorem writeReg_status (v : Word) (s : State) :
    writeReg .status v s = { s with status := { s.status with bav := s.status.bav && !v.getLsbD 6 } } := by
  simp only [writeReg, writeStatus, reduceCtorEq, ↓reduceIte]
  cases v.getLsbD 6
  · simp
  · simp

theorem writeReg_cmd_of_idle {v : Word} {s : State} (hb : s.status.busy = false) : writeReg .cmd v s = s.start v := by
  simp [writeReg, hb]

theorem writeReg_of_busy {r : Reg} {v : Word} {s : State} (hc : r ≠ .ctrl) (hs : r ≠ .status)
    (hb : s.status.busy = true) : writeReg r v s = s.setBav := by
  simp [writeReg, hc, hs, hb]

theorem writeReg_of_idle {r : Reg} {v : Word} {s : State} (hc : r ≠ .ctrl) (hs : r ≠ .status) (hm : r ≠ .cmd)
    (hb : s.status.busy = false) : writeReg r v s = s.storeReg r v := by
  simp [writeReg, hc, hs, hm, hb]

theorem onlyWrites_start (s : State) (c : Word) : OnlyWrites [.oplatch] s (s.start c) := by
  refine ⟨rfl, rfl, rfl, fun p hp => ?_⟩
  have hs := p.same_refl s
  cases p
  case oplatch => exact absurd (List.mem_singleton_self _) hp
  all_goals exact hs

theorem onlyWrites_setBav (s : State) : OnlyWrites [.bav] s s.setBav := by
  refine ⟨rfl, rfl, rfl, fun p hp => ?_⟩
  have hs := p.same_refl s
  cases p
  case bav => exact absurd (List.mem_singleton_self _) hp
  all_goals exact hs

/-- Settles O10, from what a write to `CMD` does when idle and when busy, and the two reads. -/
theorem cmdWriteIsTheStartStep : Obligations.CmdWriteIsTheStartStep := by
  refine ⟨fun s v h hb => ?_, fun s v h hb => ?_, fun s h => ?_⟩
  · have hstep := (step_of_write rfl rfl h rfl).trans (congrArg _ (writeReg_cmd_of_idle hb))
    exact ⟨_, hstep, rfl, rfl, rfl, rfl, rfl, onlyWrites_start ..⟩
  · have hstep := (step_of_write rfl rfl h rfl).trans (congrArg _ (writeReg_of_busy (by decide) (by decide) hb))
    exact ⟨_, hstep, rfl, hb, rfl, rfl, rfl, onlyWrites_setBav _⟩
  · cases hb : s.status.busy with
    | false => exact ⟨_, step_of_read rfl rfl h (.inl hb), rfl, fun _ => rfl⟩
    | true => exact ⟨_, step_of_busy_read rfl rfl h hb (by decide), rfl, fun h => nomatch h⟩

/-- Settles O11, from the cases of a write to `CTRL` with bit 0 clear. -/
theorem abortEndsTheRunningCommand : Obligations.AbortEndsTheRunningCommand := by
  refine ⟨fun s v h h0 h1 hb => ?_, fun _ v h h0 h1 => ?_⟩
  · have hstep := (step_of_write rfl rfl h rfl).trans (congrArg _ (writeReg_ctrl_abort h0 h1 hb))
    exact ⟨_, hstep, ended_endWith .., rfl, rfl, onlyWrites_endWith ..⟩
  · exact (step_of_write rfl rfl h rfl).trans (congrArg _ (writeReg_ctrl_none h0 h1))

/-- Settles O12: neither access to `STATUS` asks whether a command runs. -/
theorem statusAccessAlwaysWorks : Obligations.StatusAccessAlwaysWorks :=
  ⟨fun _ v h => (step_of_write rfl rfl h rfl).trans (congrArg _ (writeReg_status v _)),
    fun _ h => step_of_read rfl rfl h (.inr rfl)⟩

/-! ### Reset -/

/-- A reset leaves what the table of 10 R41 lists. -/
theorem resetValues_doReset (s : State) : ResetValues s.doReset := by
  simp [ResetValues, Status.reset, ErrCode.code]

theorem toWord_reset : Status.reset.toWord = 0x00000000 := by decide

/-- Settles O6: both resets are `State.doReset`, and the reset state is its own reset. -/
theorem resetPutsEveryPieceAtItsResetValue : Obligations.ResetPutsEveryPieceAtItsResetValue := by
  refine ⟨resetValues_doReset State.reset, toWord_reset, rfl, fun s h => ?_, fun _ v h h0 => ?_⟩
  · exact ⟨_, step_of_hardReset h, resetValues_doReset _, toWord_reset, rfl, rfl, rfl, rfl, rfl⟩
  · have hstep := (step_of_write rfl rfl h rfl).trans (congrArg _ (writeReg_ctrl_reset h0 _))
    exact ⟨_, hstep, resetValues_doReset _, toWord_reset, rfl, rfl, rfl, rfl, rfl⟩

/-- Settles O7: the reset state is its own reset, and idle. -/
theorem invariantHoldsAtReset : Obligations.InvariantHoldsAtReset :=
  (storeInv_doReset (s := State.reset) (by decide)).inv_of_idle rfl rfl

/-! ### `STATUS` as a word -/

theorem getLsbD_flagBit (b : Bool) : (flagBit b).getLsbD 0 = b := by cases b <;> rfl

/-- Settles O13: bit by bit down the fields appended in `Status.toWord`, and the wider fields as slices of it. -/
theorem statusWordHoldsItsFields : Obligations.StatusWordHoldsItsFields := by
  intro t
  unfold Status.toWord
  refine ⟨?_, ?_, ?_, ?_, ?_, ?_, ?_, ?_, ?_, ?_, ?_, ?_⟩
  iterate 8
    simp only [BitVec.getLsbD_append, getLsbD_flagBit, Nat.reduceLT, Nat.reduceSub, Nat.lt_irrefl, Nat.zero_lt_one,
      ↓reduceIte]
  · rfl
  all_goals
    simp (disch := decide) only [BitVec.extractLsb'_append_eq_of_le, BitVec.extractLsb'_append_eq_of_add_le,
      BitVec.extractLsb'_eq_self, Nat.reduceSub]

/-! ### The address map -/

theorem offset_mod_four (r : Reg) : r.offset % 4 = 0 := by
  cases r with
  | big b j => cases b <;> simp only [Reg.offset, BigReg.base] <;> omega
  | _ => simp only [Reg.offset] <;> omega

/-- A register that exists is the one its offset's window holds (20 R61). -/
theorem regWindow_offset {c : Config} (hc : c.Valid) {r : Reg} (hr : r.mapped c = true) :
    regWindow r.offset = some r := by
  obtain ⟨-, -, hbits, -, -, -, -⟩ := hc
  cases r with
  | big b j =>
    have hj : j < c.bnBits / 32 := of_decide_eq_true hr
    cases b <;> simp only [Reg.offset, BigReg.base, regWindow] <;> grind
  | key j | blk j | w j | dmem j =>
    have hj := of_decide_eq_true hr
    simp only [Reg.offset, regWindow]
    grind
  | _ => rfl

theorem regAt_offset {c : Config} (hc : c.Valid) {r : Reg} (hr : r.mapped c = true) : regAt c r.offset = some r := by
  rw [regAt, regWindow_offset hc hr]
  exact if_pos hr

theorem offset_of_regWindow {off : Nat} {r : Reg} (h : regWindow off = some r) (hoff : off % 4 = 0) :
    r.offset = off := by
  unfold regWindow at h
  rcases ite_eq_iff.1 h with ⟨hlt, h⟩ | ⟨hge, h⟩
  · obtain ⟨k, rfl⟩ : ∃ k, off = 4 * k := ⟨off / 4, by omega⟩
    have hk : k < 8 := by omega
    rw [Nat.mul_div_cancel_left k (by decide)] at h
    interval_cases k <;> exact Option.some.inj h ▸ rfl
  iterate 9
    rcases ite_eq_iff.1 h with ⟨-, h⟩ | ⟨hge, h⟩
    · obtain rfl := Option.some.inj h
      simp only [Reg.offset, BigReg.base]
      omega
  rcases ite_eq_iff.1 h with ⟨-, h⟩ | ⟨hge, h⟩
  · cases h
  · obtain rfl := Option.some.inj h
    simp only [Reg.offset]
    omega

/-- An aligned offset that holds a register is that register's (20 R61). -/
theorem offset_of_regAt {c : Config} {off : Nat} {r : Reg} (h : regAt c off = some r) (hoff : off % 4 = 0) :
    r.offset = off := by
  unfold regAt at h
  split at h
  · rename_i hw
    split at h
    · exact offset_of_regWindow (hw.trans h) hoff
    · cases h
  · cases h

/-! ### The words a register reads as -/

/-- Lane `t` of word `k` of the data buffer is byte `4k + t` (20 R63). -/
theorem Memory.word_lane (m : Memory) (k t : Nat) (ht : t < 4) :
    (m.word k).extractLsb' (24 - 8 * t) 8 = m.read (4 * k + t) := by
  rw [Memory.word, beWord_lane _ _ _ _ _ ht]
  interval_cases t <;> rfl

theorem readReg_w (s : State) (i : Nat) (h : i < 60) : s.readReg (.w i) = s.w[i] := by
  simp [State.readReg, h]

theorem readReg_answered (s : State) (a : Reply) (r : Reg) : (s.answered a).readReg r = s.readReg r := by
  cases r with
  | big b j => cases b <;> rfl
  | _ => rfl

/-- Settles O18: an idle read is answered with the register's word, which recording the answer does not change. -/
theorem readsHaveNoSideEffects : Obligations.ReadsHaveNoSideEffects := by
  refine ⟨fun s r es hc hb hr hes => ?_, fun s => ?_⟩
  · have hreg := regAt_offset hc hr
    have hoff := offset_mod_four r
    have hsecond := step_of_read (s := s.answered (.word (s.readReg r))) hoff hreg
      (by rw [HostReads, State.answered, hes]; rfl) (.inl hb)
    rw [readReg_answered] at hsecond
    exact ⟨step_of_read hoff hreg (by rw [HostReads, hes]; rfl) (.inl hb), hsecond⟩
  · refine ⟨rfl, rfl, rfl, ?_, ?_, rfl, rfl, ?_, fun j t h ht => bufWord_lane s.key j t h ht,
      fun c t h ht => bufWord_lane s.blk c t h ht, fun k t ht => s.dmem.word_lane k t ht, readReg_w s,
      fun b n hb j i hi => ?_⟩
    iterate 3 exact BitVec.toNat_setWidth_of_le (by decide : _ ≤ 32)
    have hn : s.getBig b = n := by
      simp only [List.mem_cons, Prod.mk.injEq, List.not_mem_nil, or_false] at hb
      rcases hb with ⟨rfl, rfl⟩ | ⟨rfl, rfl⟩ | ⟨rfl, rfl⟩ | ⟨rfl, rfl⟩ | ⟨rfl, rfl⟩ | ⟨rfl, rfl⟩ <;> rfl
    exact hn ▸ getLsbD_limb (s.getBig b) j i hi

/-! ### Read after write -/

/-- The word written to the data buffer is the word read back. -/
theorem Memory.word_setWord_same (m : Memory) (k : Nat) (v : Word) (h : m.wf) : (m.setWord k v).word k = v := by
  have lanes := Memory.readBytes_writeBytes m (4 * k) [wordByte v 0, wordByte v 1, wordByte v 2, wordByte v 3] h
  injection lanes with h0 lanes
  injection lanes with h1 lanes
  injection lanes with h2 lanes
  injection lanes with h3 lanes
  rw [Memory.setWord, Memory.word, h0, h1, h2, h3, beWord_wordByte]

/-- A register that keeps all 32 bits reads as the word stored in it. -/
theorem readReg_storeReg_same {s : State} {r : Reg} (hm : s.dmem.wf) (hr : r.mapped s.cfg = true) (v : Word)
    (h : r = .dlen ∨ r = .ntbits ∨ (∃ j, r = .key j) ∨ (∃ c, r = .blk c) ∨ (∃ b j, r = .big b j) ∨ ∃ k, r = .dmem k) :
    (s.storeReg r v).readReg r = v := by
  rcases h with rfl | rfl | ⟨j, rfl⟩ | ⟨c, rfl⟩ | ⟨b, j, rfl⟩ | ⟨k, rfl⟩
  · rfl
  · rfl
  · have hj : j < 8 := of_decide_eq_true hr
    exact bufWord_setBufWord_same s.key j v (by omega)
  · have hc : c < 4 := of_decide_eq_true hr
    exact bufWord_setBufWord_same s.blk c v (by omega)
  · exact (congrArg (limb · j) (State.getBig_setBig_same ..)).trans (limb_setLimb_same ..)
  · exact Memory.word_setWord_same s.dmem k v hm

/-- The low `k` bits of a word, reserved bits reading 0 (20 R67). -/
theorem setWidth_setWidth_eq_and (v : Word) (k : Nat) (hk : k ≤ 32) :
    (v.setWidth k).setWidth 32 = v &&& BitVec.ofNat 32 (2 ^ k - 1) := by
  have hpow : 2 ^ k ≤ 2 ^ 32 := Nat.pow_le_pow_right (by decide) hk
  apply BitVec.eq_of_toNat_eq
  rw [BitVec.toNat_setWidth_of_le hk, BitVec.toNat_setWidth, BitVec.toNat_and, BitVec.toNat_ofNat,
    Nat.mod_eq_of_lt (show 2 ^ k - 1 < 2 ^ 32 by omega), Nat.and_two_pow_sub_one_eq_mod]

/-- The registers whose write stores the word and does nothing else (20 R70). -/
def Reg.stores : Reg → Bool
  | .ctrl | .status | .cmd | .w _ => false
  | .kbits | .keylen | .dlen | .ntbits | .ntrounds | .key _ | .blk _ | .big _ _ | .dmem _ => true

theorem Reg.readOnly_of_stores {r : Reg} (h : r.stores = true) : r.readOnly = false := by
  cases r with
  | w i => cases h
  | _ => rfl

/-- On an idle block a write to a storing register is answered and stores its word. -/
theorem step_of_store {s : State} {r : Reg} {v : Word} (hc : s.cfg.Valid) (hr : r.mapped s.cfg = true)
    (hb : s.status.busy = false) (hs : r.stores = true) (hw : HostWrites s r.offset 32 v) :
    step s = .next ((s.answered .ok).storeReg r v) := by
  have hstep := step_of_write (offset_mod_four r) (regAt_offset hc hr) hw (Reg.readOnly_of_stores hs)
  rwa [writeReg_of_idle (by rintro rfl; cases hs) (by rintro rfl; cases hs) (by rintro rfl; cases hs)
    (show (s.answered .ok).status.busy = false from hb)] at hstep

/-- Settles O19: the step is a store, and what a store leaves in its register is read back. -/
theorem writtenRegisterReadsBack : Obligations.WrittenRegisterReadsBack := by
  intro s t r v hc hm hb hr hw ht
  have stored (hs : r.stores = true) : t = (s.answered .ok).storeReg r v := by
    cases ht.symm.trans (step_of_store hc hr hb hs hw)
    rfl
  refine ⟨?_, ?_, fun h => ?_⟩
  · rintro rfl
    rw [stored rfl]
    exact setWidth_setWidth_eq_and v 16 (by decide)
  · rintro (rfl | rfl)
    all_goals
      rw [stored rfl]
      exact setWidth_setWidth_eq_and v 8 (by decide)
  · have hs : r.stores = true := by
      rcases h with rfl | rfl | ⟨j, rfl⟩ | ⟨c, rfl⟩ | ⟨b, j, rfl⟩ | ⟨k, rfl⟩ <;> rfl
    rw [stored hs]
    exact readReg_storeReg_same (s := s.answered .ok) hm.1 hr v h

/-! ### The schedule -/

/-- `W`, `KVALID` and `NR` are the same in both states. -/
abbrev ScheduleKept (s t : State) : Prop :=
  t.w = s.w ∧ t.status.kvalid = s.status.kvalid ∧ t.status.nr = s.status.nr

theorem keySizeOk_of_checkKeySize {s : State} {nk nr : Nat}
    (h : checkKeySize s.kbits.toNat s.keylen.toNat = .ok (nk, nr)) : KeySizeOk s := by
  unfold checkKeySize at h
  split at h
  · cases h
  rename_i hlen
  split at h
  · cases h
  rename_i hlegal
  refine ⟨not_not.1 hlen, ?_⟩
  simpa only [legalKeyBits, Bool.not_eq_true', Bool.not_eq_false, Bool.or_eq_true, beq_iff_eq, or_assoc] using hlegal

/-- Of all that a command can leave, only KEXP's success writes the schedule. -/
theorem schedule_of_exec {s t : State} {i : Instr} (h : exec i s = .next t) :
    ScheduleKept s t ∨ (i = .kexp ∧ KeySizeOk s ∧ Ended .noError t) := by
  cases exec_leaves h with
  | failed | failedAfterDraws | rejected | accepted | drawFailed => exact .inl ⟨rfl, rfl, rfl⟩
  | completed hc =>
    cases hc with
    | kexp hk => exact .inr ⟨rfl, keySizeOk_of_checkKeySize hk, ended_endWith ..⟩
    | _ => exact .inl ⟨rfl, rfl, rfl⟩

theorem storeReg_w (s : State) (r : Reg) (v : Word) : (s.storeReg r v).w = s.w := by
  cases r <;> simp [State.storeReg]

theorem scheduleKept_storeReg (s : State) (r : Reg) (v : Word) : ScheduleKept s (s.storeReg r v) := by
  rw [ScheduleKept, storeReg_w, storeReg_status]
  exact ⟨rfl, rfl, rfl⟩

theorem scheduleKept_writeReg {r : Reg} {v : Word} {s : State} (h : ¬ (r = .ctrl ∧ v.getLsbD 0 = true)) :
    ScheduleKept s (writeReg r v s) := by
  rcases writeReg_cases r v s with ⟨hr, h0, -⟩ | ⟨-, -, -, -, e⟩ | ⟨-, -, -, e⟩ | ⟨rfl, -⟩ | ⟨-, -, -, e⟩ | ⟨-, -, e⟩ |
    ⟨-, -, -, -, e⟩
  · exact absurd ⟨hr, h0⟩ h
  case inr.inr.inr.inl => rw [writeReg_status]; exact ⟨rfl, rfl, rfl⟩
  case inr.inr.inr.inr.inr.inr => rw [e]; exact scheduleKept_storeReg s r v
  all_goals rw [e]; exact ⟨rfl, rfl, rfl⟩

/-- Settles O21, by the agent that moves. -/
theorem onlyKexpAndResetWriteTheSchedule : Obligations.OnlyKexpAndResetWriteTheSchedule := by
  intro s t ht
  rcases step_cases ht with ⟨hn, he⟩ | ⟨off, width, u, a, -, hu, rfl⟩ | ⟨off, width, v, u, a, hw, hu, rfl⟩ | ⟨hr, -⟩
  · rcases engineTurn_cases he with ⟨-, rfl⟩ | ⟨hb, i, hd, hx⟩ | ⟨-, r, -, rfl⟩
    · exact .inl ⟨rfl, rfl, rfl⟩
    · rcases schedule_of_exec hx with hkept | ⟨rfl, hk, hend⟩
      · exact .inl hkept
      · exact .inr (.inr ⟨hn, hb, hd, hk, hend⟩)
    · exact .inl ⟨rfl, rfl, rfl⟩
  · obtain ⟨r, -, -, ⟨-, -, -, rfl⟩ | ⟨-, -, rfl⟩⟩ := hostRead_cases hu <;> exact .inl ⟨rfl, rfl, rfl⟩
  · obtain ⟨r, hreg, ha, -, -, rfl⟩ := hostWrite_cases hu
    by_cases hreset : r = .ctrl ∧ v.getLsbD 0 = true
    · obtain ⟨rfl, h0⟩ := hreset
      obtain ⟨rfl, hoff⟩ : width = 32 ∧ off % 4 = 0 := by simpa [alignedWord] using ha
      obtain rfl : 0x0000 = off := offset_of_regAt hreg hoff
      exact .inr (.inl (.inr ⟨v, hw, h0⟩))
    · exact .inl (scheduleKept_writeReg (s := s.takeTurn) hreset)
  · exact .inr (.inl (.inl hr))

/-! ### EGCD -/

/-- A command that answers with the completion of `u` completes with what `u` holds. -/
theorem completesWith_of_complete {i : Instr} {s u : State} {written : List Part} {P : State → Prop}
    (h : exec i s = complete u) (hw : OnlyWrites written s u) (hP : P (u.endWith .noError)) :
    CompletesWith i s written P := by
  obtain ⟨hcfg, hev, hre, hp⟩ := hw
  exact ⟨_, h, ended_endWith .., hP, hcfg, hev, hre, fun p hn => (Part.same_endWith_right ..).2 (hp p hn)⟩

theorem extEuclid_bezout (a b : Nat) :
    (a : Int) * (extEuclid a b).2.1 + (b : Int) * (extEuclid a b).2.2 = (extEuclid a b).1 := by
  induction b using Nat.strong_induction_on generalizing a with
  | _ b ih =>
    rcases Nat.eq_zero_or_pos b with rfl | hb
    · simp [extEuclid_zero]
    · have hrec := ih _ (Nat.mod_lt a hb) b
      have hdiv : (b : Int) * (a / b : Nat) + (a % b : Nat) = a := by exact_mod_cast Nat.div_add_mod a b
      rw [extEuclid_of_pos a b hb, ← hrec, ← hdiv]
      ring

/-- The integer a coefficient's magnitude and sign flag stand for (44 R222). -/
theorem signed_natAbs (x : Int) : (if decide (x < 0) = true then -(x.natAbs : Int) else x.natAbs) = x := by
  simp only [decide_eq_true_eq]
  split <;> omega

theorem sign_of_natAbs_eq_zero {x : Int} (h : x.natAbs = 0) : decide (x < 0) = false := by
  simp [Int.natAbs_eq_zero.1 h]

/-- Settles O45: the magnitudes with their flags are the coefficients of `ExtEuclid`. -/
theorem egcdWritesSignedBezout : Obligations.EgcdWritesSignedBezout := by
  intro s
  refine completesWith_of_complete rfl ⟨rfl, rfl, rfl, fun p hp => ?_⟩
    ⟨extEuclid_fst .., ?_, sign_of_natAbs_eq_zero, sign_of_natAbs_eq_zero, rfl, rfl⟩
  · have hs := p.same_refl s
    cases p
    case br | bx | bY | xneg | yneg => simp at hp
    all_goals exact hs
  · have hx := signed_natAbs (extEuclid s.ba s.bb).2.1
    have hy := signed_natAbs (extEuclid s.ba s.bb).2.2
    exact (congrArg₂ (fun x y : Int => (s.ba : Int) * x + s.bb * y) hx hy).trans (extEuclid_bezout ..)

/-! ### Loading the block -/

theorem run_succ_of_step {M : Host.Core} {s t : M.State} (h : M.step s = .next t) (n : Nat) :
    M.run (n + 1) s = M.run n t := by
  rw [Host.Core.run, h]

/-- `S` after words of it are written one after another: word `c` of `cs` is `f c`. -/
def loadWords (f : Nat → Word) (cs : List Nat) (b : Block) : Block := cs.foldl (fun b c => setBufWord b c (f c)) b

theorem loadWords_get (f : Nat → Word) (cs : List Nat) (b : Block) (i : Nat) (h : i < 16) :
    (loadWords f cs b)[i] = if i / 4 ∈ cs then wordByte (f (i / 4)) (i % 4) else b[i] := by
  induction cs generalizing b with
  | nil => rfl
  | cons c cs ih =>
    refine (ih (setBufWord b c (f c))).trans ?_
    rw [setBufWord_get b c (f c) i h]
    by_cases hc : i / 4 = c
    · subst hc
      simp
    · simp [hc]

/-- On an idle block a row of writes to `S` is answered and loads the words. -/
theorem run_blk_writes (f : Nat → Word) (cs : List Nat) (hcs : ∀ c ∈ cs, c < 4) (s : State) (hc : s.cfg.Valid)
    (hb : s.status.busy = false) (hes : s.events = cs.map fun c => .hostWrite (Reg.blk c).offset 32 (f c)) :
    Host.Core.run core cs.length s = .next { s with
      blk := loadWords f cs s.blk, events := [], replies := List.replicate cs.length .ok ++ s.replies } := by
  induction cs generalizing s with
  | nil =>
    rw [List.map_nil] at hes
    rw [← hes]
    rfl
  | cons c cs ih =>
    have hstep : step s = .next { s.answered .ok with blk := setBufWord s.blk c (f c) } :=
      step_of_store (r := .blk c) hc (decide_eq_true (hcs c (by simp))) hb rfl (by rw [HostWrites, hes]; rfl)
    have hrest := ih (fun c hc => hcs c (by simp [hc])) { s.answered .ok with blk := setBufWord s.blk c (f c) } hc hb
      (congrArg List.tail hes)
    rw [List.length_cons, List.replicate_succ', List.append_assoc]
    exact (run_succ_of_step (M := core) hstep _).trans hrest

theorem wordByte_stringWord (bs : List Byte) (j t : Nat) (ht : t < 4) :
    wordByte (stringWord bs j) t = bs.getD (4 * j + t) 0 := by
  rw [wordByte, stringWord, beWord_lane _ _ _ _ _ ht]
  interval_cases t <;> rfl

/-- The four words of a string of sixteen bytes load it in index order, whatever the block held. -/
theorem loadWords_stringWord (bs : List Byte) (h : bs.length = 16) (b : Block) :
    (loadWords (stringWord bs) (List.range 4) b).toList = bs := by
  apply List.ext_getElem (by rw [Vector.length_toList, h])
  intro i hi hi'
  have hword : i / 4 ∈ List.range 4 := List.mem_range.2 (by omega)
  rw [Vector.getElem_toList, loadWords_get _ _ _ _ (by omega), if_pos hword, wordByte_stringWord _ _ _ (by omega),
    Nat.div_add_mod, List.getD_eq_getElem _ _ hi']

/-- `ldblk` says nothing of the random source. -/
theorem withScript_ldblk {s : State} (h : s.events = []) (bs : List Byte) :
    s.withScript (ldblk bs) =
      { s with events := (List.range 4).map fun c => .hostWrite (Reg.blk c).offset 32 (stringWord bs c) } := by
  have hdraws : (ldblk bs).flatMap ScriptLine.draws = [] := rfl
  rw [State.withScript, h, hdraws, List.append_nil]
  rfl

/-- Settles O59: `ldblk` is a row of four writes to `S`. -/
theorem ldblkLoadsTheBlock : Obligations.LdblkLoadsTheBlock := by
  intro s b hc hb hev hlen
  have hrun := run_blk_writes (stringWord b) (List.range 4) (by simp) (s.withScript (ldblk b)) hc hb
    (by rw [withScript_ldblk hev])
  rw [withScript_ldblk hev] at hrun ⊢
  refine ⟨_, hrun, loadWords_stringWord b hlen s.blk, ?_⟩
  rw [← hev]
  rfl

end Sys2Proof.Machine

/-! PROOFS of the statements on the host port and the address map: which offsets hold a register, which accesses the port
refuses, what it drops while a command runs, and what a store leaves alone. `regAt_eq_none_iff` says once where the map ends,
`HeldStill` what no step of a running command touches. -/

namespace Sys2Proof.Machine

/-! ### No step but a `BusError` stops -/

theorem engineTurn_answers (s : State) : ∃ t, engineTurn s = .next t := by
  cases hb : s.status.busy with
  | false => exact ⟨s, engineTurn_of_idle hb⟩
  | true =>
    cases hd : decode s.oplatch with
    | ok i =>
      obtain ⟨t, ht, -⟩ := exec_answers s i
      exact ⟨t, (engineTurn_of_decode hb hd).trans ht⟩
    | error r => exact ⟨s.endWith .illegalCommand, by simp [engineTurn, runCommand, State.fetch, hb, hd, raise_eq]⟩

/-- The step of an access is refused exactly where the port answers `BusError`. -/
theorem portStep_refused_iff (p : PortResult) :
    (∃ cause, portStep p = .refused (.busError cause)) ↔ ∃ cause, p = .busError cause := by
  cases p <;> simp [portStep]

theorem portStep_answers (p : PortResult) :
    (∃ t, portStep p = .next t) ∨ ∃ cause, portStep p = .refused (.busError cause) := by
  cases p with
  | answered r s => exact .inl ⟨_, rfl⟩
  | busError cause => exact .inr ⟨cause, rfl⟩

/-- Settles O9, by the agent that moves: the engine's turn answers always, and the port's step stops only for a `BusError`. -/
theorem onlyBusErrorsStopTheMachine : Obligations.OnlyBusErrorsStopTheMachine := by
  intro s
  cases hes : s.events with
  | nil => exact .inl (step_of_engineIsNext (.inl hes) ▸ engineTurn_answers _)
  | cons e es =>
    have hhead : s.events.head? = some e := by rw [hes, List.head?_cons]
    cases e with
    | engine => exact .inl (step_of_engineIsNext (.inr hhead) ▸ engineTurn_answers _)
    | hostRead off width => exact step_of_hostRead hhead ▸ portStep_answers _
    | hostWrite off width v => exact step_of_hostWrite hhead ▸ portStep_answers _
    | hardReset => exact .inl ⟨_, step_of_hardReset hhead⟩

/-! ### Where the map holds a register -/

/-- The window of a big-number register is one of the six of 20 R61. -/
theorem BigReg.base_window (b : BigReg) : ∃ k, 1 ≤ k ∧ k ≤ 6 ∧ b.base = 0x1000 * k := by
  cases b
  · exact ⟨1, by decide⟩
  · exact ⟨2, by decide⟩
  · exact ⟨3, by decide⟩
  · exact ⟨4, by decide⟩
  · exact ⟨5, by decide⟩
  · exact ⟨6, by decide⟩

theorem BigReg.exists_base {k : Nat} (h1 : 1 ≤ k) (h6 : k ≤ 6) : ∃ b : BigReg, b.base = 0x1000 * k := by
  interval_cases k
  · exact ⟨.ba, rfl⟩
  · exact ⟨.bb, rfl⟩
  · exact ⟨.bm, rfl⟩
  · exact ⟨.br, rfl⟩
  · exact ⟨.bx, rfl⟩
  · exact ⟨.bY, rfl⟩

/-- The eight words from 0x0000 up are the control registers (20 R61). -/
theorem exists_control_reg (c : Config) : ∀ k < 8, ∃ r : Reg, r.mapped c = true ∧ r.offset = 4 * k
  | 0, _ => ⟨.ctrl, rfl, rfl⟩
  | 1, _ => ⟨.status, rfl, rfl⟩
  | 2, _ => ⟨.cmd, rfl, rfl⟩
  | 3, _ => ⟨.kbits, rfl, rfl⟩
  | 4, _ => ⟨.keylen, rfl, rfl⟩
  | 5, _ => ⟨.dlen, rfl, rfl⟩
  | 6, _ => ⟨.ntbits, rfl, rfl⟩
  | 7, _ => ⟨.ntrounds, rfl, rfl⟩
  | k + 8, h => absurd h (by omega)

/-- The map does not look at the lane of an offset: each of its bounds is a multiple of 4. -/
theorem regWindow_align (off : Nat) : regWindow (4 * (off / 4)) = regWindow off := by
  have hlt (m : Nat) (hm : m % 4 = 0) : 4 * (off / 4) < m ↔ off < m := by omega
  have hsub (m : Nat) (hm : m % 4 = 0) : (4 * (off / 4) - m) / 4 = (off - m) / 4 := by omega
  unfold regWindow
  refine if_congr (hlt _ rfl) (by rw [Nat.mul_div_cancel_left _ (by decide)]) ?_
  iterate 9 refine if_congr (hlt _ rfl) (by rw [hsub _ rfl]) ?_
  refine if_congr (hlt _ rfl) rfl ?_
  rw [hsub _ rfl]

theorem regAt_align (c : Config) (off : Nat) : regAt c (4 * (off / 4)) = regAt c off := by
  rw [regAt, regAt, regWindow_align]

section
variable {c : Config} (hc : c.Valid)
include hc

/-- Each of the four byte offsets of a register lies in the map. -/
theorem mappedOffset_of_mapped {r : Reg} (hr : r.mapped c = true) {t : Nat} (ht : t < 4) :
    MappedOffset c (r.offset + t) := by
  obtain ⟨hbits, -, -, hbytes, -, -, -⟩ := hc
  cases r with
  | key j | blk j =>
    have hj := of_decide_eq_true hr
    exact .inl (by simp only [Reg.offset]; omega)
  | w i =>
    have hi := of_decide_eq_true hr
    exact .inr (.inl (by simp only [Reg.offset]; omega))
  | big b j =>
    have hj := of_decide_eq_true hr
    obtain ⟨k, h1, h6, hbase⟩ := b.base_window
    exact .inr (.inr (.inl ⟨k, h1, h6, by simp only [Reg.offset]; omega⟩))
  | dmem k =>
    have hk := of_decide_eq_true hr
    exact .inr (.inr (.inr (by simp only [Reg.offset]; omega)))
  | ctrl | status | cmd | kbits | keylen | dlen | ntbits | ntrounds =>
    exact .inl (by simp only [Reg.offset]; omega)

/-- Every aligned offset of the map is some register's. -/
theorem exists_reg_of_mappedOffset {off : Nat} (hoff : off % 4 = 0) (h : MappedOffset c off) :
    ∃ r : Reg, r.mapped c = true ∧ r.offset = off := by
  obtain ⟨hbits, -, -, hbytes, -, -, -⟩ := hc
  obtain ⟨n, rfl⟩ := Nat.dvd_of_mod_eq_zero hoff
  rcases h with h | ⟨hlo, hhi⟩ | ⟨k, h1, h6, hlo, hhi⟩ | ⟨hlo, hhi⟩
  · rcases (by omega : n < 8 ∨ (8 ≤ n ∧ n < 16) ∨ (16 ≤ n ∧ n < 20)) with hn | ⟨hlo, hhi⟩ | ⟨hlo, hhi⟩
    · exact exists_control_reg c n hn
    · exact ⟨.key (n - 8), decide_eq_true (by omega), by simp only [Reg.offset]; omega⟩
    · exact ⟨.blk (n - 16), decide_eq_true (by omega), by simp only [Reg.offset]; omega⟩
  · exact ⟨.w (n - 64), decide_eq_true (by omega), by simp only [Reg.offset]; omega⟩
  · obtain ⟨b, hbase⟩ := BigReg.exists_base h1 h6
    exact ⟨.big b (n - 0x400 * k), decide_eq_true (by omega), by simp only [Reg.offset]; omega⟩
  · exact ⟨.dmem (n - 0x2000), decide_eq_true (by omega), by simp only [Reg.offset]; omega⟩

theorem regAt_of_mappedOffset {off : Nat} (hoff : off % 4 = 0) (h : MappedOffset c off) :
    ∃ r, regAt c off = some r ∧ r.offset = off ∧ r.mapped c = true := by
  obtain ⟨r, hr, rfl⟩ := exists_reg_of_mappedOffset hc hoff h
  exact ⟨r, regAt_offset hc hr, rfl, hr⟩

/-- No offset outside the map holds a register. -/
theorem regAt_of_not_mappedOffset {off : Nat} (h : ¬ MappedOffset c off) : regAt c off = none := by
  refine Option.eq_none_iff_forall_ne_some.2 fun r hreg => h ?_
  have haligned := (regAt_align c off).trans hreg
  have hoffset := offset_of_regAt haligned (Nat.mul_mod_right 4 _)
  have hmapped := mappedOffset_of_mapped hc (mapped_of_regAt hreg) (Nat.mod_lt off (by decide))
  rwa [hoffset, Nat.div_add_mod] at hmapped

/-- At an aligned offset the map ends exactly where 20 R61 says. -/
theorem regAt_eq_none_iff {off : Nat} (hoff : off % 4 = 0) : regAt c off = none ↔ ¬ MappedOffset c off := by
  refine ⟨fun hnone h => ?_, regAt_of_not_mappedOffset hc⟩
  obtain ⟨r, hreg, -⟩ := regAt_of_mappedOffset hc hoff h
  cases hnone.symm.trans hreg

omit hc in
/-- The read-only registers are those of the schedule's window (20 R68 (c)). -/
theorem readOnly_iff_scheduleOffset {r : Reg} (hr : r.mapped c = true) :
    r.readOnly = true ↔ ScheduleOffset r.offset := by
  cases r with
  | w i =>
    have hi := of_decide_eq_true hr
    exact iff_of_true rfl (by simp only [ScheduleOffset, Reg.offset]; omega)
  | key j | blk j =>
    have hj := of_decide_eq_true hr
    exact iff_of_false Bool.false_ne_true (by simp only [ScheduleOffset, Reg.offset]; omega)
  | big b j =>
    obtain ⟨k, h1, -, hbase⟩ := b.base_window
    exact iff_of_false Bool.false_ne_true (by simp only [ScheduleOffset, Reg.offset]; omega)
  | dmem | ctrl | status | cmd | kbits | keylen | dlen | ntbits | ntrounds =>
    exact iff_of_false Bool.false_ne_true (by simp only [ScheduleOffset, Reg.offset]; omega)

end

/-- Settles O15: the offsets and array bounds stand in the definitions; both directions of the map are the lemmas above. -/
theorem addressMapIsOneToOne : Obligations.AddressMapIsOneToOne := by
  refine ⟨?_, fun c hc => ⟨?_, ?_, ?_, ?_, ?_, ?_, fun r hr => ?_, fun _ => regAt_of_mappedOffset hc,
    fun _ => regAt_of_not_mappedOffset hc⟩⟩
  · simp [Reg.offset, BigReg.base]
  · simp [Reg.mapped]
  · exact fun _ => decide_eq_true_iff.trans Nat.lt_succ_iff
  · exact fun _ => decide_eq_true_iff.trans Nat.lt_succ_iff
  · exact fun _ => decide_eq_true_iff.trans Nat.lt_succ_iff
  · exact fun _ _ => decide_eq_true_iff
  · exact fun _ => decide_eq_true_iff
  · exact ⟨regAt_offset hc hr, offset_mod_four r, mappedOffset_of_mapped hc hr (t := 0) (by decide)⟩

/-! ### Which accesses are a `BusError` -/

theorem alignedWord_iff (off width : Nat) : alignedWord off width = true ↔ width = 32 ∧ off % 4 = 0 := by
  simp [alignedWord]

theorem hostRead_busError_iff (off width : Nat) (s : State) :
    (∃ cause, hostRead off width s = .busError cause) ↔
      alignedWord off width = false ∨ regAt s.cfg off = none := by
  unfold hostRead
  cases alignedWord off width with
  | false => simp
  | true =>
    cases regAt s.cfg off with
    | none => simp
    | some r => by_cases hb : (s.status.busy && r != .status) = true <;> simp [hb]

theorem hostWrite_busError_iff (off width : Nat) (v : Word) (s : State) :
    (∃ cause, hostWrite off width v s = .busError cause) ↔
      alignedWord off width = false ∨ regAt s.cfg off = none ∨ ∃ r, regAt s.cfg off = some r ∧ r.readOnly = true := by
  unfold hostWrite
  cases alignedWord off width with
  | false => simp
  | true =>
    cases regAt s.cfg off with
    | none => simp
    | some r => cases hr : r.readOnly <;> simp [hr]

/-- An aligned offset holds a read-only register exactly in the schedule's window. -/
theorem regAt_readOnly_iff {c : Config} (hc : c.Valid) {off : Nat} (hoff : off % 4 = 0) :
    (∃ r, regAt c off = some r ∧ r.readOnly = true) ↔ ScheduleOffset off := by
  constructor
  · rintro ⟨r, hreg, hr⟩
    exact offset_of_regAt hreg hoff ▸ (readOnly_iff_scheduleOffset (mapped_of_regAt hreg)).1 hr
  · intro hsched
    obtain ⟨r, hreg, rfl, hr⟩ := regAt_of_mappedOffset hc hoff (.inr (.inl hsched))
    exact ⟨r, hreg, (readOnly_iff_scheduleOffset hr).2 hsched⟩

/-- Settles O16: what the port refuses, in the terms of the map. -/
theorem busErrorExactlyWhereTheMapSays : Obligations.BusErrorExactlyWhereTheMapSays := by
  refine ⟨fun s off width hc h => ?_, fun s off width v hc h => ?_⟩
  · rw [step_of_hostRead h, portStep_refused_iff, hostRead_busError_iff, State.takeTurn_cfg, ← Bool.not_eq_true,
      alignedWord_iff]
    by_cases hoff : off % 4 = 0
    · rw [regAt_eq_none_iff hc hoff]
      tauto
    · tauto
  · rw [step_of_hostWrite h, portStep_refused_iff, hostWrite_busError_iff, State.takeTurn_cfg, ← Bool.not_eq_true,
      alignedWord_iff]
    by_cases hoff : off % 4 = 0
    · rw [regAt_eq_none_iff hc hoff, regAt_readOnly_iff hc hoff]
      tauto
    · tauto

/-! ### Accesses to a busy block -/

/-- Settles O17: the offset is some register's, and none of those that act or answer while a command runs. -/
theorem busyBlockDropsAccesses : Obligations.BusyBlockDropsAccesses := by
  refine ⟨fun s off hc h hb hoff hmap hstatus => ?_, fun s off v hc h hb hoff hmap hsched hctrl hstatus => ?_⟩
  · obtain ⟨r, hreg, rfl, -⟩ := regAt_of_mappedOffset hc hoff hmap
    exact step_of_busy_read hoff hreg h hb (fun hr => hstatus (congrArg Reg.offset hr))
  · obtain ⟨r, hreg, rfl, hr⟩ := regAt_of_mappedOffset hc hoff hmap
    have hro : r.readOnly = false := Bool.eq_false_iff.2 (mt (readOnly_iff_scheduleOffset hr).1 hsched)
    have hdropped : writeReg r v (s.answered .ok) = (s.answered .ok).setBav :=
      writeReg_of_busy (fun hr => hctrl (congrArg Reg.offset hr)) (fun hr => hstatus (congrArg Reg.offset hr)) hb
    exact (step_of_write hoff hreg h hro).trans (congrArg _ hdropped)

/-! ### What a store leaves alone -/

/-- A limb write bit by bit: the word inside the limb, the old value below and above it (70 R358). -/
theorem testBit_setLimb (n j : Nat) (v : Word) (k : Nat) :
    (setLimb n j v).testBit k =
      if 32 * j ≤ k ∧ k < 32 * (j + 1) then v.getLsbD (k - 32 * j) else n.testBit k := by
  have hlow : n % 2 ^ (32 * j) < 2 ^ (32 * j) := Nat.mod_lt _ (Nat.two_pow_pos _)
  rw [setLimb_eq, Nat.testBit_two_pow_mul_add _ hlow]
  by_cases hk : k < 32 * j
  · rw [if_pos hk, if_neg (by omega), Nat.testBit_mod_two_pow, decide_eq_true hk, Bool.true_and]
  rw [if_neg hk, Nat.mul_comm _ (2 ^ 32), Nat.testBit_two_pow_mul_add _ v.isLt]
  by_cases hk' : k < 32 * (j + 1)
  · rw [if_pos (by omega), if_pos (by omega)]
    rfl
  · rw [if_neg (by omega), if_neg (by omega), Nat.testBit_div_two_pow]
    congr 1
    omega

/-- Writing one limb leaves the others alone. -/
theorem limb_setLimb_other (n : Nat) {i j : Nat} (v : Word) (h : i ≠ j) : limb (setLimb n j v) i = limb n i := by
  refine BitVec.eq_of_getLsbD_eq fun k hk => ?_
  rw [getLsbD_limb _ _ _ hk, getLsbD_limb _ _ _ hk, testBit_setLimb, if_neg (by omega)]

/-- Writing one word of the data buffer leaves the others alone. -/
theorem Memory.word_setWord_other (m : Memory) {j k : Nat} (v : Word) (h : k ≠ j) : (m.setWord j v).word k = m.word k := by
  have hlane (t : Nat) (ht : t < 4) : (m.setWord j v).read (4 * k + t) = m.read (4 * k + t) :=
    Memory.read_writeBytes_outside m _ _ _ (by simp only [List.length_cons, List.length_nil]; omega)
  rw [Memory.word, Memory.word, ← hlane 1 (by decide), ← hlane 2 (by decide), ← hlane 3 (by decide)]
  exact congrArg (beWord · _ _ _) (hlane 0 (by decide))

section
variable (s : State) (r : Reg) (v : Word)

theorem storeReg_cfg : (s.storeReg r v).cfg = s.cfg := by cases r <;> simp [State.storeReg]

theorem storeReg_oplatch : (s.storeReg r v).oplatch = s.oplatch := by cases r <;> simp [State.storeReg]

theorem storeReg_rng : (s.storeReg r v).rng = s.rng := by cases r <;> simp [State.storeReg]

theorem storeReg_events : (s.storeReg r v).events = s.events := by cases r <;> simp [State.storeReg]

end

theorem getBig_storeReg (s : State) {r : Reg} (v : Word) (h : ∀ b j, r ≠ .big b j) (b : BigReg) :
    (s.storeReg r v).getBig b = s.getBig b := by
  cases r with
  | big d j => exact absurd rfl (h d j)
  | _ => cases b <;> simp only [State.getBig, State.storeReg]

/-- A limb of a big number after a store to another register. -/
theorem readReg_big_storeReg_other (s : State) {r : Reg} {b : BigReg} {i : Nat} (v : Word) (h : .big b i ≠ r) :
    (s.storeReg r v).readReg (.big b i) = s.readReg (.big b i) := by
  cases r with
  | big d j =>
    simp only [State.readReg, State.storeReg]
    by_cases hb : b = d
    · subst hb
      rw [State.getBig_setBig_same]
      exact limb_setLimb_other _ v fun hij => h (congrArg _ hij)
    · rw [State.getBig_setBig_other s _ hb]
  | _ => exact congrArg (limb · i) (getBig_storeReg s v (by simp) b)

/-- A store changes what one register reads as, and no other. -/
theorem readReg_storeReg_other {s : State} {r r' : Reg} (v : Word) (h : r' ≠ r) (hr' : r'.mapped s.cfg = true) :
    (s.storeReg r v).readReg r' = s.readReg r' := by
  cases r' with
  | big b i => exact readReg_big_storeReg_other s v h
  | key k =>
    cases r with
    | key j =>
      have hk := of_decide_eq_true hr'
      exact bufWord_setBufWord_other s.key v (fun hjk => h (congrArg _ hjk)) (by omega)
    | _ => simp [State.readReg, State.storeReg]
  | blk k =>
    cases r with
    | blk j =>
      have hk := of_decide_eq_true hr'
      exact bufWord_setBufWord_other s.blk v (fun hjk => h (congrArg _ hjk)) (by omega)
    | _ => simp [State.readReg, State.storeReg]
  | dmem k =>
    cases r with
    | dmem j => exact s.dmem.word_setWord_other v fun hjk => h (congrArg _ hjk)
    | _ => simp [State.readReg, State.storeReg]
  | ctrl | cmd => rfl
  | status => exact congrArg Status.toWord (storeReg_status s r v)
  | w i => exact congrArg (·[i]?.getD 0) (storeReg_w s r v)
  | kbits | keylen | dlen | ntbits | ntrounds => cases r <;> simp_all [State.readReg, State.storeReg]

/-- Settles O20: the step is a store at the answered state, and a store leaves every other register alone. -/
theorem writeLeavesOtherRegistersAlone : Obligations.WriteLeavesOtherRegistersAlone := by
  intro s r v hc hb hr hw hctrl hstatus hcmd hsched
  have hstores : r.stores = true := by
    cases r with
    | ctrl | status | cmd => contradiction
    | w i => exact absurd rfl (hsched i)
    | _ => rfl
  refine ⟨_, step_of_store hc hr hb hstores hw, fun r' hne hr' => ?_, storeReg_status .., storeReg_w ..,
    storeReg_oplatch .., storeReg_srch .., storeReg_rng .., storeReg_cfg .., storeReg_events .., storeReg_replies ..⟩
  exact (readReg_storeReg_other (s := s.answered .ok) v hne hr').trans (readReg_answered ..)

/-! ### What holds still while a command runs -/

/-- The parameters, `DONE`, `ERR`, the command word and every piece of operand state are the same in both states; `BUSY`, `BAV`,
the search and the random source may differ (20 R71, R73). -/
structure HeldStill (s t : State) : Prop where
  cfg : t.cfg = s.cfg
  done : t.status.done = s.status.done
  err : t.status.err = s.status.err
  parts : ∀ p : Part, p ≠ .bav → p ≠ .rng → p.same s t

theorem heldStill_refl (s : State) : HeldStill s s := ⟨rfl, rfl, rfl, fun p _ _ => p.same_refl s⟩

theorem heldStill_setBav (s : State) : HeldStill s s.setBav := by
  obtain ⟨hcfg, -, -, hparts⟩ := onlyWrites_setBav s
  exact ⟨hcfg, rfl, rfl, fun p hbav _ => hparts p (by simpa using hbav)⟩

theorem heldStill_writeStatus (v : Word) (s : State) : HeldStill s (writeStatus v s) := by
  unfold writeStatus
  split
  · refine ⟨rfl, rfl, rfl, fun p hbav _ => ?_⟩
    have hs := p.same_refl s
    cases p
    case bav => exact absurd rfl hbav
    all_goals exact hs
  · exact heldStill_refl s

/-- A search step moves the search and the random source alone (44 R230). -/
theorem heldStill_searching (s : State) (p : Search) (g : Rng) : HeldStill s { s with srch := p, rng := g } := by
  refine ⟨rfl, rfl, rfl, fun q _ hrng => ?_⟩
  have hs := q.same_afterDraws hrng s g
  cases q
  all_goals exact hs

/-- The list of events and the record of answers are no pieces of operand state. -/
theorem HeldStill.recorded {s t : State} (h : HeldStill s.takeTurn t) (rs : List Reply) :
    HeldStill s { t with replies := rs } := by
  refine ⟨h.cfg, h.done, h.err, fun p hbav hrng => ?_⟩
  have hs := h.parts p hbav hrng
  cases p
  all_goals exact hs

/-- A command that still runs after its engine step has made a search step. -/
theorem heldStill_of_exec {s t : State} {i : Instr} (h : exec i s = .next t) (hb : t.status.busy = true) :
    HeldStill s t := by
  cases exec_leaves h with
  | failed | failedAfterDraws | completed => cases hb
  | rejected => exact heldStill_searching s s.srch _
  | accepted | drawFailed => exact heldStill_searching s _ _

theorem heldStill_of_engineTurn {s t : State} (h : engineTurn s = .next t) (hb : t.status.busy = true) :
    HeldStill s t := by
  rcases engineTurn_cases h with ⟨-, rfl⟩ | ⟨-, i, -, hx⟩ | ⟨-, r, -, rfl⟩
  · exact heldStill_refl t
  · exact heldStill_of_exec hx hb
  · cases hb

/-- A write to a busy block that leaves it busy is no reset and no abort. -/
theorem heldStill_writeReg {r : Reg} {v : Word} {s : State} (hb : s.status.busy = true)
    (hb' : (writeReg r v s).status.busy = true) : HeldStill s (writeReg r v s) := by
  rcases writeReg_cases r v s with ⟨-, -, e⟩ | ⟨-, -, -, -, e⟩ | ⟨-, -, -, e⟩ | ⟨-, e⟩ | ⟨-, -, -, e⟩ | ⟨-, hidle, -⟩ |
    ⟨-, -, -, hidle, -⟩
  · rw [e] at hb'
    cases hb'
  · rw [e] at hb'
    cases hb'
  · rw [e]
    exact heldStill_refl s
  · rw [e]
    exact heldStill_writeStatus v s
  · rw [e]
    exact heldStill_setBav s
  · exact absurd hb (Bool.eq_false_iff.1 hidle)
  · exact absurd hb (Bool.eq_false_iff.1 hidle)

theorem heldStill_of_step {s t : State} (hb : s.status.busy = true) (ht : step s = .next t)
    (hb' : t.status.busy = true) : HeldStill s t := by
  rcases step_cases ht with ⟨-, he⟩ | ⟨off, width, u, a, -, hu, rfl⟩ | ⟨off, width, v, u, a, -, hu, rfl⟩ | ⟨-, rfl⟩
  · exact (heldStill_of_engineTurn he hb').recorded t.replies
  · obtain ⟨r, -, -, ⟨-, -, -, rfl⟩ | ⟨-, -, rfl⟩⟩ := hostRead_cases hu
    · exact (heldStill_setBav s.takeTurn).recorded _
    · exact (heldStill_refl s.takeTurn).recorded _
  · obtain ⟨r, -, -, -, -, rfl⟩ := hostWrite_cases hu
    exact (heldStill_writeReg (s := s.takeTurn) hb hb').recorded _
  · cases hb'

/-- Settles O22, from `HeldStill` of each step, by the agent that moves. -/
theorem operandsHoldStillWhileBusy : Obligations.OperandsHoldStillWhileBusy := by
  intro s t hb ht hb'
  obtain ⟨hcfg, hdone, herr, hparts⟩ := heldStill_of_step hb ht hb'
  exact ⟨hcfg, hdone, herr, hparts⟩

end Sys2Proof.Machine

/-! PROOFS of the statements on the command word and on what a command may write. Two lemmas carry them:
`decode_eq_ok_iff` reads the decoder by the three fields of its word, and `Completed.onlyWrites` is the frame of every
successful end. -/

namespace Sys2Proof

/-! ### A word by its fields -/

theorem fields_append (c : Word) : rsvField c ++ (argField c ++ opField c) = c := by
  have hlow : argField c ++ opField c = c.extractLsb' 0 16 := BitVec.extractLsb'_append_extractLsb'_eq_extractLsb' rfl
  have hall : rsvField c ++ c.extractLsb' 0 16 = c.extractLsb' 0 32 :=
    BitVec.extractLsb'_append_extractLsb'_eq_extractLsb' rfl
  rw [hlow, hall, BitVec.extractLsb'_eq_self]

/-- Two command words are equal when their fields are (30 R90). -/
theorem word_eq_iff_fields {c d : Word} :
    c = d ↔ rsvField c = rsvField d ∧ argField c = argField d ∧ opField c = opField d := by
  refine ⟨fun h => h ▸ ⟨rfl, rfl, rfl⟩, fun ⟨hrsv, harg, hop⟩ => ?_⟩
  rw [← fields_append c, ← fields_append d, hrsv, harg, hop]

@[simp] theorem rsvField_append (r : BitVec 16) (a o : BitVec 8) : rsvField (r ++ (a ++ o)) = r :=
  BitVec.extractLsb'_append_eq_left

@[simp] theorem argField_append (r : BitVec 16) (a o : BitVec 8) : argField (r ++ (a ++ o)) = a := by
  rw [argField, BitVec.extractLsb'_append_eq_of_add_le (by decide), BitVec.extractLsb'_append_eq_left]

@[simp] theorem opField_append (r : BitVec 16) (a o : BitVec 8) : opField (r ++ (a ++ o)) = o := by
  rw [opField, BitVec.extractLsb'_append_eq_of_add_le (by decide), BitVec.extractLsb'_append_eq_right]

@[simp] theorem rsvField_and (c d : Word) : rsvField (c &&& d) = rsvField c &&& rsvField d := BitVec.extractLsb'_and

@[simp] theorem argField_and (c d : Word) : argField (c &&& d) = argField c &&& argField d := BitVec.extractLsb'_and

@[simp] theorem opField_and (c d : Word) : opField (c &&& d) = opField c &&& opField d := BitVec.extractLsb'_and

/-! ### The rows of the opcode map -/

/-- Every command but ARK has its row among those without an operand (30 R91). -/
theorem Instr.ark_or_mem_plainRows (i : Instr) : (∃ r, i = .ark r) ∨ (i.op, i) ∈ plainRows := by
  cases i with
  | ark r => exact .inl ⟨r, rfl⟩
  | _ => exact .inr (by decide)

/-- What the rows without an operand have in common (30 R91, R92). -/
theorem plainRows_spec : ∀ row ∈ plainRows, row.2.op = row.1 ∧ row.1 ≠ arkOp ∧ row.2.arg = 0 ∧ row.2.wf = true ∧
    encode row.2 = row.1.setWidth 32 ∧ plainRows.lookup row.1 = some row.2 := by
  decide

theorem Instr.mem_plainRows {i : Instr} (h : i.op ≠ arkOp) : (i.op, i) ∈ plainRows :=
  i.ark_or_mem_plainRows.resolve_left fun ⟨_, hr⟩ => h (hr ▸ rfl)

theorem lookup_plainRows_eq_some_iff {o : BitVec 8} {i : Instr} :
    plainRows.lookup o = some i ↔ o ≠ arkOp ∧ o = i.op := by
  constructor
  · intro h
    obtain ⟨_, _, hrows, -⟩ := List.lookup_eq_some_iff.1 h
    obtain ⟨hop, hne, -⟩ := plainRows_spec (o, i) (by rw [hrows]; exact List.mem_append_right _ List.mem_cons_self)
    exact ⟨hne, hop.symm⟩
  · rintro ⟨hne, rfl⟩
    obtain ⟨-, -, -, -, -, hlookup⟩ := plainRows_spec _ (Instr.mem_plainRows hne)
    exact hlookup

/-- The `OP` column of the opcode map (30 R91) is `OP` of ARK and of the rows without an operand. -/
theorem toNat_notMem_opColumn_iff (o : BitVec 8) :
    o.toNat ∉ [0x01, 0x02, 0x10, 0x11, 0x12, 0x13, 0x15, 0x16, 0x17, 0x18, 0x19, 0x20, 0x21, 0x22, 0x23,
      0x30, 0x31, 0x32, 0x33, 0x40, 0x41, 0x42, 0x43] ↔ o ≠ arkOp ∧ plainRows.lookup o = none := by
  revert o
  decide

/-! ### Decoding and encoding -/

/-- ARK's `ARG` is its round where that round has an encoding (30 R90, R94). -/
theorem eq_arg_ark_iff {a : BitVec 8} {r : Nat} :
    a = (Instr.ark r).arg ∧ (Instr.ark r).wf = true ↔ r = a.toNat := by
  simp only [Instr.arg, Instr.wf, decide_eq_true_eq]
  constructor
  · rintro ⟨rfl, hr⟩
    rw [BitVec.toNat_ofNat, Nat.mod_eq_of_lt hr]
  · rintro rfl
    exact ⟨by simp, a.isLt⟩

/-- A word decodes to a command exactly when its fields are those of the command, which then is well-formed
(30 R90 to R94). -/
theorem decode_eq_ok_iff {c : Word} {i : Instr} : decode c = .ok i ↔
    rsvField c = 0 ∧ opField c = i.op ∧ argField c = i.arg ∧ i.wf = true := by
  unfold decode
  split_ifs with hrsv hop harg
  · exact iff_of_false nofun fun ⟨h, _⟩ => hrsv h
  · rcases i.ark_or_mem_plainRows with ⟨r, rfl⟩ | hmem
    · rw [eq_arg_ark_iff, Except.ok.injEq, Instr.ark.injEq]
      simp [not_not.1 hrsv, hop, Instr.op, arkOp, eq_comm]
    · obtain ⟨-, hne, -⟩ := plainRows_spec _ hmem
      refine ⟨fun h => ?_, fun ⟨_, h, _⟩ => absurd (h.symm.trans hop) hne⟩
      cases h
      exact absurd rfl hne
  · refine ⟨nofun, fun ⟨_, h, ha, _⟩ => absurd ?_ harg⟩
    obtain ⟨-, -, hzero, -⟩ := plainRows_spec _ (Instr.mem_plainRows (h ▸ hop))
    exact ha.trans hzero
  · refine Iff.trans (b := plainRows.lookup (opField c) = some i) (by cases plainRows.lookup (opField c) <;> simp) ?_
    rw [lookup_plainRows_eq_some_iff]
    refine ⟨fun ⟨_, h⟩ => ?_, fun ⟨_, h, _⟩ => ⟨hop, h⟩⟩
    obtain ⟨-, -, hzero, hwf, -⟩ := plainRows_spec _ (Instr.mem_plainRows (h ▸ hop))
    exact ⟨not_not.1 hrsv, h, (not_not.1 harg).trans hzero.symm, hwf⟩

theorem encode_eq_iff {c : Word} {i : Instr} :
    encode i = c ↔ rsvField c = 0 ∧ opField c = i.op ∧ argField c = i.arg := by
  rw [eq_comm, word_eq_iff_fields, and_comm (a := argField c = _)]
  simp only [encode, rsvField_append, argField_append, opField_append]

/-- The decoder inverts the encoder, on the words of the well-formed commands and no others. -/
theorem decode_eq_ok_iff_encode {c : Word} {i : Instr} : decode c = .ok i ↔ i.wf = true ∧ encode i = c := by
  rw [decode_eq_ok_iff, encode_eq_iff]
  tauto

/-- Settles O2: both ways are `decode_eq_ok_iff_encode`. -/
theorem decodeAndEncodeAgree : Obligations.DecodeAndEncodeAgree :=
  ⟨fun _ hwf => decode_eq_ok_iff_encode.2 ⟨hwf, rfl⟩, fun _ _ h => decode_eq_ok_iff_encode.1 h⟩

/-! ### Mask and match -/

/-- ARK's mask and match fix every bit but those of `ARG` (30 R92). -/
theorem and_ark_mask_eq_iff (c : Word) :
    c &&& 0xFFFF00FF = 0x00000010 ↔ rsvField c = 0 ∧ opField c = arkOp := by
  have hmask : (0xFFFF00FF : Word) = BitVec.allOnes 16 ++ ((0 : BitVec 8) ++ BitVec.allOnes 8) := rfl
  have hmatch : (0x00000010 : Word) = (0 : BitVec 16) ++ ((0 : BitVec 8) ++ arkOp) := rfl
  rw [hmask, hmatch, word_eq_iff_fields]
  simp only [rsvField_and, argField_and, opField_and, rsvField_append, argField_append, opField_append,
    BitVec.and_allOnes, BitVec.ofNat_eq_ofNat, BitVec.and_zero, true_and]

theorem Instr.opField_mask (i : Instr) : opField i.mask = BitVec.allOnes 8 := by
  cases i with
  | ark r => exact (by decide : opField 0xFFFF00FF = BitVec.allOnes 8)
  | _ => decide

theorem Instr.opField_pattern (i : Instr) : opField i.pattern = i.op := by
  rw [opField, ← BitVec.setWidth_eq_extractLsb' (by decide), Instr.pattern,
    BitVec.setWidth_setWidth_of_le _ (by decide), BitVec.setWidth_eq]

/-- A word that matches a row of the opcode table has that row's `OP` (30 R92). -/
theorem opField_of_match {c : Word} {i : Instr} (h : c &&& i.mask = i.pattern) : opField c = i.op := by
  have hop := congrArg opField h
  rwa [opField_and, i.opField_mask, BitVec.and_allOnes, i.opField_pattern] at hop

/-- Settles O1: mask and match say of a word's fields what the decoder asks of them. -/
theorem commandWordSelectsByMaskAndMatch : Obligations.CommandWordSelectsByMaskAndMatch := by
  refine ⟨fun c r => ?_, fun c i h => ?_, fun c i j hi hj => (opField_of_match hi).symm.trans (opField_of_match hj)⟩
  · rw [decode_eq_ok_iff, eq_arg_ark_iff, and_ark_mask_eq_iff, and_assoc]
    rfl
  · have hmem := i.ark_or_mem_plainRows.resolve_left fun ⟨r, hr⟩ => h r hr
    obtain ⟨-, -, -, hwf, hword, -⟩ := plainRows_spec _ hmem
    have hand : c &&& 0xFFFFFFFF = c := BitVec.and_allOnes
    rw [decode_eq_ok_iff_encode, hword, hand, eq_comm (a := c)]
    exact and_iff_right hwf

/-! ### Words of the opcode map -/

/-- Settles O3, word by word. -/
theorem wordsOfTheOpcodeMapDecode : Obligations.WordsOfTheOpcodeMapDecode := by
  unfold Obligations.WordsOfTheOpcodeMapDecode
  decide

end Sys2Proof

namespace Sys2Proof.Machine

/-! ### Illegal words -/

/-- The decoder refuses a word for its `RSV`, its `ARG` or its `OP` (30 R93). -/
theorem decode_eq_error_iff (c : Word) : (∃ r, decode c = .error r) ↔
    rsvField c ≠ 0 ∨ (argField c ≠ 0 ∧ opField c ≠ arkOp) ∨
      (opField c ≠ arkOp ∧ plainRows.lookup (opField c) = none) := by
  unfold decode
  split_ifs with hrsv hop harg
  · exact iff_of_true ⟨_, rfl⟩ (.inl hrsv)
  · refine iff_of_false nofun ?_
    rintro (h | ⟨-, h⟩ | ⟨h, -⟩)
    · exact hrsv h
    · exact h hop
    · exact h hop
  · exact iff_of_true ⟨_, rfl⟩ (.inr (.inl ⟨harg, hop⟩))
  · cases hrow : plainRows.lookup (opField c) with
    | some i => exact iff_of_false nofun (by simp [not_not.1 hrsv, not_not.1 harg])
    | none => exact iff_of_true ⟨_, rfl⟩ (.inr (.inr ⟨hop, rfl⟩))

theorem engineTurn_of_illegal {s : State} {r : Reject} (hb : s.status.busy = true) (hd : decode s.oplatch = .error r) :
    engineTurn s = .next (s.endWith .illegalCommand) := by
  simp [engineTurn, runCommand, State.fetch, hb, hd, raise_eq]

/-- Settles O4: the start step does not look at the word, and the engine's turn ends an illegal one. -/
theorem illegalWordsEndWithIllegalCommand : Obligations.IllegalWordsEndWithIllegalCommand := by
  refine ⟨fun c => ?_, fun s c h hb _ => ?_, fun s he hb ⟨r, hr⟩ => ?_⟩
  · rw [decode_eq_error_iff, ← toNat_notMem_opColumn_iff]
    rfl
  · obtain ⟨t, hstep, hlatch, hbusy, -⟩ := cmdWriteIsTheStartStep.1 s c h hb
    exact ⟨t, hstep, hlatch, hbusy⟩
  · have hstep := (step_of_engineIsNext he).trans (engineTurn_of_illegal (s := s.takeTurn) hb hr)
    exact ⟨_, hstep, ended_endWith .., rfl, onlyWrites_endWith ..⟩

/-! ### The frame of a command -/

theorem Part.forall_iff {P : Part → Prop} : (∀ p, P p) ↔
    (P .oplatch ∧ P .kbits ∧ P .keylen ∧ P .key ∧ P .blk ∧ P .w ∧ P .dlen ∧ P .dmem ∧ P .ntbits ∧ P .ntrounds) ∧
    (P .ba ∧ P .bb ∧ P .bm ∧ P .br ∧ P .bx ∧ P .bY) ∧
    (P .kvalid ∧ P .nr ∧ P .prime ∧ P .xneg ∧ P .yneg ∧ P .bav) ∧ P .rng :=
  ⟨fun h => by simp [h], fun h p => by cases p <;> simp [h]⟩

theorem OnlyWrites.endWith {written : List Part} {s u : State} (h : OnlyWrites written s u) (e : ErrCode) :
    OnlyWrites written s (u.endWith e) := by
  obtain ⟨hcfg, hev, hre, hp⟩ := h
  exact ⟨hcfg, hev, hre, fun p hn => (Part.same_endWith_right ..).2 (hp p hn)⟩

/-- The frame of a successful end: the table's "writes" entry (30 R95). -/
theorem Completed.onlyWrites {s u : State} {i : Instr} (h : Completed s i u) : OnlyWrites (writesOf i) s u := by
  cases h with
  | block hw b => simp [hw, OnlyWrites, Part.forall_iff, Part.same]
  | kexp | rkey | pad | unpad | encm | decm | egcd | minv | ptst | pgen | mexp | kgen | renc | rdec =>
    simp [writesOf, OnlyWrites, Part.forall_iff, Part.same]

theorem onlyWrites_searching (s : State) (q : Search) (g : Rng) :
    OnlyWrites [.rng] s { s with srch := q, rng := g } := by
  simp [OnlyWrites, Part.forall_iff, Part.same]

theorem SearchHit.rng_mem_writesOf {s : State} {i : Instr} {hit : Nat → Search} (h : SearchHit s i hit) :
    Part.rng ∈ writesOf i := by
  cases h <;> decide

/-- Settles O24, by the six ends of a command's step. -/
theorem commandsWriteOnlyWhatTheTableLists : Obligations.CommandsWriteOnlyWhatTheTableLists := by
  intro i s t ht
  cases exec_leaves ht with
  | failed => exact (onlyWrites_endWith s _).mono (by simp)
  | failedAfterDraws _ hw => exact (onlyWrites_afterDraws_endWith s _ _).mono (by simpa using hw)
  | completed h => exact h.onlyWrites.endWith _
  | rejected hi => exact (onlyWrites_searching s s.srch _).mono (by simpa using hi.rng_mem_writesOf)
  | accepted hi | drawFailed hi => exact (onlyWrites_searching s _ _).mono (by simpa using hi.rng_mem_writesOf)

end Sys2Proof.Machine

/-! PROOFS of the statements on the Galois-field primitives, the substitution tables and the key schedule. The product is
additive in each operand and multiplication by `x` moves out of its first one, and every byte is made from 0 by multiplications by
`x` and additions of 1 (`byte_induction`, Horner's rule); the field's laws follow by that induction. The S-box with its affine map
undone is the field's inverse, on every byte by evaluation. -/

namespace Sys2Proof.Machine

/-! ### Multiplication by `x` -/

/-- The sum of two bits picks the sum of what each picks. -/
theorem ite_xor (x y : Bool) (a : Byte) :
    (if (x ^^ y) then a else 0) = (if x then a else 0) ^^^ (if y then a else 0) := by
  cases x <;> cases y <;> simp

theorem xtime_eq_xor (a : Byte) : xtime a = (a <<< 1) ^^^ (if a.getLsbD 7 then 0x1B else 0) := by
  unfold xtime
  split <;> simp

theorem xtime_xor (a b : Byte) : xtime (a ^^^ b) = xtime a ^^^ xtime b := by
  rw [xtime_eq_xor, xtime_eq_xor, xtime_eq_xor, BitVec.getLsbD_xor, ite_xor, BitVec.shiftLeft_xor_distrib]
  ac_rfl

theorem eq_xtime_shiftRight_xor_bit (a : Byte) : a = xtime (a >>> 1) ^^^ (if a.getLsbD 0 then 1 else 0) := by
  decide +revert

/-- Horner's rule: every byte is reached from 0 by multiplications by `x` and additions of 1. -/
theorem byte_induction {P : Byte → Prop} (zero : P 0) (mulX : ∀ a, P a → P (xtime a)) (addOne : ∀ a, P a → P (a ^^^ 1))
    (a : Byte) : P a := by
  have below : ∀ n, ∀ b : Byte, b.toNat < 2 ^ n → P b := by
    intro n
    induction n with
    | zero =>
      intro b hb
      obtain rfl : b = 0 := BitVec.eq_of_toNat_eq (by simpa using hb)
      exact zero
    | succ n ih =>
      intro b hb
      have hhalf : (b >>> 1).toNat < 2 ^ n := by
        rw [BitVec.toNat_ushiftRight, Nat.shiftRight_eq_div_pow]
        omega
      have hx : P (xtime (b >>> 1)) := mulX _ (ih _ hhalf)
      rw [eq_xtime_shiftRight_xor_bit b]
      split
      · exact addOne _ hx
      · simpa using hx
  exact below 8 a a.isLt

/-! ### The laws of `GFMul` -/

/-- The loop is additive in its running product and multiple. -/
theorem gfMulLoop_xor (b : Byte) (n : Nat) (p q a c : Byte) :
    gfMulLoop b n (p ^^^ q) (a ^^^ c) = gfMulLoop b n p a ^^^ gfMulLoop b n q c := by
  induction n generalizing p q a c with
  | zero => rfl
  | succ n ih =>
    simp only [gfMulLoop, xtime_xor]
    split
    · rw [← ih]
      congr 1
      ac_rfl
    · exact ih ..

theorem gfMulLoop_xtime (b : Byte) (n : Nat) (p a : Byte) :
    gfMulLoop b n (xtime p) (xtime a) = xtime (gfMulLoop b n p a) := by
  induction n generalizing p a with
  | zero => rfl
  | succ n ih =>
    rw [gfMulLoop, gfMulLoop, ← ih]
    split
    · rw [xtime_xor]
    · rfl

theorem gfMulLoop_succ (b : Byte) (n : Nat) (p a : Byte) :
    gfMulLoop b (n + 1) p a = gfMulLoop b n (p ^^^ (if b.getLsbD (7 - n) then a else 0)) (xtime a) := by
  rw [gfMulLoop]
  split <;> simp

/-- The loop is additive in the bits it reads, with the running product shared out between them. -/
theorem gfMulLoop_xor_bits (b c : Byte) (n : Nat) (p q a : Byte) :
    gfMulLoop (b ^^^ c) n (p ^^^ q) a = gfMulLoop b n p a ^^^ gfMulLoop c n q a := by
  induction n generalizing p q a with
  | zero => rfl
  | succ n ih =>
    rw [gfMulLoop_succ, gfMulLoop_succ, gfMulLoop_succ, ← ih, BitVec.getLsbD_xor, ite_xor]
    congr 1
    ac_rfl

theorem gfMul_xor_left (a c b : Byte) : gfMul (a ^^^ c) b = gfMul a b ^^^ gfMul c b := gfMulLoop_xor b 8 0 0 a c

theorem gfMul_xor_right (a b c : Byte) : gfMul a (b ^^^ c) = gfMul a b ^^^ gfMul a c := gfMulLoop_xor_bits b c 8 0 0 a

theorem gfMul_xtime_left (a b : Byte) : gfMul (xtime a) b = xtime (gfMul a b) := gfMulLoop_xtime b 8 0 a

theorem zero_gfMul (b : Byte) : gfMul 0 b = 0 := by
  simpa using gfMul_xor_left 0 0 b

theorem gfMul_zero (a : Byte) : gfMul a 0 = 0 := by
  simpa using gfMul_xor_right a 0 0

theorem one_gfMul (b : Byte) : gfMul 1 b = b := by
  decide +revert

theorem gfMul_one (a : Byte) : gfMul a 1 = a := by
  simp [gfMul, gfMulLoop]

theorem gfMul_xtime_right (a b : Byte) : gfMul a (xtime b) = xtime (gfMul a b) := by
  induction a using byte_induction with
  | zero => rw [zero_gfMul, zero_gfMul]; rfl
  | mulX a ih => rw [gfMul_xtime_left, ih, gfMul_xtime_left]
  | addOne a ih => rw [gfMul_xor_left, ih, one_gfMul, gfMul_xor_left, xtime_xor, one_gfMul]

theorem gfMul_comm (a b : Byte) : gfMul a b = gfMul b a := by
  induction a using byte_induction with
  | zero => rw [zero_gfMul, gfMul_zero]
  | mulX a ih => rw [gfMul_xtime_left, ih, gfMul_xtime_right]
  | addOne a ih => rw [gfMul_xor_left, ih, one_gfMul, gfMul_xor_right, gfMul_one]

theorem gfMul_assoc (a b c : Byte) : gfMul (gfMul a b) c = gfMul a (gfMul b c) := by
  induction a using byte_induction with
  | zero => simp only [zero_gfMul]
  | mulX a ih => simp only [gfMul_xtime_left, ih]
  | addOne a ih => simp only [gfMul_xor_left, one_gfMul, ih]

theorem gfMul_two (a : Byte) : gfMul a 2 = xtime a := by
  have h : gfMul a (xtime 1) = xtime (gfMul a 1) := gfMul_xtime_right a 1
  rwa [gfMul_one] at h

/-! ### The field's inverse and the S-box -/

/-- The affine map of `SBOX` (40 R115). -/
def affine (v : Byte) : Byte :=
  v ^^^ v.rotateLeft 1 ^^^ v.rotateLeft 2 ^^^ v.rotateLeft 3 ^^^ v.rotateLeft 4 ^^^ 0x63

/-- The affine map undone. -/
def affineInv (u : Byte) : Byte := u.rotateLeft 1 ^^^ u.rotateLeft 3 ^^^ u.rotateLeft 6 ^^^ 0x05

theorem affine_affineInv (u : Byte) : affine (affineInv u) = u := by
  decide +revert

/-- `inv(a)` of 40 R115, read off the table. -/
def gfInv (a : Byte) : Byte := affineInv (sbox a)

theorem affine_gfInv (a : Byte) : affine (gfInv a) = sbox a := affine_affineInv _

theorem gfMul_gfInv (a : Byte) (h : a ≠ 0) : gfMul a (gfInv a) = 1 := by
  decide +revert

/-- A byte has one inverse. -/
theorem eq_gfInv_of_gfMul_eq_one {a v : Byte} (ha : a ≠ 0) (h : gfMul a v = 1) : v = gfInv a :=
  calc v = gfMul v (gfMul a (gfInv a)) := by rw [gfMul_gfInv a ha, gfMul_one]
    _ = gfMul (gfMul a v) (gfInv a) := by rw [← gfMul_assoc, gfMul_comm v a]
    _ = gfInv a := by rw [h, one_gfMul]

theorem isbox_sbox (a : Byte) : isbox (sbox a) = a := by
  decide +revert

theorem sbox_isbox (a : Byte) : sbox (isbox a) = a := by
  decide +revert

/-- Settles O31: the laws by Horner's induction on one operand, the inverses from the table. -/
theorem gfMulIsAFieldProduct : Obligations.GfMulIsAFieldProduct :=
  ⟨gfMul_comm, gfMul_assoc, gfMul_xor_right, gfMul_one, gfMul_zero, fun a ha => ⟨gfInv a, gfMul_gfInv a ha⟩, gfMul_two⟩

/-- Settles O32: an inverse is the byte the table's affine map came from. -/
theorem substitutionTablesAreTheConstruction : Obligations.SubstitutionTablesAreTheConstruction := by
  refine ⟨fun a => ⟨isbox_sbox a, sbox_isbox a⟩, fun a v hmul hzero => ?_⟩
  change sbox a = affine v
  by_cases ha : a = 0
  · rw [ha, hzero ha]
    decide
  · rw [eq_gfInv_of_gfMul_eq_one ha (hmul ha), affine_gfInv]

/-! ### The key schedule -/

theorem subWord_lane (v : Word) (t : Nat) (ht : t < 4) :
    (subWord v).extractLsb' (24 - 8 * t) 8 = sbox (v.extractLsb' (24 - 8 * t) 8) := by
  rw [subWord, beWord_lane _ _ _ _ _ ht]
  interval_cases t <;> rfl

theorem getD_seedWords (key : List Byte) {nk i : Nat} (h : i < nk) : (seedWords key nk).getD i 0 =
    beWord (key.getD (4 * i) 0) (key.getD (4 * i + 1) 0) (key.getD (4 * i + 2) 0) (key.getD (4 * i + 3) 0) := by
  induction nk with
  | zero => omega
  | succ n ih =>
    rw [seedWords]
    rcases Nat.lt_succ_iff_lt_or_eq.1 h with hlt | rfl
    · rw [List.getD_append _ _ _ _ (by rwa [length_seedWords]), ih hlt]
    · rw [List.getD_append_right _ _ _ _ (by rw [length_seedWords]), length_seedWords, Nat.sub_self]
      rfl

/-- The word of the recurrence depends on the words before it alone. -/
theorem scheduleWord_expandLoop {nk i : Nat} (n : Nat) {ws : List Word} (hnk : 0 < nk) (hpos : 0 < i) (hi : i ≤ ws.length) :
    scheduleWord nk (expandLoop nk n ws) i = scheduleWord nk ws i := by
  rw [scheduleWord, scheduleWord, getD_expandLoop_of_lt _ _ _ _ (by omega), getD_expandLoop_of_lt _ _ _ _ (by omega)]

/-- Each word the loop adds is the word of the recurrence. -/
theorem getD_expandLoop_of_le {nk n i : Nat} {ws : List Word} (hnk : 0 < nk) (hpos : 0 < ws.length) (hi : ws.length ≤ i)
    (hlt : i < ws.length + n) : (expandLoop nk n ws).getD i 0 = scheduleWord nk (expandLoop nk n ws) i := by
  induction n generalizing ws with
  | zero => omega
  | succ n ih =>
    have hlen : (ws ++ [scheduleWord nk ws ws.length]).length = ws.length + 1 := List.length_append
    rcases Nat.eq_or_lt_of_le hi with rfl | hnext
    · rw [scheduleWord_expandLoop (n + 1) hnk hpos le_rfl, expandLoop, getD_expandLoop_of_lt _ _ _ _ (by omega),
        List.getD_append_right _ _ _ _ le_rfl, Nat.sub_self]
      rfl
    · rw [expandLoop]
      exact ih (by omega) (by omega) (by omega)

/-- Settles O28, by the loop of `ExpandKey` from its seed words. -/
theorem keyScheduleFollowsTheRecurrence : Obligations.KeyScheduleFollowsTheRecurrence := by
  refine ⟨fun _ => rfl, subWord_lane, by decide, ?_⟩
  rintro nk key hnk - w rfl
  have hseed : (seedWords key nk).length = nk := length_seedWords key nk
  refine ⟨length_expandKey key nk (nk + 6) (by omega), fun i hi => ?_, fun i hle hlt => ?_⟩
  · rw [expandKey, getD_expandLoop_of_lt _ _ _ _ (by omega), getD_seedWords key hi]
  · exact getD_expandLoop_of_le (by omega) (by omega) (by omega) (by omega)

end Sys2Proof.Machine

/-! PROOFS of the statements on key expansion and the random key: KEXP, RKEY, and the known vector. A command's step is first
computed (`exec_kexp_of_keySizeOk` and the like); how it ends and its frame then come from `Completed` and `State.endWith`. -/

namespace Sys2Proof.Machine

/-! ### From a command's step to how it ends -/

/-- A command that reaches its completion step ends without error and writes what its table row lists (30 R95). -/
theorem CompletesWith.of_completed {i : Instr} {s u : State} {P : State → Prop} (hx : exec i s = complete u)
    (hc : Completed s i u) (hP : P (u.endWith .noError)) : CompletesWith i s (writesOf i) P :=
  ⟨_, hx, ended_endWith .., hP, hc.onlyWrites.endWith _⟩

theorem EndsInError.of_raise {i : Instr} {s : State} {e : ErrCode} (hx : exec i s = raise e s) : EndsInError i s e :=
  ⟨_, hx, ended_endWith .., onlyWrites_endWith ..⟩

/-! ### KEXP -/

/-- `CheckKeySize` accepts exactly the key sizes of `KeySizeOk` (41 R130, R131). -/
theorem checkKeySize_of_keySizeOk {s : State} (h : KeySizeOk s) :
    checkKeySize s.kbits.toNat s.keylen.toNat = .ok (s.nk, s.nk + 6) := by
  obtain ⟨hlen, hbits⟩ := h
  have hlegal : legalKeyBits s.kbits.toNat = true := by
    simpa only [legalKeyBits, Bool.or_eq_true, beq_iff_eq, or_assoc] using hbits
  rw [checkKeySize, if_neg (not_not.2 hlen), hlegal]
  rfl

theorem checkKeySize_of_not_keySizeOk {s : State} (h : ¬ KeySizeOk s) :
    checkKeySize s.kbits.toNat s.keylen.toNat = .error .invalidKeySize := by
  cases hk : checkKeySize s.kbits.toNat s.keylen.toNat with
  | error e => rw [checkKeySize_error hk]
  | ok r => exact absurd (keySizeOk_of_checkKeySize hk) h

/-- The state with the schedule of the key in `KEY`: what KEXP writes (41 R134). -/
def State.withSchedule (s : State) : State :=
  { s with w := scheduleReg s.expanded, status := s.status.setSchedule (s.nk + 6) }

@[simp] theorem State.withSchedule_w (s : State) : s.withSchedule.w = scheduleReg s.expanded := rfl
@[simp] theorem State.withSchedule_status (s : State) : s.withSchedule.status = s.status.setSchedule (s.nk + 6) := rfl

theorem exec_kexp_of_keySizeOk {s : State} (h : KeySizeOk s) : exec .kexp s = complete s.withSchedule := by
  rw [exec, execKexp, checkKeySize_of_keySizeOk h]
  rfl

theorem exec_kexp_of_not_keySizeOk {s : State} (h : ¬ KeySizeOk s) : exec .kexp s = raise .invalidKeySize s := by
  rw [exec, execKexp, checkKeySize_of_not_keySizeOk h]

theorem scheduleReg_get (ws : List Word) (i : Nat) (h : i < 60) : (scheduleReg ws)[i] = ws.getD i 0 := by
  simp [scheduleReg]

theorem nk_eq_of_keySizeOk {s : State} (h : KeySizeOk s) : s.nk = 4 ∨ s.nk = 6 ∨ s.nk = 8 :=
  (checkKeySize_ok (checkKeySize_of_keySizeOk h)).1

/-- `NR` has room for the round count of every legal key size (10 R22, 41 R131). -/
theorem setSchedule_nr_toNat (t : Status) {nr : Nat} (h : nr < 16) : (t.setSchedule nr).nr.toNat = nr := by
  rw [Status.setSchedule_nr, BitVec.toNat_ofNat, Nat.mod_eq_of_lt h]

/-- Settles O27: the step is `State.withSchedule`, whose `W` is the schedule's words and then its default 0. -/
theorem kexpExpandsTheKey : Obligations.KexpExpandsTheKey := by
  refine ⟨fun s hk => ?_, fun s hk => .of_raise (exec_kexp_of_not_keySizeOk hk)⟩
  have hnk := nk_eq_of_keySizeOk hk
  have hlen : s.expanded.length = 4 * (s.nk + 6 + 1) := length_expandKey _ _ _ (by omega)
  refine .of_completed (exec_kexp_of_keySizeOk hk) (.kexp (checkKeySize_of_keySizeOk hk))
    ⟨rfl, setSchedule_nr_toNat s.status (by omega), hlen, fun i hi hlt => ?_, fun i hi hle => ?_⟩
  · rw [State.endWith_w, State.withSchedule_w, scheduleReg_get _ _ hi, List.getD_eq_getElem _ _ (by omega)]
    exact List.getElem?_eq_getElem (by omega)
  · rw [State.endWith_w, State.withSchedule_w, scheduleReg_get _ _ hi, List.getD_eq_default _ _ (by omega)]

/-! ### RKEY -/

/-- An answered draw has exactly the bytes asked for (44 R220). -/
theorem Rng.length_of_draw {k : Nat} {g g' : Rng} {bs : List Byte} (h : g.draw k = (some bs, g')) : bs.length = k := by
  induction k generalizing g g' bs with
  | zero =>
    cases h
    rfl
  | succ k ih =>
    rcases Rng.draw_succ_cases k g g' _ h with ⟨hn, -⟩ | ⟨-, -, -, hn, -⟩ | ⟨b, g1, cs, -, hb, hd⟩
    · cases hn
    · cases hn
    · cases hb
      rw [List.length_cons, ih hd]

/-- The state with drawn bytes as the key and the source after them: what RKEY writes (41 R136). -/
def State.withDrawnKey (s : State) (bytes : List Byte) (g : Rng) : State :=
  { s.afterDraws g with key := bufOfList 32 bytes, keylen := BitVec.ofNat 8 (s.kbits.toNat / 8) }

@[simp] theorem State.withDrawnKey_key (s : State) (bytes : List Byte) (g : Rng) :
    (s.withDrawnKey bytes g).key = bufOfList 32 bytes := rfl
@[simp] theorem State.withDrawnKey_keylen (s : State) (bytes : List Byte) (g : Rng) :
    (s.withDrawnKey bytes g).keylen = BitVec.ofNat 8 (s.kbits.toNat / 8) := rfl

section
variable {s : State} {g : Rng}

theorem exec_rkey_of_illegal (h : legalKeyBits s.kbits.toNat = false) : exec .rkey s = raise .invalidKeySize s := by
  rw [exec, execRkey, h]
  rfl

theorem exec_rkey_of_draw_none (h : legalKeyBits s.kbits.toNat = true)
    (hd : s.rng.draw (s.kbits.toNat / 8) = (none, g)) :
    exec .rkey s = raise .randomSourceFailed (s.afterDraws g) := by
  rw [exec, execRkey, h, hd]
  rfl

theorem exec_rkey_of_draw_some {bytes : List Byte} (h : legalKeyBits s.kbits.toNat = true)
    (hd : s.rng.draw (s.kbits.toNat / 8) = (some bytes, g)) : exec .rkey s = complete (s.withDrawnKey bytes g) := by
  rw [exec, execRkey, h, hd]
  rfl

end

theorem legalKeyBits_le {kbits : Nat} (h : legalKeyBits kbits = true) : kbits ≤ 256 := by
  simp only [legalKeyBits, Bool.or_eq_true, beq_iff_eq] at h
  omega

/-- Settles O29, by the three ways RKEY ends; `KEY` is the drawn bytes and then its default 0. -/
theorem rkeyDrawsAKey : Obligations.RkeyDrawsAKey := by
  refine ⟨fun s hk => .of_raise (exec_rkey_of_illegal hk), fun s g hk hd => ?_, fun s r g hk hd => ?_⟩
  · exact ⟨_, exec_rkey_of_draw_none hk hd, ended_endWith .., rfl, onlyWrites_afterDraws_endWith ..⟩
  have hlen := Rng.length_of_draw hd
  have hbits := legalKeyBits_le hk
  refine .of_completed (exec_rkey_of_draw_some hk hd) (.rkey hd)
    ⟨fun i hi hlt => ?_, fun i hi hle => ?_, ?_, rfl⟩
  · rw [State.endWith_key, State.withDrawnKey_key, bufOfList_get _ _ _ hi, List.getD_eq_getElem _ _ (by omega)]
    exact List.getElem?_eq_getElem (by omega)
  · rw [State.endWith_key, State.withDrawnKey_key, bufOfList_get _ _ _ hi, List.getD_eq_default _ _ (by omega)]
  · rw [State.endWith_keylen, State.withDrawnKey_keylen, BitVec.toNat_ofNat, Nat.mod_eq_of_lt (by omega)]

/-! ### The known vector -/

theorem exec_encb_of_kvalid {s : State} (h : s.status.kvalid = true) :
    exec .encb s = completeBlock s (encryptBlock s.schedule s.rounds s.blk) := by
  rw [exec, execEncb, h]
  rfl

theorem exec_decb_of_kvalid {s : State} (h : s.status.kvalid = true) :
    exec .decb s = completeBlock s (decryptBlock s.schedule s.rounds s.blk) := by
  rw [exec, execDecb, h]
  rfl

/-- The schedule of V1's key, as ENCB and DECB read it from `W` (95 V1, V2). -/
def vectorSchedule : List Word :=
  (scheduleReg (expandKey (beBytesN 16 0x2b7e151628aed2a6abf7158809cf4f3c) 4 10)).toList

/-- The block of V1. -/
def vectorBlock : Block := bufOfList 16 (beBytesN 16 0x3243f6a8885a308d313198a2e0370734)

theorem encryptBlock_vector : (encryptBlock vectorSchedule 10 vectorBlock).toList =
    beBytesN 16 0x3925841d02dc09fbdc118597196a0b32 := by
  decide +kernel

theorem decryptBlock_vector :
    decryptBlock vectorSchedule 10 (encryptBlock vectorSchedule 10 vectorBlock) = vectorBlock := by
  decide +kernel

/-- Settles O37: KEXP leaves the vector's schedule, whatever else the state holds, and the two blocks are then evaluated. -/
theorem knownVectorIsReproduced : Obligations.KnownVectorIsReproduced := by
  intro s hbits hlen hkey hblk
  have hk : KeySizeOk s := by
    rw [KeySizeOk, hbits, hlen]
    decide
  have hnk : s.nk = 4 := by
    rw [State.nk, hbits]
    rfl
  have hw : s.withSchedule.schedule = vectorSchedule := by
    rw [State.schedule, State.withSchedule_w, State.expanded, hnk, hkey]
    rfl
  have hnr : s.withSchedule.rounds = 10 := by
    rw [State.rounds, State.withSchedule_status, hnk]
    rfl
  have hb : s.blk = vectorBlock := by rw [vectorBlock, ← hblk, bufOfList_toList]
  refine ⟨_, _, exec_kexp_of_keySizeOk hk, exec_encb_of_kvalid rfl, ?_, _, exec_decb_of_kvalid rfl, ?_⟩
  · change (encryptBlock s.withSchedule.schedule s.withSchedule.rounds s.blk).toList = _
    rw [hw, hnr, hb, encryptBlock_vector]
  · change decryptBlock s.withSchedule.schedule s.withSchedule.rounds
      (encryptBlock s.withSchedule.schedule s.withSchedule.rounds s.blk) = _
    rw [hw, hnr, hb, decryptBlock_vector]

end Sys2Proof.Machine

/-! PROOFS of the statements on the round steps and the block commands. A step command puts its transform of `S` in `S`
(`exec_stepCommand`), so that a list of step commands is a fold of transforms and ENCB and DECB are such folds. Each round step
has its inverse beside it; the inverse of the column product is a matrix product over GF(2^8). -/

namespace Sys2Proof.Machine

/-! ### Commands that write `S` alone -/

/-- The state a command that writes `S` alone ends in. -/
def State.endWithBlock (s : State) (b : Block) : State := ({ s with blk := b } : State).endWith .noError

@[simp] theorem State.endWithBlock_blk (s : State) (b : Block) : (s.endWithBlock b).blk = b := rfl
@[simp] theorem State.endWithBlock_kvalid (s : State) (b : Block) :
    (s.endWithBlock b).status.kvalid = s.status.kvalid := rfl
@[simp] theorem State.endWithBlock_rounds (s : State) (b : Block) : (s.endWithBlock b).rounds = s.rounds := rfl
@[simp] theorem State.endWithBlock_schedule (s : State) (b : Block) : (s.endWithBlock b).schedule = s.schedule := rfl
@[simp] theorem State.endWithBlock_endWithBlock (s : State) (a b : Block) :
    (s.endWithBlock a).endWithBlock b = s.endWithBlock b := rfl

/-- A command whose step puts `b` in `S` writes `S` alone. -/
theorem CompletesWith.of_completeBlock {i : Instr} {s : State} {b : Block} {P : State → Prop}
    (hx : exec i s = completeBlock s b) (hw : writesOf i = [.blk]) (hP : P (s.endWithBlock b)) :
    CompletesWith i s [.blk] P :=
  hw ▸ .of_completed hx (.block hw b) hP

/-! ### The bytes a round step writes -/

theorem getElem_subBytes (s : Block) {i : Nat} (h : i < 16) : (subBytes s)[i] = sbox s[i] := by
  rw [subBytes, getElem_blockOf _ h, cell_eq_getElem s h]

theorem getElem_invSubBytes (s : Block) {i : Nat} (h : i < 16) : (invSubBytes s)[i] = isbox s[i] := by
  rw [invSubBytes, getElem_blockOf _ h, cell_eq_getElem s h]

/-- The index list of R153. -/
theorem shiftRows_index : ∀ i < 16, 4 * ((i / 4 + i % 4) % 4) + i % 4 =
    [0, 5, 10, 15, 4, 9, 14, 3, 8, 13, 2, 7, 12, 1, 6, 11].getD i 0 := by decide

/-- The index list of R156. -/
theorem invShiftRows_index : ∀ i < 16, 4 * ((i / 4 + 4 - i % 4) % 4) + i % 4 =
    [0, 13, 10, 7, 4, 1, 14, 11, 8, 5, 2, 15, 12, 9, 6, 3].getD i 0 := by decide

theorem getElem_shiftRows (s : Block) {i : Nat} (h : i < 16) : (shiftRows s)[i] =
    s[[0, 5, 10, 15, 4, 9, 14, 3, 8, 13, 2, 7, 12, 1, 6, 11].getD i 0]?.getD 0 := by
  rw [shiftRows, getElem_blockOf _ h, cell, shiftRows_index i h]

theorem getElem_invShiftRows (s : Block) {i : Nat} (h : i < 16) : (invShiftRows s)[i] =
    s[[0, 13, 10, 7, 4, 1, 14, 11, 8, 5, 2, 15, 12, 9, 6, 3].getD i 0]?.getD 0 := by
  rw [invShiftRows, getElem_blockOf _ h, cell, invShiftRows_index i h]

/-- The four bytes of a column product, by the first row of the circulant matrix (40 R119, 42 R154, R157). -/
theorem cell_matColumns_row (m0 m1 m2 m3 : Byte) (s : Block) {c : Nat} (hc : c < 4) {a0 a1 a2 a3 : Byte}
    (h0 : a0 = cell s c 0) (h1 : a1 = cell s c 1) (h2 : a2 = cell s c 2) (h3 : a3 = cell s c 3) :
    cell (matColumns [m0, m1, m2, m3] s) c 0 = gfMul a0 m0 ^^^ gfMul a1 m1 ^^^ gfMul a2 m2 ^^^ gfMul a3 m3 ∧
    cell (matColumns [m0, m1, m2, m3] s) c 1 = gfMul a0 m3 ^^^ gfMul a1 m0 ^^^ gfMul a2 m1 ^^^ gfMul a3 m2 ∧
    cell (matColumns [m0, m1, m2, m3] s) c 2 = gfMul a0 m2 ^^^ gfMul a1 m3 ^^^ gfMul a2 m0 ^^^ gfMul a3 m1 ∧
    cell (matColumns [m0, m1, m2, m3] s) c 3 = gfMul a0 m1 ^^^ gfMul a1 m2 ^^^ gfMul a2 m3 ^^^ gfMul a3 m0 := by
  subst h0 h1 h2 h3
  refine ⟨?_, ?_, ?_, ?_⟩ <;> exact cell_blockOf _ hc (by decide)

/-- Settles O33, each step by the bytes of its transform. -/
theorem roundStepsWriteTheirBytes : Obligations.RoundStepsWriteTheirBytes := by
  refine fun s => ⟨?subb, ?isubb, ?shrow, ?ishrow, ?mixc, ?imixc⟩
  case subb => exact .of_completeBlock rfl rfl fun i h => getElem_subBytes s.blk h
  case isubb => exact .of_completeBlock rfl rfl fun i h => getElem_invSubBytes s.blk h
  case shrow => exact .of_completeBlock rfl rfl fun i h => getElem_shiftRows s.blk h
  case ishrow => exact .of_completeBlock rfl rfl fun i h => getElem_invShiftRows s.blk h
  case mixc =>
    refine .of_completeBlock rfl rfl fun c hc a0 a1 a2 a3 h0 h1 h2 h3 => ?_
    simpa only [State.endWithBlock_blk, mixColumns, mixRow, gfMul_one] using
      cell_matColumns_row 2 3 1 1 s.blk hc h0 h1 h2 h3
  case imixc =>
    exact .of_completeBlock rfl rfl fun c hc a0 a1 a2 a3 h0 h1 h2 h3 =>
      cell_matColumns_row 0x0E 0x0B 0x0D 0x09 s.blk hc h0 h1 h2 h3

/-! ### ARK -/

section
variable {s : State} {rnd : Nat}

theorem exec_ark_of_kvalid (h : s.status.kvalid = true) (hr : rnd ≤ s.rounds) :
    exec (.ark rnd) s = completeBlock s (addRoundKey s.schedule rnd s.blk) := by
  rw [exec, execArk, h, if_neg (by decide), if_neg (Nat.not_lt.2 hr)]

theorem exec_ark_of_not_kvalid (h : s.status.kvalid = false) :
    exec (.ark rnd) s = raise .keyScheduleInvalid s := by
  rw [exec, execArk, h]
  rfl

theorem exec_ark_of_rounds_lt (h : s.status.kvalid = true) (hr : s.rounds < rnd) :
    exec (.ark rnd) s = raise .invalidOperand s := by
  rw [exec, execArk, h, if_neg (by decide), if_pos hr]

end

/-- A byte of a word by shift and mask (00 R8). -/
theorem wordByte_eq_shift (v : Word) (t : Nat) :
    wordByte v t = ((v >>> (24 - 8 * t)) &&& 0x000000FF).setWidth 8 := by
  rw [BitVec.setWidth_and, show (0x000000FF : Word).setWidth 8 = BitVec.allOnes 8 from rfl, BitVec.and_allOnes]
  rfl

/-- The round-key byte as it stands in `W` (20 R66). -/
theorem roundKeyByte_schedule (s : State) (rnd c r : Nat) : roundKeyByte s.schedule rnd c r =
    (((s.w[4 * rnd + c]?.getD 0) >>> (24 - 8 * r)) &&& 0x000000FF).setWidth 8 := by
  rw [roundKeyByte, wordByte_eq_shift, State.schedule, List.getD_eq_getElem?_getD, Vector.getElem?_toList]

theorem cell_addRoundKey (w : List Word) (rnd : Nat) (s : Block) {c r : Nat} (hc : c < 4) (hr : r < 4) :
    cell (addRoundKey w rnd s) c r = cell s c r ^^^ roundKeyByte w rnd c r := cell_blockOf _ hc hr

/-- Settles O34, by the three ways ARK ends. -/
theorem arkAddsTheRoundKey : Obligations.ArkAddsTheRoundKey := by
  refine ⟨fun s rnd hk hr => .of_completeBlock (exec_ark_of_kvalid hk hr) rfl fun c r hc hr' => ?_,
    fun s rnd hk => .of_raise (exec_ark_of_not_kvalid hk), fun s rnd hk hr => .of_raise (exec_ark_of_rounds_lt hk hr)⟩
  rw [State.endWithBlock_blk, cell_addRoundKey _ _ _ hc hr', roundKeyByte_schedule]

/-! ### Sequences of step commands -/

/-- The transform of `S` a step command makes with the schedule `w` (42 R150 to R157); the other commands are none. -/
def stepTransform (w : List Word) : Instr → Block → Block
  | .ark rnd => addRoundKey w rnd
  | .subb => subBytes
  | .shrow => shiftRows
  | .mixc => mixColumns
  | .isubb => invSubBytes
  | .ishrow => invShiftRows
  | .imixc => invMixColumns
  | _ => id

/-- A step command of a block transform with `nr` rounds: the rounds of ARK go up to `nr` (42 R151). -/
def IsStepCommand (nr : Nat) : Instr → Prop
  | .ark rnd => rnd ≤ nr
  | .subb | .shrow | .mixc | .isubb | .ishrow | .imixc => True
  | _ => False

theorem exec_stepCommand {s : State} {i : Instr} (hk : s.status.kvalid = true) (hi : IsStepCommand s.rounds i) :
    exec i s = .next (s.endWithBlock (stepTransform s.schedule i s.blk)) := by
  cases i with
  | ark rnd => exact exec_ark_of_kvalid hk hi
  | subb | shrow | mixc | isubb | ishrow | imixc => rfl
  | _ => exact hi.elim

theorem runCommands_cons {i : Instr} {is : List Instr} {s t : State} (h : exec i s = .next t) :
    runCommands (i :: is) s = runCommands is t := by
  rw [runCommands, h]

theorem runCommands_endWithBlock {is : List Instr} {s : State} (hk : s.status.kvalid = true)
    (his : ∀ i ∈ is, IsStepCommand s.rounds i) (b : Block) : runCommands is (s.endWithBlock b) =
      .next (s.endWithBlock (is.foldl (fun b i => stepTransform s.schedule i b) b)) := by
  induction is generalizing b with
  | nil => rfl
  | cons i is ih =>
    obtain ⟨hi, his⟩ := List.forall_mem_cons.1 his
    have hstep := exec_stepCommand (s := s.endWithBlock b) (by simpa using hk) (by simpa using hi)
    rw [State.endWithBlock_endWithBlock, State.endWithBlock_schedule, State.endWithBlock_blk] at hstep
    rw [runCommands_cons hstep, ih his, List.foldl_cons]

/-- Step commands one after another make their transforms one after another. -/
theorem runCommands_stepCommands {i : Instr} {is : List Instr} {s : State} (hk : s.status.kvalid = true)
    (his : ∀ j ∈ i :: is, IsStepCommand s.rounds j) : runCommands (i :: is) s =
      .next (s.endWithBlock ((i :: is).foldl (fun b j => stepTransform s.schedule j b) s.blk)) := by
  obtain ⟨hi, his⟩ := List.forall_mem_cons.1 his
  rw [runCommands_cons (exec_stepCommand hk hi)]
  exact runCommands_endWithBlock hk his _

theorem le_of_mem_middleRounds {nr rnd : Nat} (h : rnd ∈ List.range' 1 (nr - 1)) : rnd ≤ nr := by
  have hlt := (List.mem_range'_1.1 h).2
  omega

theorem encSteps_isStepCommand (nr : Nat) : ∀ i ∈ encSteps nr, IsStepCommand nr i := by
  rw [encSteps, List.forall_mem_append, List.forall_mem_cons, List.forall_mem_flatMap]
  exact ⟨⟨Nat.zero_le nr, fun rnd h => by simpa [IsStepCommand] using le_of_mem_middleRounds h⟩, by simp [IsStepCommand]⟩

theorem decSteps_isStepCommand (nr : Nat) : ∀ i ∈ decSteps nr, IsStepCommand nr i := by
  rw [decSteps, List.forall_mem_append, List.forall_mem_cons, List.forall_mem_flatMap]
  exact ⟨⟨Nat.le_refl nr, fun rnd h => by
    simpa [IsStepCommand] using le_of_mem_middleRounds (List.mem_reverse.1 h)⟩, by simp [IsStepCommand]⟩

/-- `EncryptBlock` as the fold of its step commands' transforms (42 R158, R159). -/
theorem foldl_encSteps (w : List Word) (nr : Nat) (b : Block) :
    (encSteps nr).foldl (fun b i => stepTransform w i b) b = encryptBlock w nr b := by
  rw [encSteps, List.foldl_append, List.foldl_cons (l := List.flatMap ..), List.foldl_flatMap]
  rfl

/-- `DecryptBlock` as the fold of its step commands' transforms (42 R160, R161). -/
theorem foldl_decSteps (w : List Word) (nr : Nat) (b : Block) :
    (decSteps nr).foldl (fun b i => stepTransform w i b) b = decryptBlock w nr b := by
  rw [decSteps, List.foldl_append, List.foldl_cons (l := List.flatMap ..), List.foldl_flatMap]
  rfl

theorem exec_encb_of_not_kvalid {s : State} (h : s.status.kvalid = false) :
    exec .encb s = raise .keyScheduleInvalid s := by
  rw [exec, execEncb, h]
  rfl

theorem exec_decb_of_not_kvalid {s : State} (h : s.status.kvalid = false) :
    exec .decb s = raise .keyScheduleInvalid s := by
  rw [exec, execDecb, h]
  rfl

theorem runCommands_encSteps {s : State} (hk : s.status.kvalid = true) :
    runCommands (encSteps s.rounds) s = exec .encb s := by
  rw [exec_encb_of_kvalid hk, ← foldl_encSteps]
  exact runCommands_stepCommands hk (encSteps_isStepCommand s.rounds)

theorem runCommands_decSteps {s : State} (hk : s.status.kvalid = true) :
    runCommands (decSteps s.rounds) s = exec .decb s := by
  rw [exec_decb_of_kvalid hk, ← foldl_decSteps]
  exact runCommands_stepCommands hk (decSteps_isStepCommand s.rounds)

/-- Settles O35: the two block transforms are folds of the step commands' transforms, whatever the round count. -/
theorem blockCommandsAreTheStepCommands : Obligations.BlockCommandsAreTheStepCommands :=
  ⟨fun _ hk => ⟨.of_completeBlock (exec_encb_of_kvalid hk) rfl rfl, .of_completeBlock (exec_decb_of_kvalid hk) rfl rfl⟩,
    fun _ hk _ => ⟨runCommands_encSteps hk, runCommands_decSteps hk⟩,
    fun _ hk => ⟨.of_raise (exec_encb_of_not_kvalid hk), .of_raise (exec_decb_of_not_kvalid hk)⟩⟩

/-! ### The inverse of each round step -/

theorem addRoundKey_addRoundKey (w : List Word) (rnd : Nat) (s : Block) :
    addRoundKey w rnd (addRoundKey w rnd s) = s :=
  block_ext fun c r hc hr => by
    rw [cell_addRoundKey _ _ _ hc hr, cell_addRoundKey _ _ _ hc hr, BitVec.xor_assoc, BitVec.xor_self, BitVec.xor_zero]

theorem invSubBytes_subBytes (s : Block) : invSubBytes (subBytes s) = s :=
  Vector.ext fun i hi => by rw [getElem_invSubBytes _ hi, getElem_subBytes _ hi, isbox_sbox]

theorem subBytes_invSubBytes (s : Block) : subBytes (invSubBytes s) = s :=
  Vector.ext fun i hi => by rw [getElem_subBytes _ hi, getElem_invSubBytes _ hi, sbox_isbox]

theorem cell_shiftRows (s : Block) {c r : Nat} (hc : c < 4) (hr : r < 4) :
    cell (shiftRows s) c r = cell s ((c + r) % 4) r := cell_blockOf _ hc hr

theorem cell_invShiftRows (s : Block) {c r : Nat} (hc : c < 4) (hr : r < 4) :
    cell (invShiftRows s) c r = cell s ((c + 4 - r) % 4) r := cell_blockOf _ hc hr

theorem invShiftRows_shiftRows (s : Block) : invShiftRows (shiftRows s) = s :=
  block_ext fun c r hc hr => by
    rw [cell_invShiftRows _ hc hr, cell_shiftRows _ (Nat.mod_lt _ (by decide)) hr,
      show ((c + 4 - r) % 4 + r) % 4 = c by omega]

theorem shiftRows_invShiftRows (s : Block) : shiftRows (invShiftRows s) = s :=
  block_ext fun c r hc hr => by
    rw [cell_shiftRows _ hc hr, cell_invShiftRows _ (Nat.mod_lt _ (by decide)) hr,
      show ((c + r) % 4 + 4 - r) % 4 = c by omega]

/-- The sum over the four rows of a column (42 R154). -/
def rowSum (f : Nat → Byte) : Byte := f 0 ^^^ f 1 ^^^ f 2 ^^^ f 3

theorem cell_matColumns (m : List Byte) (s : Block) {c r : Nat} (hc : c < 4) (hr : r < 4) :
    cell (matColumns m s) c r = rowSum fun j => gfMul (cell s c j) (circulant m r j) := cell_blockOf _ hc hr

theorem rowSum_congr {f g : Nat → Byte} (h : ∀ j < 4, f j = g j) : rowSum f = rowSum g := by
  rw [rowSum, h 0 (by decide), h 1 (by decide), h 2 (by decide), h 3 (by decide), rowSum]

theorem rowSum_comm (f : Nat → Nat → Byte) :
    rowSum (fun j => rowSum fun k => f j k) = rowSum fun k => rowSum fun j => f j k := by
  simp only [rowSum]
  ac_rfl

theorem rowSum_gfMul (f : Nat → Byte) (b : Byte) : gfMul (rowSum f) b = rowSum fun j => gfMul (f j) b := by
  simp only [rowSum, gfMul_xor_left]

theorem gfMul_rowSum (a : Byte) (f : Nat → Byte) : gfMul a (rowSum f) = rowSum fun j => gfMul a (f j) := by
  simp only [rowSum, gfMul_xor_right]

theorem gfMul_ite_one (a : Byte) (p : Prop) [Decidable p] : gfMul a (if p then 1 else 0) = if p then a else 0 := by
  split
  · exact gfMul_one a
  · exact gfMul_zero a

theorem rowSum_gfMul_unit (f : Nat → Byte) {r : Nat} (hr : r < 4) :
    (rowSum fun k => gfMul (f k) (if k = r then 1 else 0)) = f r := by
  simp only [gfMul_ite_one, rowSum]
  interval_cases r <;> simp

/-- Two circulant matrices whose product is the unit matrix undo each other on every column. -/
theorem matColumns_matColumns {m n : List Byte} (h : ∀ r < 4, ∀ k < 4,
    (rowSum fun j => gfMul (circulant m j k) (circulant n r j)) = if k = r then 1 else 0) (s : Block) :
    matColumns n (matColumns m s) = s :=
  block_ext fun c r hc hr =>
    calc cell (matColumns n (matColumns m s)) c r
      _ = rowSum fun j => gfMul (rowSum fun k => gfMul (cell s c k) (circulant m j k)) (circulant n r j) := by
        rw [cell_matColumns _ _ hc hr]
        exact rowSum_congr fun j hj => by rw [cell_matColumns _ _ hc hj]
      _ = rowSum fun k => gfMul (cell s c k) (rowSum fun j => gfMul (circulant m j k) (circulant n r j)) := by
        simp only [rowSum_gfMul, gfMul_rowSum, gfMul_assoc]
        exact rowSum_comm _
      _ = rowSum fun k => gfMul (cell s c k) (if k = r then 1 else 0) :=
        rowSum_congr fun k hk => by rw [h r hr k hk]
      _ = cell s c r := rowSum_gfMul_unit _ hr

theorem invMixColumns_mixColumns (s : Block) : invMixColumns (mixColumns s) = s :=
  matColumns_matColumns (by decide) s

theorem mixColumns_invMixColumns (s : Block) : mixColumns (invMixColumns s) = s :=
  matColumns_matColumns (by decide) s

/-! ### Blocks -/

/-- A round of decryption undoes the round of encryption of its number, under the two steps every round begins with. -/
theorem decRound_shiftRows_subBytes_encRound (w : List Word) (s : Block) (rnd : Nat) :
    decRound w (shiftRows (subBytes (encRound w s rnd))) rnd = shiftRows (subBytes s) := by
  rw [decRound, invShiftRows_shiftRows, invSubBytes_subBytes, encRound, addRoundKey_addRoundKey,
    invMixColumns_mixColumns]

theorem encRound_invSubBytes_invShiftRows_decRound (w : List Word) (s : Block) (rnd : Nat) :
    encRound w (invSubBytes (invShiftRows (decRound w s rnd))) rnd = invSubBytes (invShiftRows s) := by
  rw [encRound, subBytes_invSubBytes, shiftRows_invShiftRows, decRound, mixColumns_invMixColumns,
    addRoundKey_addRoundKey]

/-- Rounds undone one by one, the last first, `T` standing between the two directions. -/
theorem foldl_reverse_foldl {f g : Block → Nat → Block} {T : Block → Block} (h : ∀ s rnd, g (T (f s rnd)) rnd = T s)
    (rnds : List Nat) (s : Block) : rnds.reverse.foldl g (T (rnds.foldl f s)) = T s := by
  induction rnds generalizing s with
  | nil => rfl
  | cons rnd rnds ih =>
    rw [List.foldl_cons, List.reverse_cons, List.foldl_append, ih, List.foldl_cons, List.foldl_nil, h]

theorem decryptBlock_encryptBlock (w : List Word) (nr : Nat) (b : Block) :
    decryptBlock w nr (encryptBlock w nr b) = b := by
  have hrounds := foldl_reverse_foldl (T := fun s => shiftRows (subBytes s)) (decRound_shiftRows_subBytes_encRound w)
    (List.range' 1 (nr - 1)) (addRoundKey w 0 b)
  rw [decryptBlock, encryptBlock, addRoundKey_addRoundKey, hrounds, invShiftRows_shiftRows, invSubBytes_subBytes,
    addRoundKey_addRoundKey]

theorem encryptBlock_decryptBlock (w : List Word) (nr : Nat) (b : Block) :
    encryptBlock w nr (decryptBlock w nr b) = b := by
  have hrounds := foldl_reverse_foldl (T := fun s => invSubBytes (invShiftRows s))
    (encRound_invSubBytes_invShiftRows_decRound w) (List.range' 1 (nr - 1)).reverse (addRoundKey w nr b)
  rw [List.reverse_reverse] at hrounds
  rw [encryptBlock, decryptBlock, addRoundKey_addRoundKey, hrounds, subBytes_invSubBytes, shiftRows_invShiftRows,
    addRoundKey_addRoundKey]

/-- Settles O36: the rounds of one direction undo those of the other, the last first. -/
theorem decryptBlockUndoesEncryptBlock : Obligations.DecryptBlockUndoesEncryptBlock :=
  fun w nr b => ⟨decryptBlock_encryptBlock w nr b, encryptBlock_decryptBlock w nr b⟩

end Sys2Proof.Machine

/-! PROOFS of the statements on padding and the message commands. `RemovePadding` is characterised on byte strings
(`removePadding_eq_ok_iff`), a block-wise transform by its blocks (`eq_mapBlocks_of_blocks`). A command's step is computed from
what the message functions give; PAD, ENCM and DECM write as `State.withBytes` says. -/

namespace Sys2Proof.Machine

/-! ### Padding -/

theorem padCount_pos (len : Nat) : 1 ≤ padCount len := by
  rw [padCount]
  omega

theorem padCount_le (len : Nat) : padCount len ≤ 16 := Nat.sub_le _ _

theorem add_padCount_mod (len : Nat) : (len + padCount len) % 16 = 0 := by
  rw [padCount]
  omega

/-- A pad of `n` bytes (43 R190, R192). -/
def padOf (n : Nat) : List Byte := List.replicate n (BitVec.ofNat 8 n)

theorem applyPadding_eq (b : List Byte) : applyPadding b = b ++ padOf (padCount b.length) := rfl

@[simp] theorem length_padOf (n : Nat) : (padOf n).length = n := List.length_replicate

/-- The value of a pad byte is the pad's length. -/
theorem toNat_padByte {n : Nat} (h : n ≤ 16) : (BitVec.ofNat 8 n).toNat = n := by
  rw [BitVec.toNat_ofNat, Nat.mod_eq_of_lt (by omega)]

theorem removePadding_append_padOf (m : List Byte) {n : Nat} (hpos : 1 ≤ n) (hle : n ≤ 16) :
    removePadding (m ++ padOf n) = .ok m := by
  have hlast : (m ++ padOf n).getLast? = some (BitVec.ofNat 8 n) := by
    rw [List.getLast?_append, padOf, List.getLast?_replicate, if_neg (by omega)]
    rfl
  have hsplit : (m ++ padOf n).length - n = m.length := by simp
  have hcheck : ¬ (n = 0 ∨ 16 < n ∨ (m ++ padOf n).length < n) := by
    rw [List.length_append, length_padOf]
    omega
  rw [removePadding, hlast]
  simp only [toNat_padByte hle, if_neg hcheck, hsplit, List.drop_left, List.take_left]
  rw [if_pos (by simp [padOf])]

theorem eq_append_padOf_of_removePadding {b m : List Byte} (h : removePadding b = .ok m) :
    ∃ n, 1 ≤ n ∧ n ≤ 16 ∧ b = m ++ padOf n := by
  unfold removePadding at h
  split at h
  · cases h
  rename_i last _
  dsimp only at h
  split at h
  · cases h
  rename_i hcheck
  split at h
  · rename_i hall
    cases h
    refine ⟨last.toNat, by omega, by omega, ?_⟩
    have hpad : b.drop (b.length - last.toNat) = padOf last.toNat := by
      rw [padOf, BitVec.ofNat_toNat, BitVec.setWidth_eq]
      refine List.eq_replicate_iff.2 ⟨by rw [List.length_drop]; omega, ?_⟩
      simpa using hall
    rw [← hpad, List.take_append_drop]
  · cases h

/-- What `RemovePadding` takes off is exactly a pad (43 R192). -/
theorem removePadding_eq_ok_iff (b m : List Byte) :
    removePadding b = .ok m ↔ ∃ n, 1 ≤ n ∧ n ≤ 16 ∧ b = m ++ padOf n := by
  refine ⟨eq_append_padOf_of_removePadding, ?_⟩
  rintro ⟨n, hpos, hle, rfl⟩
  exact removePadding_append_padOf m hpos hle

theorem removePadding_ok_or_invalidPadding (b : List Byte) :
    (∃ m, removePadding b = .ok m) ∨ removePadding b = .error .invalidPadding := by
  cases h : removePadding b with
  | ok m => exact .inl ⟨m, rfl⟩
  | error e => exact .inr (by rw [removePadding_error h])

theorem removePadding_of_ne_ok {b : List Byte} (h : ∀ m, removePadding b ≠ .ok m) :
    removePadding b = .error .invalidPadding :=
  (removePadding_ok_or_invalidPadding b).resolve_left fun ⟨m, hm⟩ => h m hm

theorem removePadding_applyPadding (b : List Byte) : removePadding (applyPadding b) = .ok b := by
  rw [applyPadding_eq, removePadding_append_padOf b (padCount_pos _) (padCount_le _)]

theorem length_applyPadding_mod (b : List Byte) : (applyPadding b).length % 16 = 0 := by
  rw [length_applyPadding, add_padCount_mod]

/-- Settles O40, from the characterisation of what `RemovePadding` takes off. -/
theorem removePaddingUndoesApplyPadding : Obligations.RemovePaddingUndoesApplyPadding := by
  refine ⟨removePadding_eq_ok_iff, removePadding_ok_or_invalidPadding, fun b =>
    ⟨removePadding_applyPadding b, length_applyPadding_mod b, ?_, List.take_left, List.drop_left⟩⟩
  rw [length_applyPadding, padCount]
  omega

/-! ### Parts of the data buffer -/

/-- A part of the bytes read from the front is what a read of that part gives. -/
theorem Memory.take_drop_readBytes (m : Memory) {a n k : Nat} (h : a + n ≤ k) :
    ((m.readBytes 0 k).drop a).take n = m.readBytes a n := by
  obtain ⟨r, rfl⟩ := Nat.exists_eq_add_of_le h
  rw [Nat.add_assoc, Memory.readBytes_append, List.drop_left' (Memory.length_readBytes _ _ _), Nat.zero_add,
    Memory.readBytes_append, List.take_left' (Memory.length_readBytes _ _ _)]

theorem Memory.readBytes_writeBytes_part {m : Memory} (hm : m.wf) {bs : List Byte} {a n : Nat} (h : a + n ≤ bs.length) :
    (m.writeBytes 0 bs).readBytes a n = (bs.drop a).take n := by
  rw [← Memory.take_drop_readBytes _ h, Memory.readBytes_writeBytes m 0 bs hm]

/-- A pad written to the buffer reads as its length, byte by byte. -/
theorem Memory.read_writeBytes_padBytes {m : Memory} (hm : m.wf) (a : Nat) {len i : Nat} (hi : i < padCount len) :
    (m.writeBytes a (padBytes len)).read (a + i) = BitVec.ofNat 8 (padCount len) := by
  have hget := Memory.read_writeBytes_inside m a (padBytes len) i hm (by rwa [length_padBytes])
  rw [padBytes, List.getElem?_replicate_of_lt hi] at hget
  exact Option.some.inj hget

theorem Memory.readBytes_eq_replicate_iff (m : Memory) (a n : Nat) (v : Byte) :
    m.readBytes a n = List.replicate n v ↔ ∀ i, i < n → m.read (a + i) = v := by
  constructor
  · intro h i hi
    have hget := congrArg (·[i]?) h
    simpa [Memory.getElem_readBytes _ _ _ _ hi, hi] using hget
  · intro h
    refine List.ext_getElem? fun i => ?_
    by_cases hi : i < n
    · simp [Memory.getElem_readBytes _ _ _ _ hi, hi, h i hi]
    · simp [hi, Memory.length_readBytes]

/-- A pad of the message is valid exactly when the message ends with it (43 R192). -/
theorem validPad_iff {s : State} {n : Nat} : ValidPad s n ↔ 1 ≤ n ∧ n ≤ 16 ∧ ∃ m, s.message = m ++ padOf n := by
  refine and_congr_right fun hpos => and_congr_right fun hle => ⟨fun ⟨hlen, hread⟩ => ?_, fun ⟨m, hm⟩ => ?_⟩
  · refine ⟨s.dmem.readBytes 0 (s.msgLen - n), ?_⟩
    have hpad : s.dmem.readBytes (s.msgLen - n) n = padOf n :=
      (Memory.readBytes_eq_replicate_iff ..).2 fun i hi => BitVec.eq_of_toNat_eq <|
        (hread _ (by omega) (by omega)).trans (toNat_padByte hle).symm
    have happ := Memory.readBytes_append s.dmem 0 (s.msgLen - n) n
    rwa [Nat.sub_add_cancel hlen, Nat.zero_add, hpad] at happ
  · have hlen : s.msgLen = m.length + n := by rw [← length_message, hm, List.length_append, length_padOf]
    have hpad : s.dmem.readBytes m.length n = padOf n := by
      rw [← Memory.take_drop_readBytes s.dmem hlen.ge, ← State.message, hm, List.drop_left,
        List.take_of_length_le (length_padOf n).le]
    refine ⟨by omega, fun a hge hlt => ?_⟩
    obtain ⟨i, rfl⟩ := Nat.exists_eq_add_of_le (show m.length ≤ a by omega)
    rw [(Memory.readBytes_eq_replicate_iff ..).1 hpad i (by omega), toNat_padByte hle]

/-! ### Block-wise transforms -/

theorem bufOfList_mapBlocks_block (f : Block → Block) {n j : Nat} (b : List Byte) (h : j < n) :
    bufOfList 16 (((mapBlocks f n b).drop (16 * j)).take 16) = f (bufOfList 16 ((b.drop (16 * j)).take 16)) := by
  rw [mapBlocks_block f n b j h, bufOfList_toList]

/-- A string whose blocks are the transforms of another's blocks is the block-wise transform of it. -/
theorem eq_mapBlocks_of_blocks {f : Block → Block} {n : Nat} {p b : List Byte} (hlen : p.length = 16 * n)
    (h : ∀ j, j < n → bufOfList 16 ((p.drop (16 * j)).take 16) = f (bufOfList 16 ((b.drop (16 * j)).take 16))) :
    p = mapBlocks f n b := by
  induction n generalizing p b with
  | zero => exact List.eq_nil_of_length_eq_zero hlen
  | succ n ih =>
    have hfirst : p.take 16 = (f (bufOfList 16 (b.take 16))).toList := by
      rw [← toList_bufOfList 16 (p.take 16) (by rw [List.length_take]; omega)]
      exact congrArg Vector.toList (h 0 (by omega))
    have hrest : p.drop 16 = mapBlocks f n (b.drop 16) := by
      refine ih (by rw [List.length_drop]; omega) fun j hj => ?_
      rw [List.drop_drop, List.drop_drop, show 16 + 16 * j = 16 * (j + 1) by omega]
      exact h (j + 1) (by omega)
    rw [mapBlocks, ← hfirst, ← hrest, List.take_append_drop]

theorem mapBlocks_mapBlocks {f g : Block → Block} (h : ∀ x, g (f x) = x) {n : Nat} {b : List Byte}
    (hlen : b.length = 16 * n) : mapBlocks g n (mapBlocks f n b) = b :=
  (eq_mapBlocks_of_blocks hlen fun _ hj => by rw [bufOfList_mapBlocks_block f b hj, h]).symm

/-! ### What the message functions give -/

/-- The encryption of the padded message under the key in `KEY` (43 R194). -/
def State.encrypted (s : State) : List Byte :=
  mapBlocks (encryptBlock s.expanded (s.nk + 6)) ((applyPadding s.message).length / 16) (applyPadding s.message)

/-- The decryption of the message under the key in `KEY`, its pad still on it (43 R196). -/
def State.decrypted (s : State) : List Byte :=
  mapBlocks (decryptBlock s.expanded (s.nk + 6)) (s.message.length / 16) s.message

section
variable {s : State}

theorem encryptMessage_of_keySizeOk (hk : KeySizeOk s) :
    encryptMessage s.message s.keyBytes s.kbits.toNat s.keylen.toNat = .ok s.encrypted := by
  rw [encryptMessage, checkKeySize_of_keySizeOk hk]
  rfl

theorem encryptMessage_of_not_keySizeOk (hk : ¬ KeySizeOk s) :
    encryptMessage s.message s.keyBytes s.kbits.toNat s.keylen.toNat = .error .invalidKeySize := by
  rw [encryptMessage, checkKeySize_of_not_keySizeOk hk]

theorem decryptMessage_of_length (h : s.msgLen % 16 ≠ 0) :
    decryptMessage s.message s.keyBytes s.kbits.toNat s.keylen.toNat = .error .invalidCiphertextLength := by
  rw [decryptMessage, length_message, if_pos h]

theorem decryptMessage_of_not_keySizeOk (h : s.msgLen % 16 = 0) (hk : ¬ KeySizeOk s) :
    decryptMessage s.message s.keyBytes s.kbits.toNat s.keylen.toNat = .error .invalidKeySize := by
  rw [decryptMessage, length_message, if_neg (not_not.2 h), checkKeySize_of_not_keySizeOk hk]

theorem decryptMessage_of_keySizeOk (h : s.msgLen % 16 = 0) (hk : KeySizeOk s) :
    decryptMessage s.message s.keyBytes s.kbits.toNat s.keylen.toNat =
      (removePadding s.decrypted).map fun m => (s.decrypted, m) := by
  have hmod : s.message.length % 16 = 0 := by rwa [length_message]
  rw [decryptMessage, if_neg (not_not.2 hmod), checkKeySize_of_keySizeOk hk, State.decrypted, State.expanded]
  dsimp only
  generalize removePadding (mapBlocks _ _ _) = r
  cases r <;> rfl

theorem paddedLen_eq : s.paddedLen = s.msgLen + padCount s.msgLen := by
  rw [State.paddedLen, padCount]
  omega

theorem length_paddedMessage : (applyPadding s.message).length = s.paddedLen := by
  rw [length_applyPadding, length_message, paddedLen_eq]

theorem paddedLen_mod : s.paddedLen % 16 = 0 := by rw [paddedLen_eq, add_padCount_mod]

theorem length_encrypted : s.encrypted.length = s.paddedLen := by
  have := paddedLen_mod (s := s)
  rw [State.encrypted, length_mapBlocks, length_paddedMessage]
  omega

/-- Block `j` of the ciphertext is the encryption of block `j` of the padded message. -/
theorem encrypted_block {j : Nat} (h : j < s.paddedLen / 16) :
    bufOfList 16 ((s.encrypted.drop (16 * j)).take 16) =
      encryptBlock s.expanded (s.nk + 6) (bufOfList 16 (((applyPadding s.message).drop (16 * j)).take 16)) :=
  bufOfList_mapBlocks_block _ _ (by rwa [length_paddedMessage])

/-- The decryption is determined by its blocks. -/
theorem eq_decrypted_of_blocks {p : List Byte} (hmod : s.msgLen % 16 = 0) (hlen : p.length = s.msgLen)
    (h : ∀ j, j < s.msgLen / 16 → bufOfList 16 ((p.drop (16 * j)).take 16) =
      decryptBlock s.expanded (s.nk + 6) (bufOfList 16 (s.dmem.readBytes (16 * j) 16))) : p = s.decrypted := by
  rw [State.decrypted, length_message]
  refine eq_mapBlocks_of_blocks (by omega) fun j hj => ?_
  rw [h j hj, State.message, Memory.take_drop_readBytes _ (by omega)]

/-! ### The steps of the message commands -/

/-- The state with a byte string in the data buffer from `a` on and another message length: what PAD, ENCM and DECM write
(43 R191, R195, R197). -/
def State.withBytes (s : State) (a : Nat) (bs : List Byte) (len : Nat) : State :=
  { s with dmem := s.dmem.writeBytes a bs }.withLen len

@[simp] theorem State.withBytes_dmem (s : State) (a : Nat) (bs : List Byte) (len : Nat) :
    (s.withBytes a bs len).dmem = s.dmem.writeBytes a bs := rfl
@[simp] theorem State.withBytes_dlen (s : State) (a : Nat) (bs : List Byte) (len : Nat) :
    (s.withBytes a bs len).dlen = BitVec.ofNat 32 len := rfl

theorem msgFits_of_le (h : s.msgLen ≤ s.cfg.dmemBytes) : s.msgFits = true := decide_eq_true h

theorem msgFits_of_lt (h : s.cfg.dmemBytes < s.msgLen) : s.msgFits = false := decide_eq_false (Nat.not_le.2 h)

theorem msgLen_lt_paddedLen : s.msgLen < s.paddedLen := by
  rw [paddedLen_eq]
  exact Nat.lt_add_of_pos_right (padCount_pos _)

/-- The padded message fits exactly when the message does not fill the buffer, a multiple of 16 (00 R7). -/
theorem paddedLen_le_iff (hv : s.cfg.Valid) : s.paddedLen ≤ s.cfg.dmemBytes ↔ s.msgLen < s.cfg.dmemBytes := by
  obtain ⟨-, -, -, hmod, -⟩ := hv
  rw [State.paddedLen]
  omega

theorem exec_pad_of_le (h : s.paddedLen ≤ s.cfg.dmemBytes) :
    exec .pad s = complete (s.withBytes s.msgLen (padBytes s.msgLen) s.paddedLen) := by
  rw [paddedLen_eq] at h
  rw [exec, execPad, msgFits_of_le (by omega), if_neg (Nat.not_lt.2 h), paddedLen_eq]
  rfl

theorem exec_pad_of_lt (h : s.cfg.dmemBytes < s.paddedLen) : exec .pad s = raise .capacityExceeded s := by
  rw [exec, execPad, ← paddedLen_eq, if_pos h, ite_self]

theorem exec_unpad_of_lt (h : s.cfg.dmemBytes < s.msgLen) : exec .unpad s = raise .capacityExceeded s := by
  rw [exec, execUnpad, msgFits_of_lt h]
  rfl

theorem exec_unpad_of_ok {m : List Byte} (hfit : s.msgLen ≤ s.cfg.dmemBytes) (h : removePadding s.message = .ok m) :
    exec .unpad s = complete (s.withLen m.length) := by
  rw [exec, execUnpad, msgFits_of_le hfit, h]
  rfl

theorem exec_unpad_of_error {e : ErrCode} (hfit : s.msgLen ≤ s.cfg.dmemBytes) (h : removePadding s.message = .error e) :
    exec .unpad s = raise e s := by
  rw [exec, execUnpad, msgFits_of_le hfit, h]
  rfl

theorem exec_encm_of_lt (h : s.cfg.dmemBytes < s.paddedLen) : exec .encm s = raise .capacityExceeded s := by
  rw [exec, execEncm, ← paddedLen_eq, if_pos h, ite_self]

theorem exec_encm_of_keySizeOk (h : s.paddedLen ≤ s.cfg.dmemBytes) (hk : KeySizeOk s) :
    exec .encm s = complete (s.withBytes 0 s.encrypted s.encrypted.length) := by
  rw [paddedLen_eq] at h
  rw [exec, execEncm, msgFits_of_le (by omega), if_neg (Nat.not_lt.2 h), encryptMessage_of_keySizeOk hk]
  rfl

theorem exec_encm_of_not_keySizeOk (h : s.paddedLen ≤ s.cfg.dmemBytes) (hk : ¬ KeySizeOk s) :
    exec .encm s = raise .invalidKeySize s := by
  rw [paddedLen_eq] at h
  rw [exec, execEncm, msgFits_of_le (by omega), if_neg (Nat.not_lt.2 h), encryptMessage_of_not_keySizeOk hk]
  rfl

theorem exec_decm_of_lt (h : s.cfg.dmemBytes < s.msgLen) : exec .decm s = raise .capacityExceeded s := by
  rw [exec, execDecm, msgFits_of_lt h]
  rfl

theorem exec_decm_of_error {e : ErrCode} (hfit : s.msgLen ≤ s.cfg.dmemBytes)
    (h : decryptMessage s.message s.keyBytes s.kbits.toNat s.keylen.toNat = .error e) : exec .decm s = raise e s := by
  rw [exec, execDecm, msgFits_of_le hfit, h]
  rfl

theorem exec_decm_of_ok {p m : List Byte} (hfit : s.msgLen ≤ s.cfg.dmemBytes)
    (h : decryptMessage s.message s.keyBytes s.kbits.toNat s.keylen.toNat = .ok (p, m)) :
    exec .decm s = complete (s.withBytes 0 p m.length) := by
  rw [exec, execDecm, msgFits_of_le hfit, h]
  rfl

end

/-- A length within the capacity fits in `DLEN` (00 R7, 10 R26). -/
theorem toNat_ofNat_of_le_dmemBytes {c : Config} {n : Nat} (hv : c.Valid) (h : n ≤ c.dmemBytes) :
    (BitVec.ofNat 32 n).toNat = n := by
  obtain ⟨-, -, -, -, -, -, hcap⟩ := hv
  rw [BitVec.toNat_ofNat, Nat.mod_eq_of_lt (by omega)]

/-! ### PAD and UNPAD -/

/-- Settles O38: the bytes written are those of the pad, at the end of the message. -/
theorem padAppendsThePad : Obligations.PadAppendsThePad := by
  refine ⟨fun s hv ⟨hwf, _⟩ hlt => ?_, fun s hv hle => ?_⟩
  · have hfit := (paddedLen_le_iff hv).2 hlt
    refine .of_completed (exec_pad_of_le hfit) (paddedLen_eq ▸ .pad (paddedLen_eq ▸ hfit))
      ⟨(toNat_ofNat_of_le_dmemBytes hv hfit).trans paddedLen_eq, fun a hge ha => ?_, fun a ha => ?_⟩
    · obtain ⟨i, rfl⟩ := Nat.exists_eq_add_of_le hge
      have hi : i < padCount s.msgLen := Nat.lt_of_add_lt_add_left ha
      rw [State.endWith_dmem, State.withBytes_dmem, Memory.read_writeBytes_padBytes hwf _ hi,
        toNat_padByte (padCount_le _), padCount]
    · exact Memory.read_writeBytes_outside _ _ _ _ (by rwa [length_padBytes])
  · exact .of_raise (exec_pad_of_lt (hle.trans_lt msgLen_lt_paddedLen))

/-- Settles O39: a pad is valid exactly when `RemovePadding` of the message succeeds. -/
theorem unpadStripsAValidPad : Obligations.UnpadStripsAValidPad := by
  refine ⟨fun s n hfit hn => ?_, fun s hlt => .of_raise (exec_unpad_of_lt hlt), fun s hfit hno => ?_⟩
  · obtain ⟨hpos, hle, m, hm⟩ := validPad_iff.1 hn
    have hok := (removePadding_eq_ok_iff ..).2 ⟨n, hpos, hle, hm⟩
    have hlen : s.msgLen = m.length + n := by rw [← length_message, hm, List.length_append, length_padOf]
    refine .of_completed (exec_unpad_of_ok hfit hok) (.unpad hok) ?_
    have : s.msgLen < 2 ^ 32 := s.dlen.isLt
    rw [State.endWith_dlen, State.withLen_dlen, BitVec.toNat_ofNat, Nat.mod_eq_of_lt (by omega), hlen,
      Nat.add_sub_cancel]
  · refine .of_raise (exec_unpad_of_error hfit (removePadding_of_ne_ok fun m hm => ?_))
    obtain ⟨n, hpos, hle, hmsg⟩ := (removePadding_eq_ok_iff ..).1 hm
    exact hno n (validPad_iff.2 ⟨hpos, hle, m, hmsg⟩)

/-! ### ENCM and DECM -/

/-- Settles O41: block `j` of what is written is block `j` of the block-wise transform. -/
theorem encmEncryptsEachPaddedBlock : Obligations.EncmEncryptsEachPaddedBlock := by
  refine ⟨fun s hv ⟨hwf, _⟩ hlt hk => ?_, fun s hv hle => ?_, fun s hv hlt hk => ?_⟩
  · have hfit := (paddedLen_le_iff hv).2 hlt
    have hlen := length_encrypted (s := s)
    refine .of_completed (exec_encm_of_keySizeOk hfit hk)
      (.encm (paddedLen_eq ▸ hfit) (encryptMessage_of_keySizeOk hk)) ⟨?_, fun j hj => ?_, fun a ha => ?_⟩
    · rw [State.endWith_dlen, State.withBytes_dlen, hlen, toNat_ofNat_of_le_dmemBytes hv hfit]
    · rw [State.endWith_dmem, State.withBytes_dmem, Memory.readBytes_writeBytes_part hwf (by omega)]
      exact encrypted_block hj
    · exact Memory.read_writeBytes_outside _ _ _ _ (.inr (by omega))
  · exact .of_raise (exec_encm_of_lt (hle.trans_lt msgLen_lt_paddedLen))
  · exact .of_raise (exec_encm_of_not_keySizeOk ((paddedLen_le_iff hv).2 hlt) hk)

/-- Settles O42: the string `p` is the block-wise decryption of the message, whose pad DECM checks. -/
theorem decmDecryptsEachBlockAndUnpads : Obligations.DecmDecryptsEachBlockAndUnpads := by
  refine ⟨fun s hlt => .of_raise (exec_decm_of_lt hlt),
    fun s hfit hmod => .of_raise (exec_decm_of_error hfit (decryptMessage_of_length hmod)),
    fun s hfit hmod hk => .of_raise (exec_decm_of_error hfit (decryptMessage_of_not_keySizeOk hmod hk)),
    fun s p hv ⟨hwf, _⟩ hfit hmod hk hlen hblocks => ?_⟩
  have hdec := decryptMessage_of_keySizeOk hmod hk
  rw [← eq_decrypted_of_blocks hmod hlen hblocks] at hdec
  refine ⟨fun hno => ?_, fun m hm => ?_⟩
  · rw [removePadding_of_ne_ok hno] at hdec
    exact .of_raise (exec_decm_of_error hfit hdec)
  · rw [hm] at hdec
    obtain ⟨n, -, -, hp⟩ := (removePadding_eq_ok_iff ..).1 hm
    have hle : m.length ≤ s.msgLen := by rw [← hlen, hp, List.length_append]; omega
    refine .of_completed (exec_decm_of_ok hfit hdec) (.decm hfit hdec)
      ⟨toNat_ofNat_of_le_dmemBytes hv (hle.trans hfit), ?_, fun a ha => ?_⟩
    · rw [← hlen]
      exact Memory.readBytes_writeBytes s.dmem 0 p hwf
    · exact Memory.read_writeBytes_outside _ _ _ _ (.inr (by omega))

/-- The state ENCM ends in (43 R195). -/
def State.afterEncm (s : State) : State := (s.withBytes 0 s.encrypted s.encrypted.length).endWith .noError

section
variable {s : State} (hv : s.cfg.Valid) (hwf : s.dmem.wf) (hfit : s.paddedLen ≤ s.cfg.dmemBytes)
include hv hwf hfit

theorem message_afterEncm : s.afterEncm.message = s.encrypted := by
  obtain ⟨-, -, -, -, -, -, hcap⟩ := hv
  exact message_of_writeBytes hwf (by rw [length_encrypted]; omega) rfl rfl

theorem msgLen_afterEncm : s.afterEncm.msgLen = s.paddedLen := by
  rw [← length_message, message_afterEncm hv hwf hfit, length_encrypted]

/-- Decrypting under the key that encrypted gives the padded message (43 R199). -/
theorem decrypted_afterEncm : s.afterEncm.decrypted = applyPadding s.message := by
  have hlen : (applyPadding s.message).length = 16 * ((applyPadding s.message).length / 16) :=
    (Nat.mul_div_cancel' (Nat.dvd_of_mod_eq_zero (length_applyPadding_mod _))).symm
  rw [State.decrypted, message_afterEncm hv hwf hfit, length_encrypted, ← length_paddedMessage]
  exact mapBlocks_mapBlocks (decryptBlock_encryptBlock s.expanded (s.nk + 6)) hlen

end

/-- Settles O43: ENCM leaves a message whose decryption is the padded message, of which the pad comes off again. -/
theorem decmUndoesEncm : Obligations.DecmUndoesEncm := by
  intro s hv ⟨hwf, _⟩ hfit _ hk
  have hmsg := msgLen_afterEncm hv hwf hfit
  have hdec : decryptMessage s.afterEncm.message s.afterEncm.keyBytes s.afterEncm.kbits.toNat s.afterEncm.keylen.toNat =
      .ok (applyPadding s.message, s.message) := by
    rw [decryptMessage_of_keySizeOk (s := s.afterEncm) (hmsg ▸ paddedLen_mod) hk, decrypted_afterEncm hv hwf hfit,
      removePadding_applyPadding]
    rfl
  refine ⟨s.afterEncm, _, exec_encm_of_keySizeOk hfit hk, ended_endWith .., exec_decm_of_ok (hmsg.trans_le hfit) hdec,
    ended_endWith .., ?_, ?_⟩
  · rw [State.endWith_dlen, State.withBytes_dlen, length_message, State.msgLen, BitVec.ofNat_toNat, BitVec.setWidth_eq]
  · have hlen : 0 + s.msgLen ≤ (applyPadding s.message).length := by rw [length_paddedMessage, paddedLen_eq]; omega
    have hwf' : s.afterEncm.dmem.wf := Memory.wf_writeBytes _ _ _ hwf
    exact (Memory.readBytes_writeBytes_part hwf' hlen).trans (List.take_left' (length_message s))

end Sys2Proof.Machine

/-! PROOFS of the statements on the random source and number theory: draws, `ExtEuclid`, MINV, the primality test with PTST, the
prime search with PGEN, and KGEN. A draw is split where one part of it ends (`Rng.draw_add_of_some`); the test is a sequence of
rounds on modular powers (`probablyPrime_odd`, `millerRabinRound_iff`); one lemma says what a search step leaves
(`searchOutcome_of_searchStep`). -/

namespace Sys2Proof.Machine

/-! ### Draws (44 R220) -/

section
variable {g g' : Rng}

theorem Rng.draw_succ_of_none {k : Nat} (h : g.next = (none, g')) : g.draw (k + 1) = (none, g') := by
  rw [Rng.draw, h]

theorem Rng.draw_succ_of_some {k : Nat} {b : Byte} (h : g.next = (some b, g')) :
    g.draw (k + 1) = ((g'.draw k).1.map (b :: ·), (g'.draw k).2) := by
  rw [Rng.draw, h]
  rcases hd : g'.draw k with ⟨_ | bs, g''⟩ <;> simp [hd]

theorem Rng.draw_add_of_none {k : Nat} (m : Nat) (h : g.draw k = (none, g')) : g.draw (k + m) = (none, g') := by
  induction k generalizing g with
  | zero => cases h
  | succ k ih =>
    rw [Nat.succ_add]
    rcases Rng.draw_succ_cases k g g' _ h with ⟨-, hn⟩ | ⟨b, g1, hn, -, hd⟩ | ⟨b, g1, bs, -, hr, -⟩
    · exact Rng.draw_succ_of_none hn
    · rw [Rng.draw_succ_of_some hn, ih hd]
      rfl
    · cases hr

/-- After an answered draw the source goes on where that draw ended. -/
theorem Rng.draw_add_of_some {k : Nat} (m : Nat) {bs : List Byte} (h : g.draw k = (some bs, g')) :
    g.draw (k + m) = ((g'.draw m).1.map (bs ++ ·), (g'.draw m).2) := by
  induction k generalizing g bs with
  | zero =>
    cases h
    rcases hm : g'.draw m with ⟨_ | cs, g''⟩ <;> simp [hm]
  | succ k ih =>
    rw [Nat.succ_add]
    rcases Rng.draw_succ_cases k g g' _ h with ⟨hr, -⟩ | ⟨b, g1, -, hr, -⟩ | ⟨b, g1, cs, hn, hr, hd⟩
    · cases hr
    · cases hr
    · cases hr
      rw [Rng.draw_succ_of_some hn, ih hd, Option.map_map]
      rfl

end

theorem Rng.draw_scripted (bs : List Byte) (rest : List (Option Byte)) (u : Nat) :
    Rng.draw bs.length { script := bs.map some ++ rest, used := u } = (some bs, { script := rest, used := u }) := by
  induction bs with
  | nil => rfl
  | cons b bs ih =>
    rw [List.map_cons, List.cons_append, List.length_cons, Rng.draw_succ_of_some (Rng.next_cons ..), ih]
    rfl

/-- The source with no script left and `u` free answers taken (log 2). -/
def Rng.free (u : Nat) : Rng := { script := [], used := u }

theorem Rng.next_free (u : Nat) : (Rng.free u).next = (Config.freeRandom u, Rng.free (u + 1)) := rfl

theorem Rng.draw_free_of_answers (u k : Nat) (h : ∀ i < k, (Config.freeRandom (u + i)).isNone = false) :
    (Rng.free u).draw k = (some ((List.range k).filterMap fun i => Config.freeRandom (u + i)), Rng.free (u + k)) := by
  induction k with
  | zero => rfl
  | succ k ih =>
    obtain ⟨b, hb⟩ := Option.isSome_iff_exists.1 (Option.isNone_eq_false_iff.1 (h k (Nat.lt_succ_self k)))
    have hnext : (Rng.free (u + k)).next = (some b, Rng.free (u + k + 1)) := by rw [Rng.next_free, hb]
    rw [Rng.draw_add_of_some 1 (ih fun i hi => h i (by omega)), Rng.draw_succ_of_some hnext, List.range_succ]
    simp [Rng.draw_zero, hb, Nat.add_assoc]

theorem Rng.draw_free_of_failure (u : Nat) {k i : Nat} (hi : i < k) (hfail : Config.freeRandom (u + i) = none)
    (hbefore : ∀ j < i, (Config.freeRandom (u + j)).isNone = false) :
    (Rng.free u).draw k = (none, Rng.free (u + i + 1)) := by
  obtain ⟨m, rfl⟩ : ∃ m, k = i + (m + 1) := ⟨k - i - 1, by omega⟩
  have hnext : (Rng.free (u + i)).next = (none, Rng.free (u + i + 1)) := by rw [Rng.next_free, hfail]
  rw [Rng.draw_add_of_some _ (Rng.draw_free_of_answers u i hbefore), Rng.draw_succ_of_none hnext]
  rfl

/-- Settles O30: a draw is cut where the scripted bytes, the answers before a failure or the first `k` bytes end. -/
theorem drawsConsumeBytesInOrder : Obligations.DrawsConsumeBytesInOrder := by
  refine ⟨fun k g g' r h => Rng.length_of_draw h, Rng.draw_scripted, fun bs rest u k hk => ?_, fun u k => ?_,
    fun k m g => ?_⟩
  · obtain ⟨m, rfl⟩ : ∃ m, k = bs.length + (m + 1) := ⟨k - bs.length - 1, by omega⟩
    rw [Rng.draw_add_of_some _ (Rng.draw_scripted bs (none :: rest) u), Rng.draw_succ_of_none (Rng.next_cons ..)]
    rfl
  · split
    · rename_i i hi
      obtain ⟨hfail, hmem, hbefore⟩ := List.find?_range_eq_some.1 hi
      exact Rng.draw_free_of_failure u (List.mem_range.1 hmem) (Option.isNone_iff_eq_none.1 hfail)
        fun j hj => by simpa using hbefore j hj
    · rename_i hnone
      exact Rng.draw_free_of_answers u k fun i hi => by simpa using List.find?_range_eq_none.1 hnone i hi
  · rcases hk : g.draw k with ⟨_ | bs, g'⟩
    · exact Rng.draw_add_of_none m hk
    · rw [Rng.draw_add_of_some m hk]
      rcases hm : g'.draw m with ⟨_ | cs, g''⟩ <;> simp [hm]

/-! ### `ExtEuclid` (44 R221) -/

/-- Two negative coefficients would make the gcd 0, so both operands 0, where the coefficients are 1 and 0. -/
theorem extEuclid_not_both_neg (a b : Nat) : ¬ ((extEuclid a b).2.1 < 0 ∧ (extEuclid a b).2.2 < 0) := by
  rintro ⟨hx, hy⟩
  have hbez := extEuclid_bezout a b
  have hax : (a : Int) * (extEuclid a b).2.1 ≤ 0 := Int.mul_nonpos_of_nonneg_of_nonpos (by omega) hx.le
  have hby : (b : Int) * (extEuclid a b).2.2 ≤ 0 := Int.mul_nonpos_of_nonneg_of_nonpos (by omega) hy.le
  have hgcd : Nat.gcd a b = 0 := by rw [← extEuclid_fst]; omega
  obtain ⟨-, rfl⟩ := Nat.gcd_eq_zero_iff.1 hgcd
  cases hy

/-- Settles O44, from the gcd, the Bezout equation, the bounds and the recurrence of `ExtEuclid`. -/
theorem extEuclidGivesBezout : Obligations.ExtEuclidGivesBezout := by
  intro a b g x y h
  have hgcd := extEuclid_fst a b
  have hbez := extEuclid_bezout a b
  have hsign := extEuclid_not_both_neg a b
  obtain ⟨hx, hy⟩ := extEuclid_natAbs_le a b
  rw [h] at hgcd hbez hsign hx hy
  refine ⟨hgcd, hbez, hx, hy, hsign, ?_, fun g' x' y' hb h' => ?_⟩
  · rintro rfl
    cases h
    exact ⟨rfl, rfl⟩
  · rw [extEuclid_of_pos a b hb, h'] at h
    cases h
    exact ⟨rfl, rfl⟩

/-! ### MINV (44 R223, R224) -/

/-- The inverse a coprime operand has in `[0, n)`. -/
theorem modInverse_of_coprime {a n : Nat} (h : Nat.Coprime a n) (hn : n ≠ 0) :
    ∃ v, modInverse a n = .ok v ∧ (a * v) % n = 1 % n := by
  have hg : (extEuclid a n).1 = 1 := (extEuclid_fst a n).trans h
  have hbez := extEuclid_bezout a n
  rw [hg] at hbez
  refine ⟨((extEuclid a n).2.1 % (n : Int)).toNat, if_pos hg, Int.ofNat_inj.1 ?_⟩
  have hv := Int.toNat_of_nonneg (Int.emod_nonneg (extEuclid a n).2.1 (show (n : Int) ≠ 0 by omega))
  calc ((a * ((extEuclid a n).2.1 % (n : Int)).toNat % n : Nat) : Int)
      = a * ((extEuclid a n).2.1 % n) % n := by rw [Int.natCast_mod, Int.natCast_mul, hv]
    _ = a * (extEuclid a n).2.1 % n := by rw [Int.mul_emod, Int.emod_emod, ← Int.mul_emod]
    _ = ((1 : Nat) - n * (extEuclid a n).2.2) % n := by rw [← hbez, add_sub_cancel_right]
    _ = ((1 % n : Nat) : Int) := by rw [Int.sub_mul_emod_self_left, Int.natCast_mod]

theorem modInverse_of_not_coprime {a n : Nat} (h : ¬ Nat.Coprime a n) : modInverse a n = .error .noInverseExists :=
  if_neg fun hg => h ((extEuclid_fst a n).symm.trans hg)

section
variable {s : State}

theorem exec_minv_of_zero (h : s.bm = 0) : exec .minv s = raise .invalidOperand s := if_pos h

theorem exec_minv_of_error {e : ErrCode} (h : s.bm ≠ 0) (he : modInverse s.ba s.bm = .error e) :
    exec .minv s = raise e s := by
  rw [exec, execMinv, if_neg h, he]

theorem exec_minv_of_ok {v : Nat} (h : s.bm ≠ 0) (hv : modInverse s.ba s.bm = .ok v) :
    exec .minv s = complete { s with br := v } := by
  rw [exec, execMinv, if_neg h, hv]

end

/-- Settles O46, from the inverse of a coprime operand. -/
theorem minvInvertsCoprimes : Obligations.MinvInvertsCoprimes := by
  refine ⟨fun s hm hc => ?_, fun s hm => .of_raise (exec_minv_of_zero hm),
    fun s hm hc => .of_raise (exec_minv_of_error hm (modInverse_of_not_coprime hc))⟩
  obtain ⟨v, hv, hmul⟩ := modInverse_of_coprime hc hm
  exact .of_completed (exec_minv_of_ok hm hv) (.minv hm hv) ⟨modInverse_lt hv hm, hmul⟩

/-! ### Candidates (44 R228) -/

theorem two_pow_le_candidateOf (bits : Nat) (bytes : List Byte) : 2 ^ (bits - 1) ≤ candidateOf bits bytes :=
  Nat.right_le_or

/-- Below its top bit a candidate is the drawn number. -/
theorem candidateOf_mod (bits : Nat) (bytes : List Byte) :
    candidateOf bits bytes % 2 ^ (bits - 1) = beInt bytes % 2 ^ (bits - 1) := by
  rw [candidateOf, Nat.or_mod_two_pow, Nat.mod_self, Nat.or_zero,
    Nat.mod_mod_of_dvd _ (Nat.pow_dvd_pow 2 (Nat.sub_le bits 1))]

theorem drawCandidate_of_none {bits : Nat} {g g' : Rng} (h : g.draw (bytesFor bits) = (none, g')) :
    drawCandidate bits g = (none, g') := by
  rw [drawCandidate, h]

theorem draw_of_drawCandidate {bits v : Nat} {g g' : Rng} (h : drawCandidate bits g = (some v, g')) :
    ∃ bytes, g.draw (bytesFor bits) = (some bytes, g') ∧ v = candidateOf bits bytes := by
  unfold drawCandidate at h
  split at h
  · cases h
  · rename_i bytes g1 hd
    cases h
    exact ⟨bytes, hd, rfl⟩

theorem bitLen_of_drawCandidate {bits v : Nat} {g g' : Rng} (hb : bits ≠ 0) (h : drawCandidate bits g = (some v, g')) :
    bitLen v = bits := by
  obtain ⟨bytes, -, rfl⟩ := draw_of_drawCandidate h
  exact bitLen_eq _ _ (Nat.one_le_iff_ne_zero.2 hb) (two_pow_le_candidateOf ..) (candidateOf_lt _ _ hb)

/-- Settles O49: a candidate is its forced top bit over the low bits drawn. -/
theorem candidatesHaveExactlyTheBits : Obligations.CandidatesHaveExactlyTheBits := by
  refine ⟨fun bits g g' v hb h => ?_, fun bits g g' h => drawCandidate_of_none h⟩
  have hb := Nat.one_le_iff_ne_zero.1 hb
  have hlen := bitLen_of_drawCandidate hb h
  obtain ⟨bytes, hd, rfl⟩ := draw_of_drawCandidate h
  exact ⟨two_pow_le_candidateOf .., candidateOf_lt _ _ hb, hlen, bytes, hd, candidateOf_mod ..⟩

/-! ### `ModExp` (45 R260) -/

/-- The loop goes on from the power that the exponent bits from `i` up give. -/
theorem modExpLoop_eq (b e m i : Nat) : modExpLoop b e m i (b ^ (e / 2 ^ i) % m) = b ^ e % m := by
  induction i with
  | zero => rw [modExpLoop, pow_zero, Nat.div_one]
  | succ i ih =>
    have hhalf : e / 2 ^ i / 2 = e / 2 ^ (i + 1) := by rw [Nat.div_div_eq_div_mul, pow_succ]
    have hsquare : b ^ (e / 2 ^ (i + 1)) % m * (b ^ (e / 2 ^ (i + 1)) % m) % m = b ^ (2 * (e / 2 ^ (i + 1))) % m := by
      rw [← Nat.mul_mod, ← pow_add, two_mul]
    rw [modExpLoop, ← ih, hsquare, Nat.testBit_eq_decide_div_mod_eq]
    congr 1
    by_cases hbit : e / 2 ^ i % 2 = 1
    · have he : e / 2 ^ i = 2 * (e / 2 ^ (i + 1)) + 1 := by omega
      rw [if_pos (by simpa using hbit), he, pow_succ b, Nat.mod_mul_mod]
    · have he : e / 2 ^ i = 2 * (e / 2 ^ (i + 1)) := by omega
      rw [if_neg (by simpa using hbit), he]

theorem modExp_eq (b e m : Nat) : modExp b e m = b ^ e % m := by
  have h := modExpLoop_eq b e m (bitLen e)
  rwa [Nat.div_eq_of_lt (lt_two_pow_bitLen e), pow_zero] at h

/-! ### The primality test (44 R225, R226) -/

/-- What a Miller-Rabin round accepts: `a^d` is 1 or `n - 1`, or one of the `s - 1` squares after it is `n - 1` (44 R225). -/
def PassesRound (n s d a : Nat) : Prop :=
  a ^ d % n = 1 ∨ a ^ d % n = n - 1 ∨ ∃ i, 1 ≤ i ∧ i ≤ s - 1 ∧ a ^ (2 ^ i * d) % n = n - 1

theorem millerRabinRound_iff (n s d a : Nat) : millerRabinRound n s d a = true ↔ PassesRound n s d a := by
  have hsq (i : Nat) : (a ^ d) ^ 2 ^ i = a ^ (2 ^ i * d) := by rw [← pow_mul, Nat.mul_comm]
  simp only [millerRabinRound, PassesRound, modExp_eq, Bool.or_eq_true, beq_iff_eq, squaringsHit_iff, hsq, or_assoc]

/-- Below 5 and on even numbers the verdict is fixed, with no draw. -/
theorem probablyPrime_small {n : Nat} (rounds : Nat) (g : Rng) (h : n < 5 ∨ n % 2 = 0) :
    probablyPrime n rounds g = (some (decide (n = 2 ∨ n = 3)), g) := by
  unfold probablyPrime
  split
  · rw [decide_eq_false (by omega)]
  split
  · rename_i h23
    rw [decide_eq_true h23]
  · rename_i h23
    rw [if_pos (by omega), decide_eq_false h23]

section
variable {n s d : Nat} (hn : 5 ≤ n) (hodd : n % 2 = 1) (hsd : n - 1 = 2 ^ s * d) (hd : d % 2 = 1)
include hn hodd hsd hd

/-- From 5 up an odd number is put to the rounds. -/
theorem probablyPrime_odd (rounds : Nat) (g : Rng) :
    probablyPrime n rounds g = millerRabin n s d (bytesFor (bitLen n)) rounds g := by
  have htwo : twoPart (bitLen n) (n - 1) = (s, d) :=
    twoPart_eq _ _ _ _ hsd hd ((Nat.sub_le n 1).trans_lt (lt_two_pow_bitLen n))
  rw [probablyPrime, if_neg (by omega), if_neg (by omega), if_neg (by omega), htwo]

theorem probablyPrime_no_rounds (g : Rng) : probablyPrime n 0 g = (some true, g) := by
  rw [probablyPrime_odd hn hodd hsd hd, millerRabin]

variable (r : Nat) {g g' : Rng}

theorem probablyPrime_succ_of_draw_none (hg : g.draw (bytesFor (bitLen n)) = (none, g')) :
    probablyPrime n (r + 1) g = (none, g') := by
  rw [probablyPrime_odd hn hodd hsd hd, millerRabin, hg]

variable {bytes : List Byte} (hg : g.draw (bytesFor (bitLen n)) = (some bytes, g'))
include hg

theorem probablyPrime_succ_of_passes (h : PassesRound n s d (drawnBase n bytes)) :
    probablyPrime n (r + 1) g = probablyPrime n r g' := by
  simp only [probablyPrime_odd hn hodd hsd hd, millerRabin, hg, if_pos ((millerRabinRound_iff ..).2 h)]

theorem probablyPrime_succ_of_not_passes (h : ¬ PassesRound n s d (drawnBase n bytes)) :
    probablyPrime n (r + 1) g = (some false, g') := by
  simp only [probablyPrime_odd hn hodd hsd hd, millerRabin, hg, if_neg (mt (millerRabinRound_iff ..).1 h)]

end

/-- In a domain repeated squaring reaches 1 only through -1, or starts there. -/
theorem eq_one_or_exists_sq_eq_neg_one {R : Type} [Ring R] [NoZeroDivisors R] (x : R) (s : Nat) (h : x ^ 2 ^ s = 1) :
    x = 1 ∨ ∃ i < s, x ^ 2 ^ i = -1 := by
  induction s with
  | zero => exact .inl (by simpa using h)
  | succ s ih =>
    rw [pow_succ, pow_mul] at h
    rcases sq_eq_one_iff.1 h with h1 | h1
    · exact (ih h1).imp_right fun ⟨i, hi, hx⟩ => ⟨i, hi.trans (Nat.lt_succ_self s), hx⟩
    · exact .inr ⟨s, Nat.lt_succ_self s, h1⟩

theorem natCast_eq_neg_one_iff {n a : Nat} (hn : 1 ≤ n) : (a : ZMod n) = -1 ↔ a % n = n - 1 := by
  have hneg : (-1 : ZMod n) = (n - 1 : Nat) := by rw [Nat.cast_sub hn, ZMod.natCast_self, Nat.cast_one, zero_sub]
  rw [hneg, ZMod.natCast_eq_natCast_iff', Nat.mod_eq_of_lt (Nat.sub_lt hn Nat.one_pos)]

/-- Every base of a round passes where `n` is prime (44 R226, P1): Fermat, and 1 has no other square root than 1 and -1. -/
theorem passesRound_of_prime {n s d a : Nat} (hp : Nat.Prime n) (hsd : n - 1 = 2 ^ s * d) (ha0 : 0 < a) (ha : a < n) :
    PassesRound n s d a := by
  have := Fact.mk hp
  have hne : (a : ZMod n) ≠ 0 := by
    rw [Ne, ZMod.natCast_eq_zero_iff]
    exact Nat.not_dvd_of_pos_of_lt ha0 ha
  have hfermat := ZMod.pow_card_sub_one_eq_one hne
  rw [hsd, Nat.mul_comm, pow_mul] at hfermat
  rcases eq_one_or_exists_sq_eq_neg_one _ s hfermat with h1 | ⟨i, hi, h1⟩
  · refine .inl ?_
    have h1 : ((a ^ d : Nat) : ZMod n) = (1 : Nat) := by exact_mod_cast h1
    have := (ZMod.natCast_eq_natCast_iff' _ _ _).1 h1
    rwa [Nat.mod_eq_of_lt hp.one_lt] at this
  · rw [← pow_mul] at h1
    have h1 : a ^ (d * 2 ^ i) % n = n - 1 := (natCast_eq_neg_one_iff hp.one_le).1 (by exact_mod_cast h1)
    rcases Nat.eq_zero_or_pos i with rfl | hpos
    · exact .inr (.inl (by simpa using h1))
    · exact .inr (.inr ⟨i, hpos, by omega, by rwa [Nat.mul_comm]⟩)

theorem drawnBase_lt {n : Nat} (hn : 5 ≤ n) (bytes : List Byte) : drawnBase n bytes < n := by
  have := Nat.mod_lt (beInt bytes) (show 0 < n - 3 by omega)
  rw [drawnBase]
  omega

/-- A prime is never answered false (44 R226, P1). -/
theorem probablyPrime_ne_false {n : Nat} (hp : Nat.Prime n) (rounds : Nat) (g : Rng) :
    (probablyPrime n rounds g).1 ≠ some false := by
  by_cases hsmall : n < 5 ∨ n % 2 = 0
  · have h23 : n = 2 ∨ n = 3 := by
      have := hp.two_le
      have := hp.eq_two_or_odd
      omega
    simp [probablyPrime_small rounds g hsmall, h23]
  obtain ⟨s, d, hd, hsd⟩ := Nat.exists_eq_two_pow_mul_odd (n := n - 1) (by omega)
  have hn : 5 ≤ n := by omega
  have hodd : n % 2 = 1 := by omega
  have hd := Nat.odd_iff.1 hd
  induction rounds generalizing g with
  | zero => simp [probablyPrime_no_rounds hn hodd hsd hd]
  | succ r ih =>
    rcases hg : g.draw (bytesFor (bitLen n)) with ⟨_ | bytes, g'⟩
    · simp [probablyPrime_succ_of_draw_none hn hodd hsd hd r hg]
    · have hpass := passesRound_of_prime hp hsd (a := drawnBase n bytes) (by rw [drawnBase]; omega) (drawnBase_lt hn bytes)
      rw [probablyPrime_succ_of_passes hn hodd hsd hd r hg hpass]
      exact ih g'

/-- Settles O47: by Fermat every round passes on a prime; 221 passes the round of the drawn base 174. -/
theorem primalityTestNeverRejectsAPrime : Obligations.PrimalityTestNeverRejectsAPrime :=
  ⟨fun _ rounds g hp => probablyPrime_ne_false hp rounds g, fun _ rounds g h hp => probablyPrime_ne_false hp rounds g h,
    by norm_num, by decide, by decide +kernel⟩

/-! ### PTST (44 R227) -/

/-- A frame that lists the random source holds without it where the source has not moved. -/
theorem OnlyWrites.of_rng_eq {written written' : List Part} {s t : State} (h : OnlyWrites written s t)
    (hr : t.rng = s.rng) (hsub : ∀ p ∈ written, p = .rng ∨ p ∈ written') : OnlyWrites written' s t := by
  obtain ⟨hcfg, hev, hre, hp⟩ := h
  refine ⟨hcfg, hev, hre, fun p hn => ?_⟩
  by_cases hw : p ∈ written
  · obtain rfl := (hsub p hw).resolve_right hn
    exact hr
  · exact hp p hw

/-- A command that completes without a draw writes what its table row lists but the random source (30 R95). -/
theorem CompletesWith.of_completed_of_rng_eq {i : Instr} {s u : State} {written : List Part} {P : State → Prop}
    (hx : exec i s = complete u) (hc : Completed s i u) (hr : u.rng = s.rng)
    (hsub : ∀ p ∈ writesOf i, p = .rng ∨ p ∈ written) (hP : P (u.endWith .noError)) : CompletesWith i s written P :=
  completesWith_of_complete hx (hc.onlyWrites.of_rng_eq hr hsub) hP

section
variable {s : State} {g : Rng}

theorem exec_ptst_of_none (h : probablyPrime s.ba s.ntrounds.toNat s.rng = (none, g)) :
    exec .ptst s = raise .randomSourceFailed (s.afterDraws g) := by
  rw [exec, execPtst, h]

theorem exec_ptst_of_some {v : Bool} (h : probablyPrime s.ba s.ntrounds.toNat s.rng = (some v, g)) :
    exec .ptst s = complete { s.afterDraws g with status := s.status.setPrime v } := by
  rw [exec, execPtst, h]

/-- A verdict that needs no draw is written to `PRIME` alone. -/
theorem ptst_without_draw {v : Bool} (h : probablyPrime s.ba s.ntrounds.toNat s.rng = (some v, s.rng)) :
    CompletesWith .ptst s [.prime] fun t => t.status.prime = v :=
  .of_completed_of_rng_eq (exec_ptst_of_some h) (.ptst h) rfl (by decide) rfl

end

/-- Settles O48: PTST's clauses by the test's answer, the test's by its rounds. -/
theorem ptstWritesTheVerdict : Obligations.PtstWritesTheVerdict := by
  refine ⟨fun s v g h => .of_completed (exec_ptst_of_some h) (.ptst h) ⟨rfl, rfl⟩,
    fun s g h => ⟨_, exec_ptst_of_none h, ended_endWith .., rfl, onlyWrites_afterDraws_endWith ..⟩,
    fun s h => ptst_without_draw (probablyPrime_small _ _ h), fun s hn hodd hr => ?_,
    fun n rounds g h => probablyPrime_small rounds g h, fun n s d g hn hodd hsd hd => ?_⟩
  · obtain ⟨k, d, hd, hkd⟩ := Nat.exists_eq_two_pow_mul_odd (n := s.ba - 1) (by omega)
    refine ptst_without_draw ?_
    rw [hr]
    exact probablyPrime_no_rounds hn hodd hkd (Nat.odd_iff.1 hd) s.rng
  · refine ⟨probablyPrime_no_rounds hn hodd hsd hd g, fun r =>
      ⟨fun g' hg => probablyPrime_succ_of_draw_none hn hodd hsd hd r hg, ?_⟩⟩
    rintro bytes g' a hg rfl
    exact ⟨probablyPrime_succ_of_passes hn hodd hsd hd r hg, probablyPrime_succ_of_not_passes hn hodd hsd hd r hg⟩

/-! ### Prime search (44 R229, R230) -/

/-- The progress after the test of the candidate `v`: a draw of the test failed, or `v` was accepted or rejected. -/
def progressAfterTest (hit : Nat → Search) (s : State) (v : Nat) : Option Bool → Search
  | none => .drawFailed
  | some true => hit v
  | some false => s.srch

section
variable (hit : Nat → Search) {s : State} {g : Rng}

theorem searchStep_of_draw_none (hc : drawCandidate s.ntbits.toNat s.rng = (none, g)) :
    searchStep hit s = continueSearch s .drawFailed g := by
  rw [searchStep, searchOnce, hc]

theorem searchStep_of_test {v : Nat} {r : Option Bool} {g' : Rng} (hc : drawCandidate s.ntbits.toNat s.rng = (some v, g))
    (ht : probablyPrime v s.ntrounds.toNat g = (r, g')) :
    searchStep hit s = continueSearch s (progressAfterTest hit s v r) g' := by
  rcases r with _ | _ | _ <;> simp only [searchStep, searchOnce, hc, ht, progressAfterTest]

/-- A search step answers a next state with the outcome of the candidate drawn and of its test. -/
theorem searchOutcome_of_searchStep (hn : s.ntbits ≠ 0) : ∃ t, searchStep hit s = .next t ∧ SearchOutcome hit s t := by
  have hbits : s.ntbits.toNat ≠ 0 := fun h => hn (BitVec.eq_of_toNat_eq h)
  rcases hc : drawCandidate s.ntbits.toNat s.rng with ⟨_ | v, g⟩
  · refine ⟨_, searchStep_of_draw_none hit hc, rfl, onlyWrites_searching .., fun g' h => ?_, fun v g' h => ?_⟩
    · cases hc.symm.trans h
      exact ⟨rfl, rfl⟩
    · cases hc.symm.trans h
  rcases ht : probablyPrime v s.ntrounds.toNat g with ⟨r, g'⟩
  refine ⟨_, searchStep_of_test hit hc ht, rfl, onlyWrites_searching .., fun g1 h => ?_, fun v1 g1 h => ?_⟩
  · cases hc.symm.trans h
  cases hc.symm.trans h
  refine ⟨bitLen_of_drawCandidate hbits hc, ?_, ?_, ?_⟩
  all_goals
    intro g2 h2
    cases ht.symm.trans h2
    exact ⟨rfl, rfl⟩

end

/-! ### PGEN (44 R229) -/

section
variable {s : State}

theorem exec_pgen_of_zero (h : s.ntbits = 0) : exec .pgen s = raise .invalidOperand s := if_pos h

theorem exec_pgen_of_lt (hn : s.ntbits ≠ 0) (h : s.cfg.bnBits < s.ntbits.toNat) :
    exec .pgen s = raise .capacityExceeded s := by
  rw [exec, execPgen, if_neg hn, if_pos h]

section
variable (hn : s.ntbits ≠ 0) (hfit : s.ntbits.toNat ≤ s.cfg.bnBits)
include hn hfit

theorem exec_pgen_of_found {v : Nat} (h : s.srch = .found v) : exec .pgen s = complete { s with br := v } := by
  rw [exec, execPgen, if_neg hn, if_neg (Nat.not_lt.2 hfit), h]

theorem exec_pgen_of_drawFailed (h : s.srch = .drawFailed) : exec .pgen s = raise .primeGenerationFailed s := by
  rw [exec, execPgen, if_neg hn, if_neg (Nat.not_lt.2 hfit), h]

theorem exec_pgen_of_searchingP (h : s.srch = .searchingP) : exec .pgen s = searchStep .found s := by
  rw [exec, execPgen, if_neg hn, if_neg (Nat.not_lt.2 hfit), h]

end

end

/-- Settles O50, by PGEN's checks and the progress in `SRCH`. -/
theorem pgenSearchesAndCompletes : Obligations.PgenSearchesAndCompletes := by
  refine ⟨fun s h => .of_raise (exec_pgen_of_zero h), fun s hn h => .of_raise (exec_pgen_of_lt hn h),
    fun s v hn hfit h => ?_, fun s hn hfit h => .of_raise (exec_pgen_of_drawFailed hn hfit h), fun s hn hfit h => ?_⟩
  · exact .of_completed_of_rng_eq (exec_pgen_of_found hn hfit h) (.pgen hfit h) rfl (by decide) rfl
  · rw [exec_pgen_of_searchingP hn hfit h]
    exact searchOutcome_of_searchStep .found hn

/-! ### PGEN of one bit (93 U18) -/

/-- What every step keeps holds after a run. -/
theorem run_keeps {M : Host.Core} {P : M.State → Prop} (hstep : ∀ s t, P s → M.step s = .next t → P t)
    (n : Nat) {s t : M.State} (hs : P s) (hrun : M.run n s = .next t) : P t := by
  induction n generalizing s with
  | zero =>
    cases hrun
    exact hs
  | succ n ih =>
    rw [Host.Core.run] at hrun
    split at hrun
    · rename_i u hu
      exact ih (hstep s u hs hu) hrun
    · cases hrun
    · cases hrun

/-- A PGEN with `NTBITS = 1` runs, no host moves, and nothing was accepted. -/
structure SearchesOneBit (s : State) : Prop where
  events : s.events = []
  busy : s.status.busy = true
  oplatch : s.oplatch = 0x00000033
  ntbits : s.ntbits = 1
  capacity : 1 ≤ s.cfg.bnBits
  srch : s.srch = .searchingP ∨ s.srch = .drawFailed

/-- The states a PGEN with `NTBITS = 1` passes through: it searches, or has failed. -/
def OneBitLife (br : Nat) (s : State) : Prop :=
  s.br = br ∧ (SearchesOneBit s ∨ s.events = [] ∧ s.status.busy = false ∧ s.status.err = .primeGenerationFailed)

/-- One bit leaves room for no number from 2 up, so that no candidate is accepted. -/
theorem searchOnce_one_ne_accepted (rounds v : Nat) (g g' : Rng) : searchOnce 1 rounds g ≠ (.accepted v, g') := by
  intro h
  obtain ⟨hlo, hhi⟩ := primeRange_of_searchOnce Nat.one_ne_zero h
  omega

theorem decode_pgen : decode 0x00000033 = .ok .pgen := rfl

theorem oneBitLife_of_pgen {s t : State} (h : SearchesOneBit s) (ht : exec .pgen s = .next t) : OneBitLife s.br t := by
  obtain ⟨hev, hbusy, hop, hbits, hcap, hsrch⟩ := h
  have hn : s.ntbits ≠ 0 := by rw [hbits]; decide
  have hone : s.ntbits.toNat = 1 := by rw [hbits]; rfl
  have hfit : s.ntbits.toNat ≤ s.cfg.bnBits := hone ▸ hcap
  rcases hsrch with hp | hf
  · rw [exec_pgen_of_searchingP hn hfit hp] at ht
    rcases searchStep_cases .found s with ⟨g, -, hs⟩ | ⟨v, g, ho, -⟩ | ⟨g, -, hs⟩
    · cases hs.symm.trans ht
      exact ⟨rfl, .inl ⟨hev, hbusy, hop, hbits, hcap, .inl hp⟩⟩
    · rw [hone] at ho
      exact (searchOnce_one_ne_accepted _ _ _ _ ho).elim
    · cases hs.symm.trans ht
      exact ⟨rfl, .inl ⟨hev, hbusy, hop, hbits, hcap, .inr rfl⟩⟩
  · rw [exec_pgen_of_drawFailed hn hfit hf] at ht
    obtain rfl := raise_next ht
    exact ⟨rfl, .inr ⟨hev, rfl, rfl⟩⟩

theorem oneBitLife_of_step (br : Nat) (s t : State) (h : OneBitLife br s) (ht : step s = .next t) : OneBitLife br t := by
  obtain ⟨rfl, h | ⟨hev, hidle, herr⟩⟩ := h
  · have hturn : SearchesOneBit s.takeTurn := ⟨by simp [h.events], h.busy, h.oplatch, h.ntbits, h.capacity, h.srch⟩
    have hd : decode s.takeTurn.oplatch = .ok .pgen := hturn.oplatch ▸ decode_pgen
    rw [step_of_engineIsNext (.inl h.events), engineTurn_of_decode hturn.busy hd] at ht
    exact oneBitLife_of_pgen (s := s.takeTurn) hturn ht
  · rw [step_of_engineIsNext (.inl hev), engineTurn_of_idle (s := s.takeTurn) hidle] at ht
    cases ht
    exact ⟨rfl, .inr ⟨by simp [hev], hidle, herr⟩⟩

/-- Settles O51: the only candidate of one bit is 1, which no step accepts. -/
theorem pgenOfOneBitNeverCompletes : Obligations.PgenOfOneBitNeverCompletes := by
  intro n s t hv hev hbusy _ hop hbits hsrch hrun
  obtain ⟨-, h64, -⟩ := hv
  have hstart : OneBitLife s.br s := ⟨rfl, .inl ⟨hev, hbusy, hop, hbits, by omega, .inl hsrch⟩⟩
  obtain ⟨hbr, h | ⟨-, -, herr⟩⟩ := run_keeps (M := core) (oneBitLife_of_step s.br) n hstart hrun
  · exact ⟨hbr, .inl h.busy⟩
  · exact ⟨hbr, .inr herr⟩

/-! ### KGEN (45 R262, R263) -/

section
variable {s : State}

theorem exec_kgen_of_zero (h : s.ntbits = 0) : exec .kgen s = raise .invalidOperand s := if_pos h

theorem exec_kgen_of_lt (hn : s.ntbits ≠ 0) (h : s.cfg.bnBits < 2 * s.ntbits.toNat) :
    exec .kgen s = raise .capacityExceeded s := by
  rw [exec, execKgen, if_neg hn, if_pos h]

section
variable (hn : s.ntbits ≠ 0) (hfit : 2 * s.ntbits.toNat ≤ s.cfg.bnBits)
include hn hfit

theorem exec_kgen_of_drawFailed (h : s.srch = .drawFailed) : exec .kgen s = raise .primeGenerationFailed s := by
  rw [exec, execKgen, if_neg hn, if_neg (Nat.not_lt.2 hfit), h]

theorem exec_kgen_of_searchingP (h : s.srch = .searchingP) : exec .kgen s = searchStep .searchingQ s := by
  rw [exec, execKgen, if_neg hn, if_neg (Nat.not_lt.2 hfit), h]

theorem exec_kgen_of_searchingQ {p : Nat} (h : s.srch = .searchingQ p) : exec .kgen s = searchStep (.foundPair p) s := by
  rw [exec, execKgen, if_neg hn, if_neg (Nat.not_lt.2 hfit), h]

variable {p q : Nat} (h : s.srch = .foundPair p q)
include h

theorem exec_kgen_of_ok {d : Nat} (hd : modInverse pubExp ((p - 1) * (q - 1)) = .ok d) :
    exec .kgen s = complete { s with bm := p * q, bb := pubExp, br := d } := by
  simp only [exec, execKgen, if_neg hn, if_neg (Nat.not_lt.2 hfit), h, finishKeyGen, hd]

theorem exec_kgen_of_error {e : ErrCode} (he : modInverse pubExp ((p - 1) * (q - 1)) = .error e) :
    exec .kgen s = raise .keyGenerationFailed s := by
  simp only [exec, execKgen, if_neg hn, if_neg (Nat.not_lt.2 hfit), h, finishKeyGen, he]

end

end

/-- Settles O54, by KGEN's checks and the progress in `SRCH`; the exponent `d` is an inverse as MINV's. -/
theorem kgenSearchesAndWritesAKeyPair : Obligations.KgenSearchesAndWritesAKeyPair := by
  refine ⟨fun s h => .of_raise (exec_kgen_of_zero h), fun s hn h => .of_raise (exec_kgen_of_lt hn h),
    fun s hn hfit => ⟨fun h => .of_raise (exec_kgen_of_drawFailed hn hfit h), fun h => ?_, fun p h => ?_,
      fun p q h hp hq hc => ?_, fun p q h _ _ hc =>
        .of_raise (exec_kgen_of_error hn hfit h (modInverse_of_not_coprime hc))⟩⟩
  · rw [exec_kgen_of_searchingP hn hfit h]
    exact searchOutcome_of_searchStep .searchingQ hn
  · rw [exec_kgen_of_searchingQ hn hfit h]
    exact searchOutcome_of_searchStep (.foundPair p) hn
  · have hpos : (p - 1) * (q - 1) ≠ 0 := Nat.mul_ne_zero (by omega) (by omega)
    obtain ⟨d, hd, hmul⟩ := modInverse_of_coprime hc hpos
    exact .of_completed_of_rng_eq (exec_kgen_of_ok hn hfit h hd) (.kgen hfit h hd) rfl (by decide)
      ⟨rfl, rfl, modInverse_lt hd hpos, hmul⟩

end Sys2Proof.Machine

/-! PROOFS of the statements on modular exponentiation and RSA: MEXP, RENC, RDEC and the round trip. A command's step is computed
from `ModExp`, whose value is `modExp_eq`; what RENC and then RDEC leave is said once (`renc_then_rdec`), and the integer that
comes back is Fermat's theorem for each of the two primes (`pow_modEq_self_of_primes`). -/

namespace Sys2Proof.Machine

/-- Settles O52, from the loop's invariant; the modulus 0 would do as well. -/
theorem modExpIsThePower : Obligations.ModExpIsThePower := fun b e m _ => modExp_eq b e m

/-! ### The steps of MEXP, RENC and RDEC (45 R261, R265, R266) -/

/-- The state with a natural in `BR` and its shortest bytes as the message: what RDEC writes (45 R266). -/
def State.withPlain (s : State) (r : Nat) : State :=
  { s with br := r }.withBytes 0 (beBytes r) (beBytes r).length

section
variable {s : State}

theorem exec_mexp_of_zero (h : s.bm = 0) : exec .mexp s = raise .invalidOperand s := if_pos h

theorem exec_mexp_of_ne_zero (h : s.bm ≠ 0) : exec .mexp s = complete { s with br := modExp s.ba s.bb s.bm } := if_neg h

theorem exec_renc_of_lt_msgLen (h : s.cfg.dmemBytes < s.msgLen) : exec .renc s = raise .capacityExceeded s := by
  rw [exec, execRenc, msgFits_of_lt h]
  rfl

section
variable (hfit : s.msgLen ≤ s.cfg.dmemBytes)
include hfit

theorem exec_renc_of_bm_le (h : s.bm ≤ beInt s.message) : exec .renc s = raise .messageTooLarge s := by
  rw [exec, execRenc, msgFits_of_le hfit, if_pos h]
  rfl

theorem exec_renc_of_lt_bm (h : beInt s.message < s.bm) :
    exec .renc s = complete { s with br := modExp (beInt s.message) s.bb s.bm } := by
  rw [exec, execRenc, msgFits_of_le hfit, if_neg (Nat.not_le.2 h)]
  rfl

end

theorem exec_rdec_of_zero (h : s.bm = 0) : exec .rdec s = raise .invalidOperand s := if_pos h

theorem exec_rdec_of_ne_zero (h : s.bm ≠ 0) : exec .rdec s = complete (s.withPlain (modExp s.ba s.bb s.bm)) := if_neg h

end

/-- Settles O53. -/
theorem mexpWritesThePower : Obligations.MexpWritesThePower :=
  ⟨fun _ hm => .of_completed (exec_mexp_of_ne_zero hm) (.mexp hm) (modExp_eq ..),
    fun _ hm => .of_raise (exec_mexp_of_zero hm)⟩

/-- Settles O56. -/
theorem rencEncryptsTheMessageInteger : Obligations.RencEncryptsTheMessageInteger :=
  ⟨fun _ hfit hlt => .of_completed (exec_renc_of_lt_bm hfit hlt) (.renc hlt) (modExp_eq ..),
    fun _ hlt => .of_raise (exec_renc_of_lt_msgLen hlt), fun _ hfit hle => .of_raise (exec_renc_of_bm_le hfit hle)⟩

/-- Settles O57: the power is below `2^BN_BITS` as `BM` is, so that its bytes fit in the data buffer. -/
theorem rdecWritesTheShortestBytes : Obligations.RdecWritesTheShortestBytes := by
  refine ⟨fun s hv ⟨hwf, _⟩ hbig hm => ?_, fun s hm => .of_raise (exec_rdec_of_zero hm)⟩
  have hfit := length_beBytes_le_dmemBytes hv ((modExp_lt s.ba s.bb s.bm hm).trans (hbig .bm))
  have hlen := toNat_ofNat_of_le_dmemBytes hv hfit
  have hmsg := message_of_writeBytes (u := s.withPlain (modExp s.ba s.bb s.bm)) hwf (hlen ▸ BitVec.isLt _) rfl rfl
  exact .of_completed (exec_rdec_of_ne_zero hm) (.rdec hm) ⟨modExp_eq .., hlen.trans (length_beBytes _),
    (congrArg beInt hmsg).trans (beInt_beBytes _),
    fun a ha => Memory.read_writeBytes_outside _ _ _ _ (.inr ((Nat.zero_add _).trans_le (hlen.symm.trans_le ha)))⟩

/-! ### The RSA premises (45 R268) -/

/-- Fermat's theorem for an exponent 1 modulo `p - 1`, multiples of `p` included. -/
theorem pow_modEq_self_of_prime {p k : Nat} (hp : p.Prime) (hk : 0 < k) (h : k ≡ 1 [MOD p - 1]) (x : Nat) :
    x ^ k ≡ x [MOD p] := by
  have := Fact.mk hp
  obtain ⟨c, hc⟩ := (Nat.modEq_iff_dvd' hk).1 h.symm
  obtain rfl : k = (p - 1) * c + 1 := by omega
  rw [← ZMod.natCast_eq_natCast_iff, Nat.cast_pow]
  rcases eq_or_ne (x : ZMod p) 0 with hx | hx
  · rw [hx, zero_pow (Nat.succ_ne_zero _)]
  · rw [pow_succ, pow_mul, ZMod.pow_card_sub_one_eq_one hx, one_pow, one_mul]

/-- Only the primes 2 and 2 would let the exponents' product be 0. -/
theorem pos_of_modEq_one {p q k : Nat} (hp : p.Prime) (hq : q.Prime) (hpq : p ≠ q) (h : k ≡ 1 [MOD (p - 1) * (q - 1)]) :
    0 < k := by
  rcases Nat.eq_zero_or_pos k with rfl | hk
  · obtain ⟨hp1, hq1⟩ := mul_eq_one.1 (Nat.dvd_one.1 ((Nat.modEq_iff_dvd' zero_le_one).1 h))
    have := hp.two_le
    have := hq.two_le
    omega
  · exact hk

theorem pow_modEq_self_of_primes {p q k : Nat} (hp : p.Prime) (hq : q.Prime) (hpq : p ≠ q)
    (h : k ≡ 1 [MOD (p - 1) * (q - 1)]) (x : Nat) : x ^ k ≡ x [MOD p * q] :=
  have hk := pos_of_modEq_one hp hq hpq h
  (Nat.modEq_and_modEq_iff_modEq_mul ((Nat.coprime_primes hp hq).2 hpq)).1
    ⟨pow_modEq_self_of_prime hp hk (h.of_mul_right _) x, pow_modEq_self_of_prime hq hk (h.of_mul_left _) x⟩

/-! ### RENC and then RDEC (45 R268) -/

/-- RDEC of what RENC wrote gives the message integer to the product of the exponents. -/
theorem renc_then_rdec {s : State} (hfit : s.msgLen ≤ s.cfg.dmemBytes) (hlt : beInt s.message < s.bm) (d : Nat) :
    ∃ t u, exec .renc s = .next t ∧ Ended .noError t ∧ t.br = beInt s.message ^ s.bb % s.bm ∧
      exec .rdec { t with ba := t.br, bb := d } = .next u ∧ Ended .noError u ∧
      u.br = beInt s.message ^ (s.bb * d) % s.bm ∧
      u.dmem = s.dmem.writeBytes 0 (beBytes u.br) ∧ u.dlen = BitVec.ofNat 32 (beBytes u.br).length := by
  have hpow : modExp (modExp (beInt s.message) s.bb s.bm) d s.bm = beInt s.message ^ (s.bb * d) % s.bm := by
    rw [modExp_eq, modExp_eq, ← Nat.pow_mod, ← pow_mul]
  exact ⟨_, _, exec_renc_of_lt_bm hfit hlt, ended_endWith .., modExp_eq .., exec_rdec_of_ne_zero (Nat.ne_zero_of_lt hlt),
    ended_endWith .., hpow, rfl, rfl⟩

/-- A message whose first byte is not zero does not begin with a zero byte as a string. -/
theorem head_message_ne_zero {s : State} (h : 0 < s.msgLen → s.dmem.read 0 ≠ 0) : s.message.head? ≠ some 0 := by
  unfold State.message
  cases hn : s.msgLen with
  | zero => exact (Option.some_ne_none 0).symm
  | succ n => exact fun h0 => h (hn ▸ n.succ_pos) (Option.some.inj h0)

/-- The counter-example of 45 R268: modulo 9 = 3 * 3 the message 2 becomes 5, and 5 to the power 1 stays 5. -/
theorem two_pow_pubExp_mod_nine : 2 ^ pubExp % 9 = 5 := (modExp_eq 2 pubExp 9).symm.trans (by decide)

/-- Settles O58: the message integer comes back by Fermat's theorem, and its shortest bytes are the message. -/
theorem rdecUndoesRenc : Obligations.RdecUndoesRenc := by
  refine ⟨fun s p q d _ ⟨hwf, _⟩ _ hfit hp hq hpq hbm hed hlt hhead => ?_, fun s d hlen hbm hbb hd => ?_,
    fun s hv ⟨hwf, _⟩ hbm hbb hlen hread => ?_⟩
  · obtain ⟨t, u, hrenc, ht, -, hrdec, hu, hbr, hdmem, hdlen⟩ := renc_then_rdec hfit hlt d
    have hback : u.br = beInt s.message := by
      rw [hbr, hbm, pow_modEq_self_of_primes hp hq hpq hed, ← hbm]
      exact Nat.mod_eq_of_lt hlt
    rw [hback, beBytes_beInt_of_head _ (head_message_ne_zero hhead)] at hdmem hdlen
    refine ⟨t, u, hrenc, ht, hrdec, hu, ?_, ?_⟩
    · rw [hdlen, length_message, State.msgLen, BitVec.ofNat_toNat, BitVec.setWidth_eq]
    · have hbytes := Memory.readBytes_writeBytes s.dmem 0 s.message hwf
      rwa [← hdmem, length_message] at hbytes
  · have hint : beInt s.message = 0 := by rw [State.message, hlen, Memory.readBytes, beInt_nil]
    obtain ⟨t, u, hrenc, ht, -, hrdec, hu, hbr, -, hdlen⟩ := renc_then_rdec (s := s) (by omega) (by omega) d
    rw [hint, zero_pow (Nat.mul_ne_zero (by omega) (by omega)), Nat.zero_mod] at hbr
    refine ⟨t, u, hrenc, ht, hrdec, hu, ?_⟩
    rw [State.msgLen, hdlen, hbr]
    rfl
  · have hmsgLen : s.msgLen = 1 := by rw [State.msgLen, hlen]; rfl
    have hint : beInt s.message = 2 := by rw [State.message, hmsgLen, Memory.readBytes, hread]; rfl
    have hbb : s.bb = pubExp := hbb
    have hpow : beInt s.message ^ s.bb % s.bm = 5 := by rw [hint, hbb, hbm, two_pow_pubExp_mod_nine]
    obtain ⟨-, -, -, -, h32, -⟩ := hv
    obtain ⟨t, u, hrenc, -, hcipher, hrdec, -, hbr, hdmem, -⟩ := renc_then_rdec (s := s) (by omega) (by omega) 1
    rw [mul_one, hpow] at hbr
    refine ⟨t, u, hrenc, hcipher.trans hpow, hrdec, hbr, ?_⟩
    rw [hdmem, hbr]
    exact Memory.read_write_same s.dmem 0 0x05 hwf

end Sys2Proof.Machine

/-! PROOFS of the statement on the structural transform of the host's software. On one text the round trip is that of RSA
(`textsRoundTrip_of_primes`, from `pow_modEq_self_of_primes`); the walk only has to carry it to every leaf, by induction
on the structure (`decryptStructure_of_encryptStructure`). -/

namespace Sys2Proof.Machine

/-! ### RSA on one text (46 R298, 45 R268) -/

theorem survivingText_of_head {p : HostParams} {t : Text} (h : (p.toBytes t).head? ≠ some 0) : p.survivingText t = t := by
  rw [HostParams.survivingText, ← beBytes_beInt, beBytes_beInt_of_head _ h, p.oneEncoding]

theorem rsaEncryptText_eq_ok_iff {p : HostParams} {e n : Nat} {t c : Text} :
    rsaEncryptText p e n t = .ok c ↔
      beInt (p.toBytes t) < n ∧ p.hex.render (modExp (beInt (p.toBytes t)) e n) = c := by
  unfold rsaEncryptText
  split
  case isTrue hle => exact iff_of_false nofun fun ⟨hlt, _⟩ => absurd hle (Nat.not_le.2 hlt)
  case isFalse hle => rw [Except.ok.injEq, and_iff_right (Nat.not_le.1 hle)]

theorem rsaDecryptText_of_parse {p : HostParams} {bnBits d n c : Nat} {t : Text} (hparse : p.hex.parse t = some c)
    (hc : c < 2 ^ bnBits) (hn : n ≠ 0) : rsaDecryptText p bnBits d n t = .ok (p.ofBytes (beBytes (modExp c d n))) := by
  rw [rsaDecryptText, hparse]
  exact (if_neg (Nat.not_le.2 hc)).trans (if_neg hn)

/-- Under the key, every text that encrypts comes back but for its leading zero bytes. -/
def TextsRoundTrip (p : HostParams) (bnBits e d n : Nat) : Prop :=
  ∀ {t c : Text}, rsaEncryptText p e n t = .ok c → rsaDecryptText p bnBits d n c = .ok (p.survivingText t)

/-- The message integer comes back by Fermat's theorem, and its shortest bytes are those of the text without the leading
zeros. -/
theorem textsRoundTrip_of_primes {p : HostParams} {bnBits e d n q r : Nat}
    (hhex : ∀ m, p.hex.parse (p.hex.render m) = some m) (hq : q.Prime) (hr : r.Prime) (hqr : q ≠ r) (hn : n = q * r)
    (hfit : n ≤ 2 ^ bnBits) (hed : e * d ≡ 1 [MOD (q - 1) * (r - 1)]) :
    TextsRoundTrip p bnBits e d n := by
  intro t c h
  obtain ⟨hlt, rfl⟩ := rsaEncryptText_eq_ok_iff.1 h
  have hn0 : n ≠ 0 := Nat.ne_zero_of_lt hlt
  have hback : modExp (modExp (beInt (p.toBytes t)) e n) d n = beInt (p.toBytes t) := by
    rw [modExp_eq, modExp_eq, ← Nat.pow_mod, ← pow_mul, hn, pow_modEq_self_of_primes hq hr hqr hed, ← hn,
      Nat.mod_eq_of_lt hlt]
  rw [rsaDecryptText_of_parse (hhex _) ((modExp_lt _ _ _ hn0).trans_le hfit) hn0, hback, beBytes_beInt,
    HostParams.survivingText]

/-! ### Results that succeed -/

theorem exists_of_map_eq_ok {ε α β : Type} {f : α → β} {x : Except ε α} {b : β} (h : x.map f = .ok b) :
    ∃ a, x = .ok a ∧ f a = b := by
  cases x with
  | error e => cases h
  | ok a => exact ⟨a, rfl, Except.ok.inj h⟩

theorem exists_of_consResult_eq_ok {α β : Type} {f : α → List β → List β} {a : Except ErrCode α}
    {rest : Except ErrCode (List β)} {ws : List β} (h : consResult f a rest = .ok ws) :
    ∃ v vs, a = .ok v ∧ rest = .ok vs ∧ f v vs = ws := by
  cases a with
  | error e => cases h
  | ok v =>
    cases rest with
    | error e => cases h
    | ok vs => exact ⟨v, vs, rfl, rfl, Except.ok.inj h⟩

/-! ### The walk over a structure (46 R295 to R297) -/

section
variable {p : HostParams} {bnBits e d n : Nat}

/-- A scalar leaf, which every variant encrypts as a text of its own. -/
theorem decryptStructure_of_encrypted_leaf (hrt : TextsRoundTrip p bnBits e d n) {t : Text} {c : SValue}
    (h : (rsaEncryptText p e n t).map .str = .ok c) : decryptStructure p bnBits d n c = .ok (.str (p.survivingText t)) := by
  obtain ⟨t', henc, rfl⟩ := exists_of_map_eq_ok h
  rw [decryptStructure, hrt henc]
  rfl

mutual

theorem decryptStructure_of_encryptStructure (hrt : TextsRoundTrip p bnBits e d n) :
    ∀ {v c : SValue}, encryptStructure p e n v = .ok c → decryptStructure p bnBits d n c = .ok (v.asTexts p)
  | .str _, _, h => decryptStructure_of_encrypted_leaf hrt h
  | .int _, _, h => decryptStructure_of_encrypted_leaf hrt h
  | .float _, _, h => decryptStructure_of_encrypted_leaf hrt h
  | .seq _, _, h => by
    obtain ⟨cs, henc, rfl⟩ := exists_of_map_eq_ok h
    rw [decryptStructure, decryptSeq_of_encryptSeq hrt henc]
    rfl
  | .map _, _, h => by
    obtain ⟨cs, henc, rfl⟩ := exists_of_map_eq_ok h
    rw [decryptStructure, decryptMap_of_encryptMap hrt henc]
    rfl
  | .other, _, h => nomatch h

theorem decryptSeq_of_encryptSeq (hrt : TextsRoundTrip p bnBits e d n) :
    ∀ {vs cs : List SValue}, encryptSeq p e n vs = .ok cs → decryptSeq p bnBits d n cs = .ok (seqAsTexts p vs)
  | [], _, rfl => rfl
  | _ :: _, _, h => by
    obtain ⟨c, cs, hv, hvs, rfl⟩ := exists_of_consResult_eq_ok h
    rw [decryptSeq, decryptStructure_of_encryptStructure hrt hv, decryptSeq_of_encryptSeq hrt hvs]
    rfl

theorem decryptMap_of_encryptMap (hrt : TextsRoundTrip p bnBits e d n) : ∀ {kvs cs : List (Text × SValue)},
    encryptMap p e n kvs = .ok cs → decryptMap p bnBits d n cs = .ok (mapAsTexts p kvs)
  | [], _, rfl => rfl
  | (_, _) :: _, _, h => by
    obtain ⟨c, cs, hv, hkvs, rfl⟩ := exists_of_consResult_eq_ok h
    rw [decryptMap, decryptStructure_of_encryptStructure hrt hv, decryptMap_of_encryptMap hrt hkvs]
    rfl

end

end

theorem seqAsTexts_eq_map (p : HostParams) (vs : List SValue) : seqAsTexts p vs = vs.map (SValue.asTexts p) := by
  induction vs with
  | nil => rfl
  | cons v vs ih => rw [seqAsTexts, ih, List.map_cons]

theorem mapAsTexts_eq_map (p : HostParams) (kvs : List (Text × SValue)) :
    mapAsTexts p kvs = kvs.map fun kv => (kv.1, kv.2.asTexts p) := by
  induction kvs with
  | nil => rfl
  | cons kv kvs ih => rw [mapAsTexts, ih, List.map_cons]

/-- Settles O60: the RSA round trip of one text, carried by the walk to every leaf. -/
theorem structureRoundTripsToStrings : Obligations.StructureRoundTripsToStrings := by
  refine ⟨plainHex_render false, fun p bnBits e d n q r hhex hq hr hqr hn hfit hed v c h => ?_, fun _ _ => rfl,
    fun _ _ => survivingText_of_head, fun _ _ _ _ _ _ => ⟨rfl, rfl, rfl, rfl, rfl⟩, fun p vs => ?_, fun p kvs => ?_⟩
  · exact decryptStructure_of_encryptStructure (textsRoundTrip_of_primes hhex hq hr hqr hn hfit hed) h
  · rw [seqAsTexts_eq_map]
    exact ⟨List.length_map .., fun _ => List.getElem?_map⟩
  · rw [mapAsTexts_eq_map, List.map_map, List.map_map]
    exact ⟨rfl, rfl⟩

end Sys2Proof.Machine

/-! PROOFS of the statements on the error codes and on the end of a command. Every command answers (`exec_answers`); of the
six ends of a command's step, only those that move a search leave the command running, and PGEN and KGEN alone search. -/

namespace Sys2Proof.Machine

/-- Settles O14, row by row of the table. -/
theorem errorCodesHaveTheirNumbers : Obligations.ErrorCodesHaveTheirNumbers := by
  unfold Obligations.ErrorCodesHaveTheirNumbers
  decide

/-! ### Commands that end in one step (70 R361) -/

/-- PGEN and KGEN alone search (44 R230, 45 R262). -/
theorem SearchHit.pgen_or_kgen {s : State} {i : Instr} {hit : Nat → Search} (hi : SearchHit s i hit) :
    i = .pgen ∨ i = .kgen := by
  cases hi with
  | pgen => exact .inl rfl
  | kgenP | kgenQ => exact .inr rfl

theorem Leaves.ended_of_not_search {s t : State} {i : Instr} (h : Leaves s i t) (hp : i ≠ .pgen) (hk : i ≠ .kgen) :
    t.status.busy = false ∧ t.status.done = true := by
  cases h with
  | failed | failedAfterDraws | completed => exact ⟨rfl, rfl⟩
  | rejected hi | accepted hi | drawFailed hi => exact (hi.pgen_or_kgen.elim hp hk).elim

/-- Settles O26: what a command leaves is one of the six ends of its step, and those that still run are a search's. -/
theorem everyCommandAnswersAndAllButSearchesEnd : Obligations.EveryCommandAnswersAndAllButSearchesEnd := by
  intro i s
  obtain ⟨t, ht, hl⟩ := exec_answers s i
  exact ⟨t, ht, hl.ended_of_not_search⟩

end Sys2Proof.Machine
